-- ==== Sys2Proof/Word.lean ====
section
/-! DEFINITION. The fixed-width words of the block (00_scope.md R10, R14; 10_state.md R39; 20_memory.md R51).
Words whose width is a parameter (the Booth words of `W` bits) and the patterns on the integer ports are natural numbers
below `2^n` (notes/assumptions/18.md). -/

namespace Sys2Proof

/-- One addressable unit of the memory (R51). -/
abbrev Byte := BitVec 8

/-- A segment register (R39). -/
abbrev Word16 := BitVec 16

/-- The 8-bit command word `cmd_op` (R77). -/
abbrev CommandWord := BitVec 8

end Sys2Proof
end

