-- ==== Sys2Proof/Syntax.lean ====
section
/-! DEFINITION. The 22 commands (30_encoding.md R80), one constructor per row of opcode_table.json, with the operand
values each row names (R75, R78), and the command as it stands on the ports (R76, R77). -/

namespace Sys2Proof

/-- A command on the ports: the command word and the integers on `arg0`, `arg1`, `arg2` (R76, R77, R78). -/
structure Command where
  op : CommandWord
  arg0 : Int
  arg1 : Int
  arg2 : Int
  deriving DecidableEq, Repr

/-- One command with its operand values. A bit-pattern operand (FENC's value, FDEC's word) is a natural number below
2^64 (WellFormed.lean); every other operand is an integer at its full value, so that a value out of range can be
detected and refused (R78). -/
inductive Instr where
  /-- FENC.S, encode to single (R116). -/
  | fencS (value : Nat)
  /-- FENC.D, encode to double (R117). -/
  | fencD (value : Nat)
  /-- FDEC, decode a word of `len` bits (R125). -/
  | fdec (word : Nat) (len : Int)
  /-- BINIT, start a Booth multiplication (R142). -/
  | binit (m : Int) (q : Int) (bitWidth : Int)
  /-- BSTEP, one Booth step (R149). -/
  | bstep
  /-- BRESULT, the product (R150). -/
  | bresult
  /-- BVIEW, one history record (R151). -/
  | bview (viewStep : Int)
  /-- BRESET, reset the multiplier (R152). -/
  | breset
  /-- PUSH (R171). -/
  | push (value : Int)
  /-- POP (R172). -/
  | pop
  /-- PEEK (R173). -/
  | peek
  /-- SRESET, reset the stack machine (R192). -/
  | sreset
  /-- ADD (R176). -/
  | add
  /-- SUB (R177). -/
  | sub
  /-- MUL (R178). -/
  | mul
  /-- DIV (R179). -/
  | div
  /-- MOD (R180). -/
  | mod
  /-- READB (R210). -/
  | readb (addr : Int)
  /-- WRITEB (R211). -/
  | writeb (addr : Int) (value : Int)
  /-- FILL (R212). -/
  | fill (startAddr : Int) (endAddr : Int) (value : Int)
  /-- SEARCH (R213). -/
  | search (value : Int)
  /-- INSPECT (R215). -/
  | inspect (addr : Int)
  deriving DecidableEq, Repr

/-- The mnemonic of R80. -/
def Instr.mnemonic : Instr → String
  | .fencS _ => "FENC.S"
  | .fencD _ => "FENC.D"
  | .fdec _ _ => "FDEC"
  | .binit _ _ _ => "BINIT"
  | .bstep => "BSTEP"
  | .bresult => "BRESULT"
  | .bview _ => "BVIEW"
  | .breset => "BRESET"
  | .push _ => "PUSH"
  | .pop => "POP"
  | .peek => "PEEK"
  | .sreset => "SRESET"
  | .add => "ADD"
  | .sub => "SUB"
  | .mul => "MUL"
  | .div => "DIV"
  | .mod => "MOD"
  | .readb _ => "READB"
  | .writeb _ _ => "WRITEB"
  | .fill _ _ _ => "FILL"
  | .search _ => "SEARCH"
  | .inspect _ => "INSPECT"

end Sys2Proof
end

