-- ==== Sys2Proof/WellFormed.lean ====
section
/-! DEFINITION. Which terms of `Instr` stand for a command: a bit-pattern operand lies in `arg0[63:0]`
(30_encoding.md R78). Integer operands are carried at their full value and every one is admitted. -/

namespace Sys2Proof

/-- A bit pattern on `arg0[63:0]` (R78). -/
def isPattern64 (v : Nat) : Bool := decide (v < 2 ^ 64)

/-- The operands are values the ports carry for this command (R78). -/
def Instr.wellFormed : Instr → Bool
  | .fencS value => isPattern64 value
  | .fencD value => isPattern64 value
  | .fdec word _ => isPattern64 word
  | .binit _ _ _ => true
  | .bstep => true
  | .bresult => true
  | .bview _ => true
  | .breset => true
  | .push _ => true
  | .pop => true
  | .peek => true
  | .sreset => true
  | .add => true
  | .sub => true
  | .mul => true
  | .div => true
  | .mod => true
  | .readb _ => true
  | .writeb _ _ => true
  | .fill _ _ _ => true
  | .search _ => true
  | .inspect _ => true

end Sys2Proof
end

