-- ==== Sys2Proof/Decode.lean ====
section
/-! DEFINITION. Decoding a command on the ports (30_encoding.md R77, R78, R80, R81), the encoder, and the textual form
of R83. Only this file knows an opcode value. -/

namespace Sys2Proof

/-- Why a command word stands for no command (R81). -/
inductive DecodeError where
  /-- `cmd_op[7:4]` is 4 to 15. -/
  | reservedUnit (unit : Nat)
  /-- The unit exists and has no operation `cmd_op[3:0]`. -/
  | reservedFunc (unit : Nat) (func : Nat)
  deriving DecidableEq, Repr

/-- `cmd_op[7:4]` (R77). -/
def unitField (op : CommandWord) : Nat := op.toNat / 16

/-- `cmd_op[3:0]` (R77). -/
def funcField (op : CommandWord) : Nat := op.toNat % 16

/-- `arg[63:0]` of an operand port as a bit pattern (R78): a negative integer is its two's-complement form. -/
def argPattern64 (arg : Int) : Nat := (arg % 2 ^ 64).toNat

/-- The opcode map of R80; every other word is reserved (R81). Ports a row does not name are ignored (R78). -/
def decode (c : Command) : Except DecodeError Instr :=
  match unitField c.op with
  | 0 =>
    match funcField c.op with
    | 0x0 => .ok (.fencS (argPattern64 c.arg0))
    | 0x1 => .ok (.fencD (argPattern64 c.arg0))
    | 0x2 => .ok (.fdec (argPattern64 c.arg0) c.arg1)
    | f => .error (.reservedFunc 0 f)
  | 1 =>
    match funcField c.op with
    | 0x0 => .ok (.binit c.arg0 c.arg1 c.arg2)
    | 0x1 => .ok .bstep
    | 0x2 => .ok .bresult
    | 0x3 => .ok (.bview c.arg0)
    | 0x4 => .ok .breset
    | f => .error (.reservedFunc 1 f)
  | 2 =>
    match funcField c.op with
    | 0x0 => .ok (.push c.arg0)
    | 0x1 => .ok .pop
    | 0x2 => .ok .peek
    | 0x3 => .ok .sreset
    | 0x8 => .ok .add
    | 0x9 => .ok .sub
    | 0xA => .ok .mul
    | 0xB => .ok .div
    | 0xC => .ok .mod
    | f => .error (.reservedFunc 2 f)
  | 3 =>
    match funcField c.op with
    | 0x0 => .ok (.readb c.arg0)
    | 0x1 => .ok (.writeb c.arg0 c.arg1)
    | 0x2 => .ok (.fill c.arg0 c.arg1 c.arg2)
    | 0x3 => .ok (.search c.arg0)
    | 0x4 => .ok (.inspect c.arg0)
    | f => .error (.reservedFunc 3 f)
  | u => .error (.reservedUnit u)

/-- The command word of R80, `unit` then `func`. -/
def opcode : Instr → CommandWord
  | .fencS _ => 0x00#8
  | .fencD _ => 0x01#8
  | .fdec _ _ => 0x02#8
  | .binit _ _ _ => 0x10#8
  | .bstep => 0x11#8
  | .bresult => 0x12#8
  | .bview _ => 0x13#8
  | .breset => 0x14#8
  | .push _ => 0x20#8
  | .pop => 0x21#8
  | .peek => 0x22#8
  | .sreset => 0x23#8
  | .add => 0x28#8
  | .sub => 0x29#8
  | .mul => 0x2A#8
  | .div => 0x2B#8
  | .mod => 0x2C#8
  | .readb _ => 0x30#8
  | .writeb _ _ => 0x31#8
  | .fill _ _ _ => 0x32#8
  | .search _ => 0x33#8
  | .inspect _ => 0x34#8

/-- The operand values in the order `arg0`, `arg1`, `arg2`; a port the row does not name carries 0
(notes/assumptions/20.md). -/
def operands : Instr → List Int
  | .fencS value => [value]
  | .fencD value => [value]
  | .fdec word len => [word, len]
  | .binit m q bitWidth => [m, q, bitWidth]
  | .bstep => []
  | .bresult => []
  | .bview viewStep => [viewStep]
  | .breset => []
  | .push value => [value]
  | .pop => []
  | .peek => []
  | .sreset => []
  | .add => []
  | .sub => []
  | .mul => []
  | .div => []
  | .mod => []
  | .readb addr => [addr]
  | .writeb addr value => [addr, value]
  | .fill startAddr endAddr value => [startAddr, endAddr, value]
  | .search value => [value]
  | .inspect addr => [addr]

/-- The command on the ports that stands for an instruction (R77, R78, R80). -/
def encode (i : Instr) : Command where
  op := opcode i
  arg0 := (operands i).getD 0 0
  arg1 := (operands i).getD 1 0
  arg2 := (operands i).getD 2 0

/-- The command whose word has the bits `w` and whose operand ports carry 0. -/
def tableCommand (w : Nat) : Command where
  op := BitVec.ofNat 8 w
  arg0 := 0
  arg1 := 0
  arg2 := 0

/-- What the decoder reads from an instruction whose `nbits` table bits are `w`. A command is one 8-bit word (R82), so
bits at and above bit 8 stand for no command; the operand ports carry 0. -/
def decodeTableWord (nbits w : Nat) : Option Instr :=
  if w % 2 ^ nbits < 2 ^ 8 then (decode (tableCommand (w % 2 ^ nbits))).toOption else none

/-- One hexadecimal digit. -/
def hexDigit (n : Nat) : Char := Char.ofNat (if n < 10 then 48 + n else 55 + n)

/-- `0x` and the `digits` lowest hexadecimal digits of `n`, the most significant first (R83). -/
def hexText (digits n : Nat) : String :=
  "0x" ++ String.ofList ((List.range digits).reverse.map (fun k => hexDigit (n / 16 ^ k % 16)))

/-- An operand in the textual form of R83: a binary64 pattern operand as its 16-digit pattern, an integer in
decimal. -/
def operandTexts : Instr → List String
  | .fencS value => [hexText 16 value]
  | .fencD value => [hexText 16 value]
  | .fdec word len => [hexText 16 word, toString len]
  | i => (operands i).map toString

/-- The textual form of a command (R83): the mnemonic, then the operands separated by commas. -/
def Instr.text (i : Instr) : String :=
  match operandTexts i with
  | [] => i.mnemonic
  | ops => i.mnemonic ++ " " ++ String.intercalate ", " ops

end Sys2Proof
end

