-- ==== Sys2Proof/Config.lean ====
section
/-! DEFINITION. What an implementation fixes (the parameters of 00_scope.md R6) and the values the spec leaves free
(`any`, 00_scope.md R15): each free value is a constant without a body, applied to the counter `draws` of the state
(notes/assumptions/5.md), so that nothing can be proved of the value. -/

namespace Sys2Proof

/-- `MEM_SIZE`, the number of bytes of the memory unit: 2^20 (R6; notes/assumptions/2.md). -/
def memSize : Nat := 0x100000

/-- `LOG_CAP`, the entries kept in the memory operation log (R6, R42). -/
def logCap : Nat := 50

/-- `DIV_ROUND`, the rounding of an inexact negative quotient (R6, R181). -/
inductive DivRound where
  | trunc
  | floor
  deriving DecidableEq, Repr

/-- The open parameters of R6, fixed for the life of the hardware. `CELL_BITS = none` is the unbounded default;
`MEM_SIZE` and `LOG_CAP` are constants above, and operands are integers, so `ARG_BITS` has no part in the model
(92_eei_decisions.md D3). -/
structure Params where
  MAX_STACK_SIZE : Nat
  W_MAX : Nat
  CELL_BITS : Option Nat
  SEG_RESET_CS : Word16
  SEG_RESET_DS : Word16
  SEG_RESET_SS : Word16
  SEG_RESET_ES : Word16
  DIV_ROUND : DivRound
  MEM_ATTACHED : Bool
  FRAC_CAP_S : Nat
  FRAC_CAP_D : Nat
  deriving DecidableEq, Repr

/-- The constraints R6 and R59 put on the parameters. With a finite `CELL_BITS`, which is SP's width too (R6), the
values SP takes, 0 to `MAX_STACK_SIZE` (R33), must be values of that width (notes/assumptions/15.md). -/
def Params.admitted (p : Params) : Bool :=
  decide (1 ≤ p.MAX_STACK_SIZE ∧ p.MAX_STACK_SIZE ≤ 32768 ∧ 16 ≤ p.W_MAX ∧
    (∀ n ∈ p.CELL_BITS, 1 ≤ n ∧ p.MAX_STACK_SIZE < 2 ^ (n - 1)) ∧ p.SEG_RESET_SS.toNat * 16 + 0xFFFF < memSize ∧
    149 ≤ p.FRAC_CAP_S ∧ 1074 ≤ p.FRAC_CAP_D)

/-- The parameters of `State.reset`: the spec's defaults where R6 gives one (`CELL_BITS` unbounded, `DIV_ROUND` =
TRUNC, `MEM_ATTACHED`), the values of 95_test_vectors.md's examples for `MAX_STACK_SIZE` = 8 and SS = 0, the least
admitted caps, and `W_MAX` = 32. DESIGN CHOICE, unsafe (notes/assumptions/1.md). -/
def Params.atReset : Params where
  MAX_STACK_SIZE := 8
  W_MAX := 32
  CELL_BITS := none
  SEG_RESET_CS := 0
  SEG_RESET_DS := 0
  SEG_RESET_SS := 0
  SEG_RESET_ES := 0
  DIV_ROUND := .trunc
  MEM_ATTACHED := true
  FRAC_CAP_S := 149
  FRAC_CAP_D := 1074

/-- The `type` of a log entry (R42): READB and WRITEB log `read` and `write`; an entry of `any` content may carry
any other name. -/
inductive LogType where
  | read
  | write
  | other (name : String)
  deriving DecidableEq, Repr

/-- One entry of the memory operation log (R42). -/
structure LogEntry where
  type : LogType
  address : Nat
  oldValue : Option Byte
  newValue : Byte
  timestamp : Int
  deriving DecidableEq, Repr

namespace Config

/-- AX after a successful stack command (R34, R190; notes/assumptions/6.md). -/
opaque anyAX : Nat → Int
/-- BX after a successful stack command (R34, R190). -/
opaque anyBX : Nat → Int
/-- CX after a successful stack command (R34, R190). -/
opaque anyCX : Nat → Int
/-- DX after a successful stack command (R34, R190). -/
opaque anyDX : Nat → Int

/-- The one trace line every PUSH and every binary operation appends at least (R36, R191; notes/assumptions/7.md). -/
opaque anyLine : Nat → String
/-- The zero or more further trace lines of a POP or a binary operation (R36, R191). -/
opaque anyMoreLines : Nat → List String
/-- The "empty header" of a cleared trace (R36, R192). -/
opaque anyHeader : Nat → List String

/-- The byte at an address of a vacated stack slot (R61; notes/assumptions/8.md). -/
opaque anyVacated : Nat → Nat → Byte

/-- Whether an address that a FILL or a projection stored to, or after SEARCH and INSPECT any address, is in `written`
afterwards (R40, R230; notes/assumptions/9.md). -/
opaque anyWritten : Nat → Nat → Bool
/-- What FILL, SEARCH, INSPECT or a projection adds to `readCount` (R41). -/
opaque anyReadsCounted : Nat → Nat
/-- What FILL, SEARCH, INSPECT or a projection adds to `writeCount` (R41). -/
opaque anyWritesCounted : Nat → Nat
/-- The entries FILL, SEARCH, INSPECT or a projection appends to the log (R42). -/
opaque anyLogged : Nat → List LogEntry
/-- The host time of a log entry (R42, R258; notes/assumptions/10.md). -/
opaque anyTimestamp : Nat → Int

/-- The `bits` field of an INIT record (R30; notes/assumptions/11.md). -/
opaque anyInitBits : Nat → BitVec 2

/-- `W` in IDLE after BRESET or `rst` (R23, R152; notes/assumptions/12.md). -/
opaque anyW : Nat → Nat
/-- `M` in IDLE after BRESET or `rst` (R24, R152). -/
opaque anyM : Nat → Nat
/-- `A` in IDLE after BRESET or `rst` (R25, R152). -/
opaque anyA : Nat → Nat
/-- `Q` in IDLE after BRESET or `rst` (R26, R152). -/
opaque anyQ : Nat → Nat
/-- `Q1` in IDLE after BRESET or `rst` (R27, R152). -/
opaque anyQ1 : Nat → Bool
/-- `currentStep` in IDLE after BRESET or `rst` (R28, R152). -/
opaque anyCurrentStep : Nat → Nat

/-- Whether FDEC delivers the upper of the two neighbours of the inexact value of a word (R123;
notes/assumptions/13.md). -/
opaque anyUpperNeighbour : Nat → Nat → Bool

end Config

end Sys2Proof
end

