-- ==== Sys2Proof/Machine/State.lean ====
section
/-! DEFINITION. The architectural state (10_state.md), as plain data: the three stateful units of R20 and, beside them,
the model's own fields (the parameters, what the host has still to drive, the response ports and the index of the free
values). Reset values: R46. -/

namespace Sys2Proof.Machine

/-- The memory array as the list of the bytes that differ from the reset value 0, addresses strictly rising. -/
abbrev Memory := List Host.Cell

/-- The phase of the Booth multiplier (R22); the document's INITIALIZED is STEPPING with `currentStep` = 0. -/
inductive Phase where
  | idle
  | stepping
  | complete
  deriving DecidableEq, Repr

/-- The operation of a history record (R30). -/
inductive BoothOp where
  | add
  | sub
  | nop
  | init
  deriving DecidableEq, Repr

/-- One BoothState record (R30). `A` and `Q` are words of the multiplication's `W` bits. -/
structure BoothRecord where
  step : Nat
  bits : BitVec 2
  operation : BoothOp
  A : Nat
  Q : Nat
  Q1 : Bool
  deriving DecidableEq, Repr

/-- The Booth multiplier (R22 to R29). `M`, `A` and `Q` are words of `W` bits; `history` is oldest first. -/
structure Bmu where
  phase : Phase
  W : Nat
  M : Nat
  A : Nat
  Q : Nat
  Q1 : Bool
  currentStep : Nat
  history : List BoothRecord
  deriving DecidableEq, Repr

/-- The six flags (R35). -/
structure Flags where
  ZF : Bool
  CF : Bool
  SF : Bool
  OF : Bool
  PF : Bool
  AF : Bool
  deriving DecidableEq, Repr

/-- The stack machine (R32 to R36). `operandStack` is bottom first: element `i` is the spec's `stack[i]`. -/
structure Scu where
  operandStack : List Int
  SP : Int
  AX : Int
  BX : Int
  CX : Int
  DX : Int
  flags : Flags
  instructionTrace : List String
  deriving DecidableEq, Repr

/-- The memory unit (R38 to R42). `written` is a strictly rising list of addresses; `opLog` is oldest first. -/
structure MemUnit where
  mem : Memory
  CS : Word16
  DS : Word16
  SS : Word16
  ES : Word16
  written : List Nat
  readCount : Nat
  writeCount : Nat
  opLog : List LogEntry
  deriving DecidableEq, Repr

/-- The statuses of a response (60_exceptions.md R241). -/
inductive Status where
  | ok
  | invalidInputError
  | formatError
  | stackOverflow
  | stackUnderflow
  | divisionByZero
  | addressOutOfRange
  | invalidByteValue
  | encodeRange
  | illegalCommand
  | cellRange
  | notReady
  deriving DecidableEq, Repr

/-- The seven fields of INSPECT (43_memory_port.md R215); `none` is `N/A` (R222). `float32` is the 32-bit pattern
(R220), `asciiString` the preview's characters in order (R221). -/
structure InspectRecord where
  byte : Nat
  signedByte : Int
  word_LE : Option Nat
  word_BE : Option Nat
  dword : Option Nat
  float32 : Option (BitVec 32)
  asciiString : List Char
  deriving DecidableEq, Repr

/-- What `res_rec` carries (30_encoding.md R76, R79). -/
inductive ResultRecord where
  | booth (record : BoothRecord)
  | inspection (record : InspectRecord)
  | addresses (hits : List Nat)
  deriving DecidableEq, Repr

/-- One response (30_encoding.md R79): the status and, when it is OK, the results the command's rule names. -/
structure Response where
  status : Status
  res0 : Option Int
  res1 : Option Int
  resRec : Option ResultRecord
  deriving DecidableEq, Repr

/-- What the host drives: the reset input (70_reset_and_hazards.md R270) or one command (30_encoding.md R76). -/
inductive HostInput where
  | rst
  | command (c : Command)
  deriving DecidableEq, Repr

/-- The machine. `bmu`, `scu` and `memUnit` are the spec's state (R20). The model's own fields: `params`, the
parameters of R6, which no step changes (notes/assumptions/1.md); `inputs`, what the host has still to drive
(notes/assumptions/3.md); `response`, what the response ports show (notes/assumptions/4.md); `draws`, the index of the
free values (notes/assumptions/5.md). -/
structure State where
  bmu : Bmu
  scu : Scu
  memUnit : MemUnit
  params : Params
  inputs : List HostInput
  response : Option Response
  draws : Nat
  deriving DecidableEq, Repr

/-- The reasons the machine stops with a fault: none. Every error of the spec is a status of a response after which
the block takes the next command (60_exceptions.md R253, R254: "There is no crash/fatal tier"). -/
inductive Fault where
  deriving DecidableEq, Repr

/-- The reasons a step has no meaning. -/
inductive Refusal where
  /-- Raised by `exec` for an instruction that has no meaning yet, by its mnemonic. Safe: the machine stops. -/
  | notModelled (mnemonic : String)
  /-- Raised by the stack projection in a configuration whose projection would leave the memory or form a negative
  offset, which the model refuses as 20_memory.md R59 says. Safe: the machine stops, and no admitted configuration
  reaches it (notes/assumptions/17.md). -/
  | configurationRejected
  deriving DecidableEq, Repr

/-- The outcome of a step. -/
abbrev Result := Host.Outcome State Fault Refusal

/-- The machine after hardware reset (R46, R271), with the parameters `Params.atReset`. The BMU registers that R46
leaves unspecified are 0 (DESIGN CHOICE, unsafe: notes/assumptions/12.md). -/
def State.reset : State where
  bmu :=
    { phase := .idle, W := 0, M := 0, A := 0, Q := 0, Q1 := false, currentStep := 0, history := [] }
  scu :=
    { operandStack := []
      SP := Params.atReset.MAX_STACK_SIZE
      AX := 0
      BX := 0
      CX := 0
      DX := 0
      flags := { ZF := false, CF := false, SF := false, OF := false, PF := false, AF := false }
      instructionTrace := Config.anyHeader 0 }
  memUnit :=
    { mem := []
      CS := Params.atReset.SEG_RESET_CS
      DS := Params.atReset.SEG_RESET_DS
      SS := Params.atReset.SEG_RESET_SS
      ES := Params.atReset.SEG_RESET_ES
      written := []
      readCount := 0
      writeCount := 0
      opLog := [] }
  params := Params.atReset
  inputs := []
  response := none
  draws := 0

end Sys2Proof.Machine
end

