-- ==== Sys2Proof/Machine/Operands.lean ====
section
/-! DEFINITION. How the rules read integers, words and bit strings (00_scope.md R10 to R13), the field layout of the
two IEEE formats (40_ieee754_codec.md R100 to R102), the range checks of operands, and the multi-byte readings of
memory bytes (20_memory.md R54). -/

namespace Sys2Proof.Machine

/-! ### Integers and words -/

/-- `umod_n(v) = v mod 2^n`, also `tc_n(v)` (R13). -/
def umod (n : Nat) (v : Int) : Nat := (v % 2 ^ n).toNat

/-- `sval_n(w)`, the signed reading of an `n`-bit word (R13). -/
def sval (n : Nat) (w : Nat) : Int := if w.testBit (n - 1) then (w : Int) - 2 ^ n else w

/-- `v` lies in the two's-complement range of width `n`, `[-2^(n-1), 2^(n-1) - 1]` (R13). -/
def inSignedRange (n : Nat) (v : Int) : Bool := decide (-2 ^ (n - 1) ≤ v ∧ v ≤ 2 ^ (n - 1) - 1)

/-- `popcount` of an 8-bit value (R13). -/
def popcount8 (v : Nat) : Nat := ((List.range 8).filter fun k => v.testBit k).length

/-- `str_n(w)`, the bits of a word, most significant first (R11). -/
def bitString (n w : Nat) : List Bool := (List.range n).reverse.map fun k => w.testBit k

/-- The unsigned word of a bit string, most significant bit first (R11). -/
def bitStringValue (bits : List Bool) : Nat := bits.foldl (fun acc b => 2 * acc + b.toNat) 0

/-! ### The IEEE formats -/

/-- One of the two formats (R100). -/
structure Format where
  expWidth : Nat
  mantWidth : Nat
  bias : Nat
  deriving DecidableEq, Repr

/-- SINGLE (R100). -/
def Format.single : Format where
  expWidth := 8
  mantWidth := 23
  bias := 127

/-- DOUBLE (R100). The value ports read a binary64 pattern with the same layout (R14, R103). -/
def Format.double : Format where
  expWidth := 11
  mantWidth := 52
  bias := 1023

/-- `EMAX = 2^ew - 1` (R100). -/
def Format.expMax (fmt : Format) : Nat := 2 ^ fmt.expWidth - 1

/-- A sign, exponent, mantissa triple (R101). -/
structure Fields where
  sign : Bool
  exponent : Nat
  mantissa : Nat
  deriving DecidableEq, Repr

/-- `word = sign ‖ exponent ‖ mantissa` (R101). -/
def Format.pack (fmt : Format) (f : Fields) : Nat :=
  f.sign.toNat * 2 ^ (fmt.expWidth + fmt.mantWidth) + f.exponent * 2 ^ fmt.mantWidth + f.mantissa

/-- The fields of a word, at the positions of R101; bits above the word's length are ignored (R119). -/
def Format.split (fmt : Format) (word : Nat) : Fields where
  sign := word.testBit (fmt.expWidth + fmt.mantWidth)
  exponent := word / 2 ^ fmt.mantWidth % 2 ^ fmt.expWidth
  mantissa := word % 2 ^ fmt.mantWidth

/-- The class of a field triple (R102). -/
inductive Kind where
  | normal
  | zero
  | infinity
  | nan
  deriving DecidableEq, Repr

/-- `kind(E, m)`, tested in the order of R102; the sign does not enter. -/
def Format.kind (fmt : Format) (exponent mantissa : Nat) : Kind :=
  if exponent = fmt.expMax ∧ mantissa = 0 then .infinity
  else if exponent = fmt.expMax then .nan
  else if exponent = 0 ∧ mantissa = 0 then .zero
  else .normal

/-- The kind's code on `res1` (R102). -/
def Kind.code : Kind → Int
  | .normal => 0
  | .zero => 1
  | .infinity => 2
  | .nan => 3

/-! ### Operand ranges -/

/-- "an address is valid iff `0 ≤ addr < MEM_SIZE`" (R38, R50). -/
def validAddress (addr : Int) : Bool := decide (0 ≤ addr ∧ addr < memSize)

/-- A value in `[0, 255]` (R211, R229). -/
def isByteValue (v : Int) : Bool := decide (0 ≤ v ∧ v ≤ 255)

/-- The byte of a value in `[0, 255]`. -/
def byteOf (v : Int) : Byte := BitVec.ofInt 8 v

/-- An element that a finite `CELL_BITS` admits (R197). -/
def cellFits (p : Params) (v : Int) : Bool :=
  match p.CELL_BITS with
  | none => true
  | some n => inSignedRange n v

/-- A free integer as a register of `CELL_BITS` bits holds it (R6, R34): any integer when `CELL_BITS` is unbounded,
any value of the signed range when it is finite. -/
def cellValue (p : Params) (v : Int) : Int :=
  match p.CELL_BITS with
  | none => v
  | some n => sval n (umod n v)

/-! ### Multi-byte readings -/

/-- The unsigned integer of bytes stored lowest address first, least significant byte first (R54). -/
def littleEndian : List Byte → Nat
  | [] => 0
  | b :: rest => b.toNat + 256 * littleEndian rest

/-- The unsigned integer of bytes stored lowest address first, most significant byte first (R218, `word_BE`). -/
def bigEndian (bytes : List Byte) : Nat := littleEndian bytes.reverse

/-- The two bytes of a 16-bit value, low byte first (R54, R60). -/
def bytesOf16 (v : Nat) : List Byte := [BitVec.ofNat 8 v, BitVec.ofNat 8 (v / 256)]

/-- The character of one previewed byte: itself if it is 0x20 to 0x7E, else `.` (R221). -/
def previewChar (b : Byte) : Char :=
  if 0x20 ≤ b.toNat ∧ b.toNat ≤ 0x7E then Char.ofNat b.toNat else '.'

end Sys2Proof.Machine
end

