-- ==== Sys2Proof/Machine/Flags.lean ====
section
/-! DEFINITION. The five binary operations (42_stack_machine.md R176 to R182) and the six flags they write (R183 to
R188), all on the unwrapped integers. -/

namespace Sys2Proof.Machine

/-- The operator of a binary operation (R174). -/
inductive BinOp where
  | add
  | sub
  | mul
  | div
  | mod
  deriving DecidableEq, Repr

/-- `trunc(a/b)`: the floor of `|a| / |b|`, negated when the signs differ (R181). -/
def quotTrunc (a b : Int) : Int :=
  if (a < 0) = (b < 0) then ((a.natAbs / b.natAbs : Nat) : Int) else -((a.natAbs / b.natAbs : Nat) : Int)

/-- `Quot(a, b)` for `b ≠ 0` (R181): both readings agree when the exact quotient is not negative or the division is
exact; else `DIV_ROUND` decides. -/
def quot (round : DivRound) (a b : Int) : Int :=
  if (a < 0) = (b < 0) ∨ a % b = 0 then quotTrunc a b
  else
    match round with
    | .trunc => quotTrunc a b
    | .floor => a.fdiv b

/-- `Rem(a, b) = a - b × Quot(a, b)` (R182). -/
def remainder (round : DivRound) (a b : Int) : Int := a - b * quot round a b

/-- `f_op(a, b)`, `a` the left operand (R175 to R180). -/
def BinOp.result (op : BinOp) (round : DivRound) (a b : Int) : Int :=
  match op with
  | .add => a + b
  | .sub => a - b
  | .mul => a * b
  | .div => quot round a b
  | .mod => remainder round a b

/-- DIV and MOD fail on a right operand 0 (R195). -/
def BinOp.divides : BinOp → Bool
  | .add => false
  | .sub => false
  | .mul => false
  | .div => true
  | .mod => true

/-- `ZF = (r == 0)` (R183). -/
def zeroFlag (r : Int) : Bool := decide (r = 0)

/-- `CF` (R186). -/
def carryFlag (op : BinOp) (a b : Int) : Bool :=
  match op with
  | .add => decide (a + b > 65535)
  | .sub => decide (a < b)
  | .mul => false
  | .div => false
  | .mod => false

/-- `SF = (r < 0)` (R184). -/
def signFlag (r : Int) : Bool := decide (r < 0)

/-- `OF = (r > 32767 || r < -32768)` (R187). -/
def overflowFlag (r : Int) : Bool := decide (r > 32767 ∨ r < -32768)

/-- `PF = (popcount(|r| & 0xFF) is even)` (R185). -/
def parityFlag (r : Int) : Bool := decide (popcount8 (r.natAbs % 256) % 2 = 0)

/-- `AF` (R188); `x & 0xF` is `x mod 16` in `[0, 15]` (R13). -/
def auxFlag (op : BinOp) (a b : Int) : Bool :=
  match op with
  | .add => decide (a % 16 + b % 16 > 0xF)
  | .sub => decide (a % 16 - b % 16 < 0)
  | .mul => false
  | .div => false
  | .mod => false

/-- `Flags(op, a, b, r)`: the six rules, written together (R35, R183 to R188). -/
def flagsOf (op : BinOp) (a b r : Int) : Flags where
  ZF := zeroFlag r
  CF := carryFlag op a b
  SF := signFlag r
  OF := overflowFlag r
  PF := parityFlag r
  AF := auxFlag op a b

/-- All six flags 0 (R46, R192). -/
def Flags.cleared : Flags where
  ZF := false
  CF := false
  SF := false
  OF := false
  PF := false
  AF := false

end Sys2Proof.Machine
end

