-- ==== Sys2Proof/Machine/Ops.lean ====
section
/-! DEFINITION. The named operations every meaning is written with: reads and writes of the memory (20_memory.md R53),
answering and failing (30_encoding.md R79, 60_exceptions.md R253), the hardware reset (70_reset_and_hazards.md R270),
and the end of a stack command with its projection (20_memory.md R60). -/

namespace Sys2Proof.Machine

/-! ### Memory -/

/-- What an address that the memory does not list reads as: the reset value 0 (R38). -/
def unlistedByte : Byte := 0

/-- The byte at an address. -/
def Memory.read (m : Memory) (addr : Nat) : Byte :=
  match m with
  | [] => unlistedByte
  | (a, b) :: rest => if addr = a then b else Memory.read rest addr

/-- The memory with one byte stored, in canonical form. -/
def Memory.write (m : Memory) (addr : Nat) (v : Byte) : Memory :=
  match m with
  | [] => if v = unlistedByte then [] else [(addr, v)]
  | (a, b) :: rest =>
    if addr < a then (if v = unlistedByte then (a, b) :: rest else (addr, v) :: (a, b) :: rest)
    else if addr = a then (if v = unlistedByte then rest else (addr, v) :: rest)
    else (a, b) :: Memory.write rest addr v

/-- `MemRead(addr, n)` (R53). -/
def Memory.readBytes (m : Memory) (addr n : Nat) : List Byte :=
  (List.range' addr n).map fun a => Memory.read m a

/-- `MemWrite(addr, n, bytes)` (R53). -/
def Memory.writeBytes (m : Memory) (addr : Nat) : List Byte → Memory
  | [] => m
  | b :: rest => Memory.writeBytes (Memory.write m addr b) (addr + 1) rest

/-- The memory with one byte stored at `count` addresses from `start` on (R212). -/
def Memory.fill (m : Memory) (start count : Nat) (v : Byte) : Memory :=
  m.filter (fun cell => cell.1 < start) ++
    (if v = unlistedByte then [] else (List.range' start count).map fun a => (a, v)) ++
    m.filter (fun cell => start + count ≤ cell.1)

/-- The addresses from `start` to `MEM_SIZE - 1` that hold `v`, ascending (R213). -/
def Memory.searchFrom (v : Byte) (start : Nat) (m : Memory) : List Nat :=
  match m with
  | [] => if v = unlistedByte then List.range' start (memSize - start) else []
  | (a, b) :: rest =>
    (if v = unlistedByte then List.range' start (a - start) else []) ++
      (if b = v then [a] else []) ++ Memory.searchFrom v (a + 1) rest

/-- The linear scan of the entire memory (R213). -/
def Memory.search (m : Memory) (v : Byte) : List Nat := Memory.searchFrom v 0 m

/-- The canonical form from an address on: addresses strictly rising and below `MEM_SIZE`, no entry equal to what an
unlisted address reads as. -/
def Memory.wfFrom (start : Nat) (m : Memory) : Bool :=
  match m with
  | [] => true
  | (a, b) :: rest => decide (start ≤ a ∧ a < memSize ∧ b ≠ unlistedByte) && Memory.wfFrom (a + 1) rest

/-- The memory is in canonical form. -/
def Memory.wf (m : Memory) : Bool := Memory.wfFrom 0 m

/-! ### Responses and errors -/

/-- The code of a status on `rsp_status` (R241). -/
def Status.code : Status → BitVec 4
  | .ok => 0
  | .invalidInputError => 1
  | .formatError => 2
  | .stackOverflow => 3
  | .stackUnderflow => 4
  | .divisionByZero => 5
  | .addressOutOfRange => 6
  | .invalidByteValue => 7
  | .encodeRange => 8
  | .illegalCommand => 9
  | .cellRange => 10
  | .notReady => 11

/-- The code of a recorded operation (R30). -/
def BoothOp.code : BoothOp → BitVec 2
  | .add => 0
  | .sub => 1
  | .nop => 2
  | .init => 3

/-- Status OK with no result. -/
def Response.done : Response where
  status := .ok
  res0 := none
  res1 := none
  resRec := none

/-- Status OK with `res0`. -/
def Response.value (v : Int) : Response := { Response.done with res0 := some v }

/-- Status OK with an FPC result: the word on `res0`, the kind code on `res1` (R102). -/
def Response.word (w : Nat) (k : Kind) : Response :=
  { Response.done with res0 := some w, res1 := some k.code }

/-- Status OK with a record on `res_rec`. -/
def Response.record (r : ResultRecord) : Response := { Response.done with resRec := some r }

/-- Status OK with `res0` and a record on `res_rec`. -/
def Response.valueRecord (v : Int) (r : ResultRecord) : Response :=
  { Response.done with res0 := some v, resRec := some r }

/-- The response of a failing command: the status and no result (R79, R253). -/
def Response.error (e : Status) : Response := { Response.done with status := e }

/-- `respond(v, ...)` (R15): the command ends with these results, the state otherwise as it stands. -/
def State.respond (r : Response) (s : State) : Result := .next { s with response := some r }

/-- `raise <Error>` (R15, R253), the hardware's one exception mechanism: no state element changes, the response
carries the status and no result, nothing is saved and control is not redirected. There is no return from it, since
there is no handler (R254). -/
def State.raise (e : Status) (s : State) : Result := s.respond (.error e)

/-- `rsp_valid` (R76). -/
def State.rspValid (s : State) : Bool := s.response.isSome

/-- `rsp_status` (R76) while a response is presented. -/
def State.rspStatus (s : State) : Option (BitVec 4) := s.response.map fun r => r.status.code

/-! ### Inputs and reset -/

/-- The state in which a command is performed: the input is taken and a fresh index of free values is drawn. -/
def State.accept (rest : List HostInput) (s : State) : State :=
  { s with inputs := rest, draws := s.draws + 1 }

/-- The BMU after BRESET or `rst` (R46, R152): IDLE with an empty history, its registers unspecified. -/
def Bmu.discarded (k : Nat) : Bmu where
  phase := .idle
  W := Config.anyW k
  M := Config.anyM k
  A := Config.anyA k
  Q := Config.anyQ k
  Q1 := Config.anyQ1 k
  currentStep := Config.anyCurrentStep k
  history := []

/-- The SCU rows of R46, which SRESET and `rst` restore (R192, R270). -/
def Scu.cleared (p : Params) (k : Nat) : Scu where
  operandStack := []
  SP := p.MAX_STACK_SIZE
  AX := 0
  BX := 0
  CX := 0
  DX := 0
  flags := Flags.cleared
  instructionTrace := Config.anyHeader k

/-- The MEM rows of R46, which only `rst` restores (R270). -/
def MemUnit.initial (p : Params) : MemUnit where
  mem := []
  CS := p.SEG_RESET_CS
  DS := p.SEG_RESET_DS
  SS := p.SEG_RESET_SS
  ES := p.SEG_RESET_ES
  written := []
  readCount := 0
  writeCount := 0
  opLog := []

/-- The hardware reset event (R270, R271): the three units take their reset values and no response is given. The
parameters and what the host drives next are not the hardware's to reset. -/
def State.hardwareReset (s : State) : State where
  bmu := Bmu.discarded s.draws
  scu := Scu.cleared s.params s.draws
  memUnit := MemUnit.initial s.params
  params := s.params
  inputs := s.inputs
  response := none
  draws := s.draws

/-! ### Statistics of the memory unit -/

/-- The last `LOG_CAP` entries of a log with further entries (R42). -/
def appendLog (log entries : List LogEntry) : List LogEntry :=
  ((log ++ entries).reverse.take logCap).reverse

/-- The set with one address added (R40, R211), in rising order. -/
def addAddress (addr : Nat) : List Nat → List Nat
  | [] => [addr]
  | a :: rest => if addr < a then addr :: a :: rest else if addr = a then a :: rest else a :: addAddress addr rest

/-- What FILL, SEARCH, INSPECT and the projection do to the counters and the log is not stated (R41, R42, R230). What
they do to `written` is `MemUnit.anyMembership`. -/
def MemUnit.anyStatistics (k : Nat) (u : MemUnit) : MemUnit :=
  { u with
    readCount := u.readCount + Config.anyReadsCounted k
    writeCount := u.writeCount + Config.anyWritesCounted k
    opLog := appendLog u.opLog (Config.anyLogged k) }

/-- The membership in `written` of the `count` addresses from `start` on, which the spec leaves open: those FILL or the
projection stored to (R40), every address for SEARCH and INSPECT (`MemUnit.scanned`). -/
def MemUnit.anyMembership (k start count : Nat) (u : MemUnit) : MemUnit :=
  { u with
    written :=
      u.written.filter (fun a => a < start) ++
        (List.range' start count).filter (fun a => Config.anyWritten k a) ++
        u.written.filter (fun a => start + count ≤ a) }

/-- The memory unit after SEARCH or INSPECT (R230, R272): no byte changes, the counters and the log are free, and so is
the membership in `written` of every address. -/
def MemUnit.scanned (k : Nat) (u : MemUnit) : MemUnit := (u.anyStatistics k).anyMembership k 0 memSize

/-! ### The stack projection -/

/-- The lower of the two addresses of the slot at depth `i`: `SS*16 + 0xFFFF - 2*i - 1` (R60). -/
def slotAddress (ss : Word16) (i : Nat) : Nat := ss.toNat * 16 + 0xFFFF - 2 * i - 1

/-- The projection's loop over the elements from depth `i` on (R60): each element's low 16 bits (R62),
little-endian. -/
def projectSlots (ss : Word16) (i : Nat) (m : Memory) : List Int → Memory
  | [] => m
  | v :: rest => projectSlots ss (i + 1) (Memory.writeBytes m (slotAddress ss i) (bytesOf16 (umod 16 v))) rest

/-- The two bytes of the slot at depth `i`, vacated by the command, are free (R61). -/
def vacateSlot (k : Nat) (ss : Word16) (i : Nat) (m : Memory) : Memory :=
  Memory.writeBytes m (slotAddress ss i)
    [Config.anyVacated k (slotAddress ss i), Config.anyVacated k (slotAddress ss i + 1)]

/-- The number of slots a projection may store to: the live ones and the one the command vacated. -/
def slotsTouched (stack : List Int) (vacated : Bool) : Nat := stack.length + vacated.toNat

/-- Every address of the projection lies in the memory and no offset is negative (R59). -/
def projectionFits (ss : Word16) (slots : Nat) : Bool :=
  decide (ss.toNat * 16 + 0xFFFF < memSize ∧ slots ≤ 32768)

/-- `Project()` (R60, R61) on the stack as the command leaves it, with its unstated effect on the statistics (R40 to
R42). -/
def MemUnit.project (k : Nat) (stack : List Int) (vacated : Bool) (u : MemUnit) : MemUnit :=
  let slots := slotsTouched stack vacated
  let bytes := if vacated then vacateSlot k u.SS stack.length u.mem else u.mem
  { (u.anyStatistics k).anyMembership k (u.SS.toNat * 16 + 0x10000 - 2 * slots) (2 * slots) with
    mem := projectSlots u.SS 0 bytes stack }

/-- The end of a successful stack-changing command: its SCU state, then the projection if a memory is attached (R60,
R64, R193). A configuration in which the projection would leave the memory is refused (R59). -/
def State.commitStack (scu : Scu) (vacated : Bool) (r : Response) (s : State) : Result :=
  if s.params.MEM_ATTACHED then
    if projectionFits s.memUnit.SS (slotsTouched scu.operandStack vacated) then
      State.respond r
        { s with scu := scu, memUnit := s.memUnit.project s.draws scu.operandStack vacated }
    else .refused .configurationRejected
  else State.respond r { s with scu := scu }

/-! ### The SCU -/

/-- AX to DX after a successful stack command (R34, R190). -/
def Scu.drawRegisters (p : Params) (k : Nat) (u : Scu) : Scu :=
  { u with
    AX := cellValue p (Config.anyAX k)
    BX := cellValue p (Config.anyBX k)
    CX := cellValue p (Config.anyCX k)
    DX := cellValue p (Config.anyDX k) }

/-- The SCU after a PUSH (R171): the new top, one line of trace. -/
def Scu.pushed (p : Params) (k : Nat) (value : Int) (u : Scu) : Scu :=
  { u.drawRegisters p k with
    operandStack := u.operandStack ++ [value]
    SP := u.SP - 1
    instructionTrace := u.instructionTrace ++ [Config.anyLine k] }

/-- The SCU after a POP (R172) that leaves `below`: zero or more lines of trace. -/
def Scu.popped (p : Params) (k : Nat) (below : List Int) (u : Scu) : Scu :=
  { u.drawRegisters p k with
    operandStack := below
    SP := u.SP + 1
    instructionTrace := u.instructionTrace ++ Config.anyMoreLines k }

/-- The SCU after a binary operation (R174) that replaces the two top elements by `r`: one or more lines of trace. -/
def Scu.computed (p : Params) (k : Nat) (below : List Int) (r : Int) (flags : Flags) (u : Scu) : Scu :=
  { u.drawRegisters p k with
    operandStack := below ++ [r]
    SP := u.SP + 1
    flags := flags
    instructionTrace := u.instructionTrace ++ Config.anyLine k :: Config.anyMoreLines k }

/-- `BINOP(op)` (R174): the right operand is the top (R175); the checks stand in the order of R256. -/
def State.binaryOp (op : BinOp) (s : State) : Result :=
  match s.scu.operandStack.reverse with
  | b :: a :: below =>
    if op.divides ∧ b = 0 then s.raise .divisionByZero
    else
      let r := op.result s.params.DIV_ROUND a b
      if cellFits s.params r then
        s.commitStack (s.scu.computed s.params s.draws below.reverse r (flagsOf op a b r)) true (.value r)
      else s.raise .cellRange
  | _ => s.raise .stackUnderflow

end Sys2Proof.Machine
end

