-- ==== Sys2Proof/Machine/Booth.lean ====
section
/-! DEFINITION. The Booth multiplier (41_booth_multiplier.md): BINIT, BSTEP, BRESULT, BVIEW, BRESET. It computes by the
recurrence, never by a product (R153), and touches no other unit (R154). -/

namespace Sys2Proof.Machine

/-- The pair `Q[0] ‖ Q1` a step examines (R143). -/
def boothPair (q : Nat) (q1 : Bool) : BitVec 2 := BitVec.ofBool (q.testBit 0) ++ BitVec.ofBool q1

/-- The operation of a pair (R143): "10" subtracts, "01" adds, "00" and "11" do nothing. -/
def boothOpOf (pair : BitVec 2) : BoothOp :=
  if pair = 0b10#2 then .sub else if pair = 0b01#2 then .add else .nop

/-- `A'` (R144): addition and subtraction modulo `2^W`, nothing signalled. -/
def boothSum (w : Nat) (op : BoothOp) (a m : Nat) : Nat :=
  match op with
  | .sub => umod w ((a : Int) - m)
  | .add => umod w ((a : Int) + m)
  | .nop => a
  | .init => a

/-- `Q_new = A'[0] ‖ Q[W-1:1]` (R145). -/
def shiftedQ (w a' q : Nat) : Nat := (a'.testBit 0).toNat * 2 ^ (w - 1) + q / 2

/-- `A_new = A'[W-1] ‖ A'[W-1:1]` (R145). -/
def shiftedA (w a' : Nat) : Nat := (a'.testBit (w - 1)).toNat * 2 ^ (w - 1) + a' / 2

/-- The record a step appends (R146). -/
def Bmu.nextRecord (b : Bmu) : BoothRecord :=
  let pair := boothPair b.Q b.Q1
  let a' := boothSum b.W (boothOpOf pair) b.A b.M
  { step := b.currentStep + 1
    bits := pair
    operation := boothOpOf pair
    A := shiftedA b.W a'
    Q := shiftedQ b.W a' b.Q
    Q1 := b.Q.testBit 0 }

/-- The multiplier after one progressing step (R143 to R147). -/
def Bmu.stepped (b : Bmu) : Bmu :=
  let r := b.nextRecord
  { b with
    phase := if b.currentStep + 1 = b.W then .complete else b.phase
    A := r.A
    Q := r.Q
    Q1 := r.Q1
    currentStep := b.currentStep + 1
    history := b.history ++ [r] }

/-- The INIT record (R30, R142); its `bits` field is free. -/
def initRecord (k w : Nat) (q : Int) : BoothRecord where
  step := 0
  bits := Config.anyInitBits k
  operation := .init
  A := 0
  Q := umod w q
  Q1 := false

/-- The multiplier after a successful BINIT (R142). -/
def Bmu.initialised (k w : Nat) (m q : Int) : Bmu where
  phase := .stepping
  W := w
  M := umod w m
  A := 0
  Q := umod w q
  Q1 := false
  currentStep := 0
  history := [initRecord k w q]

/-- BINIT (R142): a successful one replaces any earlier multiplication, a failing one leaves it. -/
def execBinit (m q bitWidth : Int) (s : State) : Result :=
  if bitWidth < 1 ∨ (s.params.W_MAX : Int) < bitWidth then s.raise .invalidInputError
  else if ¬ inSignedRange bitWidth.toNat m then s.raise .invalidInputError
  else if ¬ inSignedRange bitWidth.toNat q then s.raise .invalidInputError
  else
    State.respond (.record (.booth (initRecord s.draws bitWidth.toNat q)))
      { s with bmu := Bmu.initialised s.draws bitWidth.toNat m q }

/-- BSTEP (R149): "no progress" when COMPLETE (R148). -/
def execBstep (s : State) : Result :=
  match s.bmu.phase with
  | .idle => s.raise .notReady
  | .complete => s.respond (.value 0)
  | .stepping =>
    State.respond (.valueRecord 1 (.booth s.bmu.nextRecord)) { s with bmu := s.bmu.stepped }

/-- `sval_2W(A ‖ Q)` (R150). -/
def Bmu.product (b : Bmu) : Int := sval (2 * b.W) (b.A * 2 ^ b.W + b.Q)

/-- BRESULT (R150). -/
def execBresult (s : State) : Result :=
  match s.bmu.phase with
  | .complete => s.respond (.value s.bmu.product)
  | .idle => s.raise .notReady
  | .stepping => s.raise .notReady

/-- `history[i]` for an index in `[0, historyLength - 1]` (R151). -/
def Bmu.record? (b : Bmu) (i : Int) : Option BoothRecord :=
  if i < 0 then none else b.history[i.toNat]?

/-- BVIEW (R151). -/
def execBview (viewStep : Int) (s : State) : Result :=
  if s.bmu.phase = .idle then s.raise .notReady
  else
    match s.bmu.record? viewStep with
    | some r => s.respond (.record (.booth r))
    | none => s.raise .invalidInputError

/-- BRESET (R152). -/
def execBreset (s : State) : Result := State.respond .done { s with bmu := Bmu.discarded s.draws }

end Sys2Proof.Machine
end

