-- ==== Sys2Proof/Machine/Fpc.lean ====
section
/-! DEFINITION. The IEEE-754 encoder and decoder (40_ieee754_codec.md): FENC.S, FENC.D, FDEC. It is stateless (R21). -/

namespace Sys2Proof.Machine

/-! ### Encode -/

/-- The exact magnitude of a finite binary64 pattern with exponent field `e64` and fraction `f64`, in units of
2^-1074 (R14, R107). -/
def magnitude (e64 f64 : Nat) : Nat := if e64 = 0 then f64 else (2 ^ 52 + f64) * 2 ^ (e64 - 1)

/-- `ibits`, the binary numeral of the integer part, empty for 0 (R108). -/
def integerBits (n : Nat) : List Bool := if n = 0 then [] else bitString (n.log2 + 1) n

/-- `fbits`, the fraction expanded to `cap` bits by repeated doubling with carry extraction, the remainder in units of
2^-1074 (R108). -/
def fractionBits : Nat → Nat → List Bool
  | 0, _ => []
  | cap + 1, r =>
    if 2 ^ 1074 ≤ 2 * r then true :: fractionBits cap (2 * r - 2 ^ 1074) else false :: fractionBits cap (2 * r)

/-- The position `k`, counted from `k`'s start value, of the first 1 of a fraction expansion, and what follows it
(R109). -/
def leadingOne (k : Nat) : List Bool → Option (Nat × List Bool)
  | [] => none
  | true :: rest => some (k, rest)
  | false :: rest => leadingOne (k + 1) rest

/-- Normalisation (R109): the unbiased exponent and the bits after the leading 1; none when the capped expansion of a
magnitude below 1 holds no 1. -/
def normalise (ibits fbits : List Bool) : Option (Int × List Bool) :=
  match ibits with
  | _ :: rest => some ((rest.length : Int), rest ++ fbits)
  | [] => (leadingOne 1 fbits).map fun (k, tail) => (-(k : Int), tail)

/-- The mantissa field: the first `p` bits of the tail, padded on the right with zeros (R110, R114). -/
def mantissaField (p : Nat) (tail : List Bool) : Nat :=
  bitStringValue ((tail ++ List.replicate p false).take p)

/-- The word of a finite non-zero value (R107 to R111), none where the encoder refuses (R111). -/
def encodeFinite (fmt : Format) (cap : Nat) (sign : Bool) (mag : Nat) : Option Nat :=
  match normalise (integerBits (mag / 2 ^ 1074)) (fractionBits cap (mag % 2 ^ 1074)) with
  | none => none
  | some (e, tail) =>
    if e + fmt.bias < 1 ∨ (fmt.expMax : Int) - 1 < e + fmt.bias then none
    else
      some (fmt.pack
        { sign := sign, exponent := (e + fmt.bias).toNat, mantissa := mantissaField fmt.mantWidth tail })

/-- `encode(value, precision)` of a binary64 pattern (R103 to R111): the word and its kind, none where the encoder
refuses. Zero, infinity and NaN come first. -/
def encodeValue (fmt : Format) (cap : Nat) (value : Nat) : Option (Nat × Kind) :=
  let f := Format.double.split value
  match Format.double.kind f.exponent f.mantissa with
  | .zero => some (fmt.pack { sign := f.sign, exponent := 0, mantissa := 0 }, .zero)
  | .infinity => some (fmt.pack { sign := f.sign, exponent := fmt.expMax, mantissa := 0 }, .infinity)
  | .nan =>
    some (fmt.pack { sign := false, exponent := fmt.expMax, mantissa := 2 ^ (fmt.mantWidth - 1) }, .nan)
  | .normal => (encodeFinite fmt cap f.sign (magnitude f.exponent f.mantissa)).map fun w => (w, .normal)

/-- The response of an encoding: the word and its kind, or EncodeRange (R111, R249). -/
def State.respondEncoded (fmt : Format) (cap : Nat) (value : Nat) (s : State) : Result :=
  match encodeValue fmt cap value with
  | some (w, k) => s.respond (.word w k)
  | none => s.raise .encodeRange

/-- FENC.S (R116). -/
def execFencS (value : Nat) (s : State) : Result := s.respondEncoded Format.single s.params.FRAC_CAP_S value

/-- FENC.D (R117). -/
def execFencD (value : Nat) (s : State) : Result := s.respondEncoded Format.double s.params.FRAC_CAP_D value

/-! ### Decode -/

/-- The canonical binary64 NaN that decode delivers (R123). -/
def nanPattern : Nat := 0x7FF8000000000000

/-- A binary64 pattern with the given sign whose other 63 bits are `rest` (R14). -/
def signedPattern (sign : Bool) (rest : Nat) : Nat := sign.toNat * 2 ^ 63 + rest

/-- The binary64 pattern of a SINGLE triple of kind NORMAL, exponent field 0 included (R122, R123): always exact. -/
def deliverSingle (f : Fields) : Nat :=
  Format.double.pack { sign := f.sign, exponent := f.exponent + 896, mantissa := f.mantissa * 2 ^ 29 }

/-- The binary64 pattern of a DOUBLE triple of kind NORMAL (R123): the word itself when the exponent field is not 0;
else `(2^51 + m/2) × 2^-1074`, exact when `m` is even and one of the two neighbours when it is odd. -/
def deliverDouble (f : Fields) (upper : Bool) : Nat :=
  if f.exponent = 0 then
    if f.mantissa % 2 = 0 then signedPattern f.sign (2 ^ 51 + f.mantissa / 2)
    else signedPattern f.sign (2 ^ 51 + f.mantissa / 2 + upper.toNat)
  else Format.double.pack f

/-- `decode(fields)` (R120 to R123): the value as a binary64 pattern; `deliver` gives that of a NORMAL triple. -/
def decodeValue (fmt : Format) (deliver : Fields → Nat) (word : Nat) : Nat × Kind :=
  let f := fmt.split word
  match fmt.kind f.exponent f.mantissa with
  | .infinity => (Format.double.pack { sign := f.sign, exponent := 2047, mantissa := 0 }, .infinity)
  | .nan => (nanPattern, .nan)
  | .zero => (Format.double.pack { sign := f.sign, exponent := 0, mantissa := 0 }, .zero)
  | .normal => (deliver f, .normal)

/-- The response of a decoding (R125). -/
def State.respondDecoded (d : Nat × Kind) (s : State) : Result := s.respond (.word d.1 d.2)

/-- FDEC (R125): the length selects the format and any other length is a FormatError (R118); bits of the word at and
above the length are ignored (R119). -/
def execFdec (word : Nat) (len : Int) (s : State) : Result :=
  if len = 32 then s.respondDecoded (decodeValue Format.single deliverSingle (word % 2 ^ 32))
  else if len = 64 then
    s.respondDecoded
      (decodeValue Format.double
        (fun f => deliverDouble f (Config.anyUpperNeighbour s.draws (word % 2 ^ 64))) (word % 2 ^ 64))
  else s.raise .formatError

end Sys2Proof.Machine
end

