-- ==== Sys2Proof/Machine/MemoryPort.lean ====
section
/-! DEFINITION. The memory unit's commands (43_memory_port.md): READB, WRITEB, FILL, SEARCH, INSPECT, all on physical
addresses (20_memory.md R59). -/

namespace Sys2Proof.Machine

/-- A MEM command is performed when a memory is attached, and else refused with IllegalCommand (R81, R250). -/
def State.ifAttached (act : State → Result) (s : State) : Result :=
  if s.params.MEM_ATTACHED then act s else s.raise .illegalCommand

/-- The memory unit after READB of a valid address (R210, R42). -/
def MemUnit.afterRead (k addr : Nat) (u : MemUnit) : MemUnit :=
  { u with
    readCount := u.readCount + 1
    opLog :=
      appendLog u.opLog
        [{ type := .read, address := addr, oldValue := none, newValue := u.mem.read addr,
           timestamp := Config.anyTimestamp k }] }

/-- The memory unit after WRITEB of a byte to a valid address (R211, R42). -/
def MemUnit.afterWrite (k addr : Nat) (v : Byte) (u : MemUnit) : MemUnit :=
  { u with
    mem := u.mem.write addr v
    written := addAddress addr u.written
    writeCount := u.writeCount + 1
    opLog :=
      appendLog u.opLog
        [{ type := .write, address := addr, oldValue := some (u.mem.read addr), newValue := v,
           timestamp := Config.anyTimestamp k }] }

/-- The memory unit after a FILL of `count` addresses from `start` on (R212), its effect on the statistics free. -/
def MemUnit.afterFill (k start count : Nat) (v : Byte) (u : MemUnit) : MemUnit :=
  { (u.anyStatistics k).anyMembership k start count with mem := u.mem.fill start count v }

/-- READB (R210). -/
def execReadb (addr : Int) (s : State) : Result :=
  s.ifAttached fun s =>
    if validAddress addr then
      State.respond (.value (s.memUnit.mem.read addr.toNat).toNat)
        { s with memUnit := s.memUnit.afterRead s.draws addr.toNat }
    else s.raise .addressOutOfRange

/-- WRITEB (R211): the address is checked before the value. -/
def execWriteb (addr value : Int) (s : State) : Result :=
  s.ifAttached fun s =>
    if ¬ validAddress addr then s.raise .addressOutOfRange
    else if ¬ isByteValue value then s.raise .invalidByteValue
    else
      State.respond .done
        { s with memUnit := s.memUnit.afterWrite s.draws addr.toNat (byteOf value) }

/-- FILL (R212): the interval's order, then its ends, then the value; inclusive of both ends. -/
def execFill (startAddr endAddr value : Int) (s : State) : Result :=
  s.ifAttached fun s =>
    if startAddr > endAddr then s.raise .invalidInputError
    else if startAddr < 0 ∨ (memSize : Int) ≤ endAddr then s.raise .addressOutOfRange
    else if ¬ isByteValue value then s.raise .invalidByteValue
    else
      State.respond (.value (endAddr - startAddr + 1))
        { s with
          memUnit :=
            s.memUnit.afterFill s.draws startAddr.toNat (endAddr - startAddr + 1).toNat (byteOf value) }

/-- SEARCH (R213): every address that holds the value, ascending; `mem` is not changed, the statistics are free
(R230). -/
def execSearch (value : Int) (s : State) : Result :=
  s.ifAttached fun s =>
    if isByteValue value then
      let hits := s.memUnit.mem.search (byteOf value)
      State.respond (.valueRecord hits.length (.addresses hits))
        { s with memUnit := s.memUnit.scanned s.draws }
    else s.raise .formatError

/-- A multi-byte field of `n` bytes at `addr`: `N/A` when it would pass `MEM_SIZE` (R222). -/
def Memory.field (m : Memory) (addr n : Nat) (view : List Byte → Nat) : Option Nat :=
  if addr + n ≤ memSize then some (view (m.readBytes addr n)) else none

/-- `asciiString` (R221): up to 16 bytes and not past `MEM_SIZE`, stopping before the first zero byte. -/
def Memory.preview (m : Memory) (addr : Nat) : List Char :=
  ((m.readBytes addr (min 16 (memSize - addr))).takeWhile (fun b => b ≠ 0)).map previewChar

/-- The record of INSPECT (R215 to R222). -/
def Memory.inspect (m : Memory) (addr : Nat) : InspectRecord where
  byte := (m.read addr).toNat
  signedByte := sval 8 (m.read addr).toNat
  word_LE := m.field addr 2 littleEndian
  word_BE := m.field addr 2 bigEndian
  dword := m.field addr 4 littleEndian
  float32 := (m.field addr 4 littleEndian).map fun v => BitVec.ofNat 32 v
  asciiString := m.preview addr

/-- INSPECT (R215); `mem` is not changed, the statistics are free (R230). -/
def execInspect (addr : Int) (s : State) : Result :=
  s.ifAttached fun s =>
    if validAddress addr then
      State.respond (.record (.inspection (s.memUnit.mem.inspect addr.toNat)))
        { s with memUnit := s.memUnit.scanned s.draws }
    else s.raise .addressOutOfRange

end Sys2Proof.Machine
end

