-- ==== Sys2Proof/Machine/Stack.lean ====
section
/-! DEFINITION. The stack machine (42_stack_machine.md): PUSH, POP, PEEK, SRESET, ADD, SUB, MUL, DIV, MOD. -/

namespace Sys2Proof.Machine

/-- PUSH (R171); StackOverflow before CellRange (R256). -/
def execPush (value : Int) (s : State) : Result :=
  if s.scu.operandStack.length = s.params.MAX_STACK_SIZE then s.raise .stackOverflow
  else if cellFits s.params value then
    s.commitStack (s.scu.pushed s.params s.draws value) false .done
  else s.raise .cellRange

/-- POP (R172): the value is the operand stack's, never the mirror's (R63). -/
def execPop (s : State) : Result :=
  match s.scu.operandStack.reverse with
  | top :: below => s.commitStack (s.scu.popped s.params s.draws below.reverse) true (.value top)
  | [] => s.raise .stackUnderflow

/-- PEEK (R173): it writes nothing. -/
def execPeek (s : State) : Result :=
  match s.scu.operandStack.reverse with
  | top :: _ => s.respond (.value top)
  | [] => s.raise .stackUnderflow

/-- SRESET (R192): the SCU rows of R46 and nothing else; the memory keeps what the stack had mirrored (R273). -/
def execSreset (s : State) : Result :=
  State.respond .done { s with scu := Scu.cleared s.params s.draws }

/-- ADD (R176). -/
def execAdd (s : State) : Result := s.binaryOp .add

/-- SUB (R177). -/
def execSub (s : State) : Result := s.binaryOp .sub

/-- MUL (R178). -/
def execMul (s : State) : Result := s.binaryOp .mul

/-- DIV (R179). -/
def execDiv (s : State) : Result := s.binaryOp .div

/-- MOD (R180). -/
def execMod (s : State) : Result := s.binaryOp .mod

end Sys2Proof.Machine
end

