-- ==== Sys2Proof/Machine/Dispatch.lean ====
section
/-! DEFINITION. `exec`: one arm per command, each one call of its meaning. -/

namespace Sys2Proof.Machine

def exec (i : Instr) (s : State) : Host.Outcome State Fault Refusal :=
  match i with
  | .fencS value => Sys2Proof.Machine.execFencS value s
  | .fencD value => Sys2Proof.Machine.execFencD value s
  | .fdec word len => Sys2Proof.Machine.execFdec word len s
  | .binit m q bitWidth => Sys2Proof.Machine.execBinit m q bitWidth s
  | .bstep => Sys2Proof.Machine.execBstep s
  | .bresult => Sys2Proof.Machine.execBresult s
  | .bview viewStep => Sys2Proof.Machine.execBview viewStep s
  | .breset => Sys2Proof.Machine.execBreset s
  | .push value => Sys2Proof.Machine.execPush value s
  | .pop => Sys2Proof.Machine.execPop s
  | .peek => Sys2Proof.Machine.execPeek s
  | .sreset => Sys2Proof.Machine.execSreset s
  | .add => Sys2Proof.Machine.execAdd s
  | .sub => Sys2Proof.Machine.execSub s
  | .mul => Sys2Proof.Machine.execMul s
  | .div => Sys2Proof.Machine.execDiv s
  | .mod => Sys2Proof.Machine.execMod s
  | .readb addr => Sys2Proof.Machine.execReadb addr s
  | .writeb addr value => Sys2Proof.Machine.execWriteb addr value s
  | .fill startAddr endAddr value => Sys2Proof.Machine.execFill startAddr endAddr value s
  | .search value => Sys2Proof.Machine.execSearch value s
  | .inspect addr => Sys2Proof.Machine.execInspect addr s

end Sys2Proof.Machine
end

