-- ==== Sys2Proof/Machine/Step.lean ====
section
/-! DEFINITION. One step of the machine: the next input of the host (30_encoding.md R85, R86). -/

namespace Sys2Proof.Machine

/-- One step. With no input the machine waits (00_scope.md R7, 70_reset_and_hazards.md R271); `rst` resets it (R270);
a command is accepted and performed (R86), and a reserved word fails with IllegalCommand (R81, R250). -/
def step (s : State) : Host.Outcome State Fault Refusal :=
  match s.inputs with
  | [] => .next s
  | .rst :: rest => .next (s.accept rest).hardwareReset
  | .command c :: rest =>
    match decode c with
    | .ok i => exec i (s.accept rest)
    | .error _ => (s.accept rest).raise .illegalCommand

/-- `s` with a command placed as the host's next input: the word whose table bits are `w`, its operand ports at 0. -/
def State.withFetchWord (s : State) (nbits w : Nat) : State :=
  { s with inputs := .command (tableCommand (w % 2 ^ nbits)) :: s.inputs }

end Sys2Proof.Machine
end

