-- ==== Sys2Proof/Safety.lean ====
section
/-! DEFINITION. What counts as a safe step and as a consistent state, in the terms the statements use: the invariants
the spec states of each unit (10_state.md R29, R31, R32, R33, R38, R40, R42; 42_stack_machine.md R194). -/

namespace Sys2Proof.Machine

/-- A step is safe when it answers a next state: "There is no crash/fatal tier" (R254). -/
def Safe (o : Result) : Prop := ∃ t, o = .next t

/-! ### The Booth multiplier -/

/-- The record that follows `r` in the history of a multiplication of width `w` with multiplicand `m` (R146). -/
def BoothRecord.next (w m : Nat) (r : BoothRecord) : BoothRecord :=
  Bmu.nextRecord
    { phase := .stepping, W := w, M := m, A := r.A, Q := r.Q, Q1 := r.Q1, currentStep := r.step, history := [] }

/-- The invariants of the multiplier when a multiplication exists (R23 to R31). -/
structure BoothRunning (p : Params) (b : Bmu) : Prop where
  /-- 1 ≤ `W` ≤ `W_MAX` (R23). -/
  width_pos : 1 ≤ b.W
  width_le : b.W ≤ p.W_MAX
  /-- `M`, `A` and `Q` are words of `W` bits (R24 to R26). -/
  word_M : b.M < 2 ^ b.W
  word_A : b.A < 2 ^ b.W
  word_Q : b.Q < 2 ^ b.W
  /-- `currentStep` ∈ [0, `W`] (R28). -/
  step_le : b.currentStep ≤ b.W
  /-- COMPLETE exactly when `currentStep = W` (R28, R31). -/
  complete_iff : b.phase = .complete ↔ b.currentStep = b.W
  /-- `historyLength = currentStep + 1` (R29). -/
  history_length : b.history.length = b.currentStep + 1
  /-- The history begins with the INIT record (R30, R142). -/
  first_record : ∃ r, b.history.head? = some r ∧ r.step = 0 ∧ r.operation = .init ∧ r.A = 0 ∧ r.Q1 = false ∧
    r.Q < 2 ^ b.W
  /-- Each further record is what the step on the record before it appends (R146). -/
  later_records : ∀ k r r', b.history[k]? = some r → b.history[k + 1]? = some r' → r' = r.next b.W b.M
  /-- The last record shows the live registers (R31). -/
  last_record : ∃ r, b.history.getLast? = some r ∧ r.step = b.currentStep ∧ r.A = b.A ∧ r.Q = b.Q ∧ r.Q1 = b.Q1

/-- In IDLE there is no history (R29); else the invariants of a multiplication hold. -/
def Bmu.Consistent (p : Params) (b : Bmu) : Prop :=
  (b.phase = .idle → b.history = []) ∧ (b.phase ≠ .idle → BoothRunning p b)

/-- The multiplicand the recurrence multiplies by (R153): the signed reading of `M`, but `2^(W-1)` for
`M = -2^(W-1)`, where `0 - M` wraps back to `M`. -/
def Bmu.effectiveMultiplicand (b : Bmu) : Int :=
  if b.M = 2 ^ (b.W - 1) then 2 ^ (b.W - 1) else sval b.W b.M

/-- After `k` steps `A` and the top `k` bits of `Q` hold the product of the effective multiplicand with the signed
reading of the multiplier's low `k` bits, the rest of `Q` holds the multiplier's remaining bits, and `Q1` is the last
bit examined. The multiplier is the `Q` of the INIT record. -/
def Bmu.PartialProduct (b : Bmu) : Prop :=
  ∀ r, b.history.head? = some r →
    sval b.W b.A * 2 ^ b.currentStep + ((b.Q / 2 ^ (b.W - b.currentStep) : Nat) : Int) =
        b.effectiveMultiplicand * sval b.currentStep (r.Q % 2 ^ b.currentStep) ∧
      b.Q % 2 ^ (b.W - b.currentStep) = r.Q / 2 ^ b.currentStep ∧
      b.Q1 = (decide (0 < b.currentStep) && r.Q.testBit (b.currentStep - 1))

/-! ### The stack machine -/

/-- The invariants of the stack machine (R32, R33, R194, R197). -/
structure ScuConsistent (p : Params) (u : Scu) : Prop where
  /-- `SP + len == MAX_STACK_SIZE` (R194). -/
  sp_length : u.SP + u.operandStack.length = p.MAX_STACK_SIZE
  /-- `len ≤ MAX_STACK_SIZE` (R32). -/
  length_le : u.operandStack.length ≤ p.MAX_STACK_SIZE
  /-- Every element, SP, and AX to DX fit `CELL_BITS` (R6, R197). -/
  elements_fit : ∀ v ∈ u.operandStack, cellFits p v = true
  sp_fits : cellFits p u.SP = true
  ax_fits : cellFits p u.AX = true
  bx_fits : cellFits p u.BX = true
  cx_fits : cellFits p u.CX = true
  dx_fits : cellFits p u.DX = true

/-! ### The memory unit -/

/-- A list of addresses of the memory, strictly rising from `start` on: a set in canonical form. -/
def addressSet (start : Nat) : List Nat → Bool
  | [] => true
  | a :: rest => decide (start ≤ a ∧ a < memSize) && addressSet (a + 1) rest

/-- The invariants of the memory unit (R38, R40, R42) and the constraint on SS (R6, R59). -/
structure MemConsistent (u : MemUnit) : Prop where
  mem_wf : u.mem.wf = true
  written_set : addressSet 0 u.written = true
  log_capped : u.opLog.length ≤ logCap
  stack_segment : u.SS.toNat * 16 + 0xFFFF < memSize

/-! ### The machine -/

/-- The consistent states: an admitted configuration (R6) and the invariants of the three units. -/
structure State.Consistent (s : State) : Prop where
  params_admitted : s.params.admitted = true
  bmu : s.bmu.Consistent s.params
  scu : ScuConsistent s.params s.scu
  memUnit : MemConsistent s.memUnit

end Sys2Proof.Machine
end

