-- ==== Sys2Proof/Certificates/Slice0/Obligations.lean ====
section
/-! DEFINITION. The statements for the provers, and the few words they are written in. Results, words and flags are
written out from the spec's rules; where the spec leaves a value free (`any`) the statement says nothing of it. -/

namespace Sys2Proof.Claims

open Sys2Proof.Machine

/-- A response with status OK and these results. -/
def ok (res0 res1 : Option Int) (rec : Option ResultRecord) : Response :=
  { status := .ok, res0 := res0, res1 := res1, resRec := rec }

/-- A response with a non-zero status: no results (R253). -/
def failed (e : Status) : Response := { status := e, res0 := none, res1 := none, resRec := none }

/-- The state with nothing changed but the response. -/
def answered (s : State) (r : Response) : State := { s with response := some r }

/-- The status of the response presented. -/
def statusOf (t : State) : Option Status := t.response.map Response.status

/-- The codes of R241. -/
def statusCode : Status → Nat
  | .ok => 0
  | .invalidInputError => 1
  | .formatError => 2
  | .stackOverflow => 3
  | .stackUnderflow => 4
  | .divisionByZero => 5
  | .addressOutOfRange => 6
  | .invalidByteValue => 7
  | .encodeRange => 8
  | .illegalCommand => 9
  | .cellRange => 10
  | .notReady => 11

/-- No element of the three units changes. -/
def unitsUnchanged (s t : State) : Prop := t.bmu = s.bmu ∧ t.scu = s.scu ∧ t.memUnit = s.memUnit

/-- The SCU rows of the table of reset values (R46); the header of the trace is free. -/
def scuAtReset (p : Params) (u : Scu) : Prop :=
  u.operandStack = [] ∧ u.SP = p.MAX_STACK_SIZE ∧ u.AX = 0 ∧ u.BX = 0 ∧ u.CX = 0 ∧ u.DX = 0 ∧
    u.flags = { ZF := false, CF := false, SF := false, OF := false, PF := false, AF := false }

/-- A command that answers changes no part of the machine but `scu`, `memUnit` and `response`, and of `memUnit` no
segment register. -/
def stackFrame (s t : State) : Prop :=
  t.bmu = s.bmu ∧ t.params = s.params ∧ t.inputs = s.inputs ∧ t.draws = s.draws ∧
    t.memUnit.CS = s.memUnit.CS ∧ t.memUnit.DS = s.memUnit.DS ∧ t.memUnit.SS = s.memUnit.SS ∧
    t.memUnit.ES = s.memUnit.ES ∧ (s.params.MEM_ATTACHED = false → t.memUnit = s.memUnit)

/-- A command that answers changes no part of the machine but `memUnit` and `response`, and of `memUnit` no segment
register. -/
def memFrame (s t : State) : Prop :=
  t.bmu = s.bmu ∧ t.scu = s.scu ∧ t.params = s.params ∧ t.inputs = s.inputs ∧ t.draws = s.draws ∧
    t.memUnit.CS = s.memUnit.CS ∧ t.memUnit.DS = s.memUnit.DS ∧ t.memUnit.SS = s.memUnit.SS ∧
    t.memUnit.ES = s.memUnit.ES

/-- The projection of `slots` slots stays in the memory, if there is one (R59). -/
def projectable (s : State) (slots : Nat) : Prop :=
  s.params.MEM_ATTACHED = true → s.memUnit.SS.toNat * 16 + 0xFFFF < memSize ∧ slots ≤ 32768

/-- `v` fits a stack element (R197). -/
def fits (s : State) (v : Int) : Prop :=
  ∀ n, s.params.CELL_BITS = some n → -2 ^ (n - 1) ≤ v ∧ v ≤ 2 ^ (n - 1) - 1

/-- The last 50 entries of a log with one more (R42). -/
def logged (log : List LogEntry) (e : LogEntry) : List LogEntry := (log ++ [e]).drop (log.length + 1 - 50)

/-- The command of an operator. -/
def instrOf : BinOp → Instr
  | .add => .add
  | .sub => .sub
  | .mul => .mul
  | .div => .div
  | .mod => .mod

/-- The quotient of R181. -/
def quotient (round : DivRound) (a b : Int) : Int :=
  if b ∣ a ∨ 0 ≤ a * b ∨ round = .trunc then a.tdiv b else a.fdiv b

/-- `f_op(a, b)` (R176 to R182). -/
def resultOf (round : DivRound) (a b : Int) : BinOp → Int
  | .add => a + b
  | .sub => a - b
  | .mul => a * b
  | .div => quotient round a b
  | .mod => a - b * quotient round a b

/-- The number of ones among the low eight bits of a natural number. -/
def lowOnes (n : Nat) : Nat :=
  n % 2 + n / 2 % 2 + n / 4 % 2 + n / 8 % 2 + n / 16 % 2 + n / 32 % 2 + n / 64 % 2 + n / 128 % 2

/-- The stack-changing commands (R60). -/
def stackChanging : Instr → Bool
  | .push _ | .pop | .add | .sub | .mul | .div | .mod => true
  | _ => false

/-- The slots a successful stack-changing command may store to, given the stack it leaves (R60, R61). -/
def slotCount (i : Instr) (t : State) : Nat :=
  match i with
  | .push _ => t.scu.operandStack.length
  | _ => t.scu.operandStack.length + 1

/-- The pattern with a sign, an 11-bit exponent field and a 52-bit fraction (R14). -/
def binary64 (sign : Bool) (e f : Nat) : Nat := sign.toNat * 2 ^ 63 + e * 2 ^ 52 + f

/-- The word with a sign, an 8-bit exponent field and a 23-bit mantissa (R101). -/
def binary32 (sign : Bool) (e m : Nat) : Nat := sign.toNat * 2 ^ 31 + e * 2 ^ 23 + m

/-- `n` commands of one kind, one after the other, stopping at the first that does not answer. -/
def repeated (i : Instr) : Nat → State → Result
  | 0, s => .next s
  | n + 1, s =>
    match exec i s with
    | .next t => repeated i n t
    | o => o

end Sys2Proof.Claims

open Sys2Proof Sys2Proof.Machine

/-! ### Encoding and steps -/

/-- Decode and encode agree on every well-formed command, with every operand at every value (R77, R78, R80). -/
def Obligations.DecodeEncodeRoundTrip : Prop :=
  ∀ i : Instr, i.wellFormed = true → decode (encode i) = .ok i

/-- A command word has at most one meaning, and the decoder answers well-formed commands only (R77, R80, R81). -/
def Obligations.DecodedCommandHasItsWord : Prop :=
  ∀ (c : Command) (i : Instr), decode c = .ok i → opcode i = c.op ∧ i.wellFormed = true

/-- The 22 words of the opcode map, each with operands on the ports its row names (R80); a bit-pattern operand is the
low 64 bits of its port, `p` here (R78). That a negative integer on such a port reads as its two's-complement low 64
bits is the model's choice (notes/assumptions/20.md). -/
def Obligations.OpcodeMapWords : Prop :=
  ∀ (x y z : Int) (p : Nat), x % 2 ^ 64 = p →
    decode ⟨0x00#8, x, y, z⟩ = .ok (.fencS p) ∧ decode ⟨0x01#8, x, y, z⟩ = .ok (.fencD p) ∧
    decode ⟨0x02#8, x, y, z⟩ = .ok (.fdec p y) ∧ decode ⟨0x10#8, x, y, z⟩ = .ok (.binit x y z) ∧
    decode ⟨0x11#8, x, y, z⟩ = .ok .bstep ∧ decode ⟨0x12#8, x, y, z⟩ = .ok .bresult ∧
    decode ⟨0x13#8, x, y, z⟩ = .ok (.bview x) ∧ decode ⟨0x14#8, x, y, z⟩ = .ok .breset ∧
    decode ⟨0x20#8, x, y, z⟩ = .ok (.push x) ∧ decode ⟨0x21#8, x, y, z⟩ = .ok .pop ∧
    decode ⟨0x22#8, x, y, z⟩ = .ok .peek ∧ decode ⟨0x23#8, x, y, z⟩ = .ok .sreset ∧
    decode ⟨0x28#8, x, y, z⟩ = .ok .add ∧ decode ⟨0x29#8, x, y, z⟩ = .ok .sub ∧
    decode ⟨0x2A#8, x, y, z⟩ = .ok .mul ∧ decode ⟨0x2B#8, x, y, z⟩ = .ok .div ∧
    decode ⟨0x2C#8, x, y, z⟩ = .ok .mod ∧ decode ⟨0x30#8, x, y, z⟩ = .ok (.readb x) ∧
    decode ⟨0x31#8, x, y, z⟩ = .ok (.writeb x y) ∧ decode ⟨0x32#8, x, y, z⟩ = .ok (.fill x y z) ∧
    decode ⟨0x33#8, x, y, z⟩ = .ok (.search x) ∧ decode ⟨0x34#8, x, y, z⟩ = .ok (.inspect x)

/-- A step runs the decoded command: the host's next command is accepted, the index of the free values advances, and
what follows is `exec` of the command (R85, R86). -/
def Obligations.StepRunsDecodedCommand : Prop :=
  ∀ (s : State) (c : Command) (rest : List HostInput) (i : Instr),
    s.inputs = .command c :: rest → decode c = .ok i →
      step s = exec i { s with inputs := rest, draws := s.draws + 1 }

/-- A reserved command word, and a MEM word when no memory is attached, changes no state and answers IllegalCommand,
whatever the operand ports carry (R81, R250). -/
def Obligations.ReservedWordsAnswerIllegalCommand : Prop :=
  ∀ (s : State) (c : Command) (rest : List HostInput), s.inputs = .command c :: rest →
    ((0x03 ≤ c.op.toNat ∧ c.op.toNat ≤ 0x0F) ∨ (0x15 ≤ c.op.toNat ∧ c.op.toNat ≤ 0x1F) ∨
      (0x24 ≤ c.op.toNat ∧ c.op.toNat ≤ 0x27) ∨ (0x2D ≤ c.op.toNat ∧ c.op.toNat ≤ 0x2F) ∨
      (0x35 ≤ c.op.toNat ∧ c.op.toNat ≤ 0x3F) ∨ (0x40 ≤ c.op.toNat ∧ c.op.toNat ≤ 0xFF) ∨
      (s.params.MEM_ATTACHED = false ∧ 0x30 ≤ c.op.toNat ∧ c.op.toNat ≤ 0x34)) →
    step s =
      .next { s with
        inputs := rest
        draws := s.draws + 1
        response := some (Claims.failed .illegalCommand) }

/-! ### Reset and the whole machine -/

/-- The reset values (R46, R270, R271): after hardware reset every element that the spec gives a value has it, whatever
the state before; SRESET restores the SCU rows only and BRESET the BMU rows only. With nothing to do the machine waits
(R7, R271): that a step then changes nothing, and that `rst` is an element of `inputs`, is the model's choice
(notes/assumptions/3.md), as is `response`, which `rst` clears (notes/assumptions/4.md). -/
def Obligations.HardwareResetState : Prop :=
  (∀ (s : State) (rest : List HostInput), s.inputs = .rst :: rest →
    ∃ t, step s = .next t ∧ t.bmu.phase = .idle ∧ t.bmu.history = [] ∧ Claims.scuAtReset s.params t.scu ∧
      (∀ a, t.memUnit.mem.read a = 0) ∧ t.memUnit.CS = s.params.SEG_RESET_CS ∧
      t.memUnit.DS = s.params.SEG_RESET_DS ∧ t.memUnit.SS = s.params.SEG_RESET_SS ∧
      t.memUnit.ES = s.params.SEG_RESET_ES ∧ t.memUnit.written = [] ∧ t.memUnit.opLog = [] ∧
      t.memUnit.readCount = 0 ∧ t.memUnit.writeCount = 0 ∧ t.response = none ∧ t.inputs = rest ∧
      t.params = s.params) ∧
  (∀ s t : State, exec .sreset s = .next t →
    Claims.scuAtReset s.params t.scu ∧ t.bmu = s.bmu ∧ t.memUnit = s.memUnit) ∧
  (∀ s t : State, exec .breset s = .next t →
    t.bmu.phase = .idle ∧ t.bmu.history = [] ∧ t.scu = s.scu ∧ t.memUnit = s.memUnit) ∧
  ∀ s : State, s.inputs = [] → step s = .next s

/-- The state after reset is consistent. It rests on the model's choice of parameters at reset
(notes/assumptions/1.md). -/
def Obligations.ResetIsConsistent : Prop := State.reset.Consistent

/-- The reset state holds a partial product trivially: there is no multiplication. -/
def Obligations.ResetHoldsPartialProduct : Prop :=
  State.reset.bmu.PartialProduct ∧ State.reset.bmu.history = []

/-- Every step from a consistent state leaves a consistent state: the configuration, the multiplier's record of its
steps, the stack's bookkeeping and the memory's canonical form (R29, R31, R32, R33, R38, R40, R42). -/
def Obligations.StepKeepsConsistency : Prop :=
  ∀ s t : State, s.Consistent → step s = .next t → t.Consistent

/-- The hardware never stops: from a consistent state every step answers, whatever the host drives (R254, R275). -/
def Obligations.StepAlwaysAnswers : Prop :=
  ∀ s : State, s.Consistent → Safe (step s)

/-- After every step, successful or not, `SP + len == MAX_STACK_SIZE` (R194). -/
def Obligations.StepKeepsStackPointer : Prop :=
  ∀ s t : State, s.scu.SP + s.scu.operandStack.length = s.params.MAX_STACK_SIZE → step s = .next t →
    t.scu.SP + t.scu.operandStack.length = t.params.MAX_STACK_SIZE

/-- A command that fails changes nothing but the response, which carries the status's code and no result (R253). -/
def Obligations.FailingCommandChangesNothing : Prop :=
  ∀ (i : Instr) (s t : State) (e : Status), exec i s = .next t → Claims.statusOf t = some e → e ≠ .ok →
    t = Claims.answered s (Claims.failed e) ∧ t.rspStatus.map BitVec.toNat = some (Claims.statusCode e)

/-- Only a successful ADD, SUB, MUL, DIV or MOD, and SRESET, change a flag: R189, which the spec marks as its
inference from R170 to R174, and R192. -/
def Obligations.OnlyArithmeticWritesFlags : Prop :=
  ∀ (i : Instr) (s t : State), exec i s = .next t →
    t.scu.flags = s.scu.flags ∨ i = .sreset ∨
      (i ∈ [Instr.add, .sub, .mul, .div, .mod] ∧ Claims.statusOf t = some .ok)

/-- No step but a hardware reset changes a segment register, and none changes a parameter (R39, R6). -/
def Obligations.NoCommandWritesSegmentRegisters : Prop :=
  ∀ s t : State, step s = .next t →
    t.params = s.params ∧
      (s.inputs.head? ≠ some .rst →
        t.memUnit.CS = s.memUnit.CS ∧ t.memUnit.DS = s.memUnit.DS ∧ t.memUnit.SS = s.memUnit.SS ∧
          t.memUnit.ES = s.memUnit.ES)

/-- No unit touches another but for the projection: FPC commands change nothing but the response, BMU commands only
the multiplier, SCU commands leave the multiplier, MEM commands leave the multiplier and the stack machine (R154,
R280). -/
def Obligations.UnitsAreIsolated : Prop :=
  ∀ (i : Instr) (s t : State), exec i s = .next t →
    ((opcode i).toNat / 16 = 0 → ∃ r, t = Claims.answered s r) ∧
    ((opcode i).toNat / 16 = 1 → t.scu = s.scu ∧ t.memUnit = s.memUnit) ∧
    ((opcode i).toNat / 16 = 2 → t.bmu = s.bmu) ∧
    ((opcode i).toNat / 16 = 3 → t.bmu = s.bmu ∧ t.scu = s.scu)

/-- Only the commands that store reach the memory to write it (R53): after any other command `mem` is the same, and no
command but WRITEB, FILL and the stack-changing ones changes a byte. -/
def Obligations.OnlyStoringCommandsWriteMemory : Prop :=
  ∀ (i : Instr) (s t : State), exec i s = .next t → Claims.stackChanging i = false →
    (¬ ∃ a v, i = .writeb a v) → (¬ ∃ a b v, i = .fill a b v) → t.memUnit.mem = s.memUnit.mem

/-- The Booth history and the instruction trace are append-only (R29, R36): a command leaves them as they are or adds
at the end, but for BINIT and BRESET, which begin or discard a history, and SRESET, which clears the trace. -/
def Obligations.HistoryAndTraceAppendOnly : Prop :=
  ∀ (i : Instr) (s t : State), exec i s = .next t →
    ((¬ ∃ m q w, i = .binit m q w) → i ≠ .breset → s.bmu.history <+: t.bmu.history) ∧
    (i ≠ .sreset → s.scu.instructionTrace <+: t.scu.instructionTrace)

/-- The FPC answers from its operands alone (R21): two machines with the same caps and the same index of free values
answer alike, whatever else they hold. -/
def Obligations.FpcAnswersFromOperands : Prop :=
  ∀ (i : Instr) (s₁ s₂ t₁ t₂ : State), (opcode i).toNat / 16 = 0 →
    s₁.params.FRAC_CAP_S = s₂.params.FRAC_CAP_S → s₁.params.FRAC_CAP_D = s₂.params.FRAC_CAP_D →
    s₁.draws = s₂.draws → exec i s₁ = .next t₁ → exec i s₂ = .next t₂ → t₁.response = t₂.response

/-- The operand stack is the master and the memory its mirror (R63): whatever bytes the memory holds, a stack command
leaves the same stack machine and gives the same response. AX to DX and the trace lines, which R34, R190 and R191 leave
free, agree in the two runs by the model's choice: both draw the same free values (notes/assumptions/5.md). -/
def Obligations.StackIsMaster : Prop :=
  ∀ (i : Instr) (s t : State) (m : Memory), (opcode i).toNat / 16 = 2 → exec i s = .next t →
    ∃ t', exec i { s with memUnit := { s.memUnit with mem := m } } = .next t' ∧ t'.scu = t.scu ∧
      t'.response = t.response

/-! ### Errors: exactly when -/

/-- Every command answers exactly the stack errors of its rule (R244, R245, R246, R251): StackOverflow by PUSH on a
full stack, StackUnderflow by POP and PEEK on an empty stack and by an operation on fewer than two elements,
DivisionByZero by DIV and MOD with a right operand 0, CellRange by a value outside a finite `CELL_BITS`. -/
def Obligations.StackErrorsExactlyWhen : Prop :=
  ∀ (i : Instr) (s t : State), exec i s = .next t →
    (Claims.statusOf t = some .stackOverflow ↔
      ∃ v, i = .push v ∧ s.scu.operandStack.length = s.params.MAX_STACK_SIZE) ∧
    (Claims.statusOf t = some .stackUnderflow ↔
      (i ∈ [Instr.pop, .peek] ∧ s.scu.operandStack = []) ∨
        (i ∈ [Instr.add, .sub, .mul, .div, .mod] ∧ s.scu.operandStack.length < 2)) ∧
    (Claims.statusOf t = some .divisionByZero ↔
      i ∈ [Instr.div, .mod] ∧ 2 ≤ s.scu.operandStack.length ∧ s.scu.operandStack.getLast? = some 0) ∧
    (Claims.statusOf t = some .cellRange ↔
      (∃ v, i = .push v ∧ s.scu.operandStack.length ≠ s.params.MAX_STACK_SIZE ∧ ¬ Claims.fits s v) ∨
        ∃ op below a b, i = Claims.instrOf op ∧ s.scu.operandStack = below ++ [a, b] ∧
          ¬ (op ∈ [BinOp.div, .mod] ∧ b = 0) ∧
          ¬ Claims.fits s (Claims.resultOf s.params.DIV_ROUND a b op)) ∧
    (Claims.statusOf t ∈ [some .stackOverflow, some .stackUnderflow, some .divisionByZero, some .cellRange] →
      Claims.unitsUnchanged s t)

/-- Every command answers exactly the address and byte errors of its rule, in the order of R256 (R247, R248). -/
def Obligations.MemoryErrorsExactlyWhen : Prop :=
  ∀ (i : Instr) (s t : State), exec i s = .next t →
    (Claims.statusOf t = some .addressOutOfRange ↔
      s.params.MEM_ATTACHED = true ∧
        ((∃ a, (i = .readb a ∨ (∃ v, i = .writeb a v) ∨ i = .inspect a) ∧ (a < 0 ∨ 0x100000 ≤ a)) ∨
          ∃ a b v, i = .fill a b v ∧ a ≤ b ∧ (a < 0 ∨ 0x100000 ≤ b))) ∧
    (Claims.statusOf t = some .invalidByteValue ↔
      s.params.MEM_ATTACHED = true ∧
        ((∃ a v, i = .writeb a v ∧ 0 ≤ a ∧ a < 0x100000 ∧ (v < 0 ∨ 255 < v)) ∨
          ∃ a b v, i = .fill a b v ∧ a ≤ b ∧ 0 ≤ a ∧ b < 0x100000 ∧ (v < 0 ∨ 255 < v))) ∧
    (Claims.statusOf t ∈ [some .addressOutOfRange, some .invalidByteValue] → Claims.unitsUnchanged s t)

/-- Every command answers exactly the operand errors, NotReady, EncodeRange and IllegalCommand of its rule (R242, R243,
R249, R250, R252). -/
def Obligations.OperandErrorsExactlyWhen : Prop :=
  ∀ (i : Instr) (s t : State), exec i s = .next t →
    (Claims.statusOf t = some .invalidInputError ↔
      (∃ m q w, i = .binit m q w ∧
        (w < 1 ∨ s.params.W_MAX < w ∨ m < -2 ^ (w.toNat - 1) ∨ 2 ^ (w.toNat - 1) - 1 < m ∨
          q < -2 ^ (w.toNat - 1) ∨ 2 ^ (w.toNat - 1) - 1 < q)) ∨
      (∃ k, i = .bview k ∧ s.bmu.phase ≠ .idle ∧ (k < 0 ∨ (s.bmu.history.length : Int) - 1 < k)) ∨
      ∃ a b v, i = .fill a b v ∧ s.params.MEM_ATTACHED = true ∧ b < a) ∧
    (Claims.statusOf t = some .formatError ↔
      (∃ w len, i = .fdec w len ∧ len ≠ 32 ∧ len ≠ 64) ∨
        ∃ v, i = .search v ∧ s.params.MEM_ATTACHED = true ∧ (v < 0 ∨ 255 < v)) ∧
    (Claims.statusOf t = some .notReady ↔
      ((i = .bstep ∨ ∃ k, i = .bview k) ∧ s.bmu.phase = .idle) ∨ (i = .bresult ∧ s.bmu.phase ≠ .complete)) ∧
    (Claims.statusOf t = some .illegalCommand ↔ (opcode i).toNat / 16 = 3 ∧ s.params.MEM_ATTACHED = false) ∧
    (Claims.statusOf t = some .encodeRange → ∃ v, i = .fencS v ∨ i = .fencD v) ∧
    (Claims.statusOf t ∈ [some .invalidInputError, some .formatError] → Claims.unitsUnchanged s t)

/-! ### FPC -/

/-- FENC.S and FENC.D of a signed zero (R104) and of any NaN (R106). -/
def Obligations.EncodeZeroAndNaN : Prop :=
  ∀ (s : State) (sign : Bool),
    exec (.fencS (Claims.binary64 sign 0 0)) s =
      .next (Claims.answered s (Claims.ok (some (Claims.binary32 sign 0 0)) (some 1) none)) ∧
    exec (.fencD (Claims.binary64 sign 0 0)) s =
      .next (Claims.answered s (Claims.ok (some (Claims.binary64 sign 0 0)) (some 1) none)) ∧
    ∀ f, 0 < f → f < 2 ^ 52 →
      exec (.fencS (Claims.binary64 sign 2047 f)) s =
        .next (Claims.answered s (Claims.ok (some 0x7FC00000) (some 3) none)) ∧
      exec (.fencD (Claims.binary64 sign 2047 f)) s =
        .next (Claims.answered s (Claims.ok (some 0x7FF8000000000000) (some 3) none))

/-- FENC.S and FENC.D of an infinity keep its sign; for minus infinity that is the spec's inference in R105 from R120
and the invariant of the fields. -/
def Obligations.EncodeInfinity : Prop :=
  ∀ (s : State) (sign : Bool),
    exec (.fencS (Claims.binary64 sign 2047 0)) s =
      .next (Claims.answered s (Claims.ok (some (Claims.binary32 sign 255 0)) (some 2) none)) ∧
    exec (.fencD (Claims.binary64 sign 2047 0)) s =
      .next (Claims.answered s (Claims.ok (some (Claims.binary64 sign 2047 0)) (some 2) none))

/-- The capped bit-by-bit expansion, normalisation and truncation of R108 to R111 gives FENC.S the bits of the input:
exponent field `E64 - 896` and the top 23 fraction bits, exactly for 897 ≤ `E64` ≤ 1150: R113, which the spec marks as
its inference from R112, and R114. -/
def Obligations.EncodeSingleTruncates : Prop :=
  ∀ (s : State) (sign : Bool) (e f : Nat), e < 2047 → f < 2 ^ 52 → ¬ (e = 0 ∧ f = 0) →
    149 ≤ s.params.FRAC_CAP_S →
    exec (.fencS (Claims.binary64 sign e f)) s =
      .next (Claims.answered s
        (if 897 ≤ e ∧ e ≤ 1150 then
          Claims.ok (some (Claims.binary32 sign (e - 896) (f / 2 ^ 29))) (some 0) none
        else Claims.failed .encodeRange))

/-- The same expansion gives FENC.D its input pattern, unchanged, for every normal binary64, and refuses exactly the
subnormals: R113, which the spec marks as its inference from R112, and R117. -/
def Obligations.EncodeDoubleKeepsPattern : Prop :=
  ∀ (s : State) (sign : Bool) (e f : Nat), e < 2047 → f < 2 ^ 52 → ¬ (e = 0 ∧ f = 0) →
    1074 ≤ s.params.FRAC_CAP_D →
    exec (.fencD (Claims.binary64 sign e f)) s =
      .next (Claims.answered s
        (if 1 ≤ e then Claims.ok (some (Claims.binary64 sign e f)) (some 0) none
        else Claims.failed .encodeRange))

/-- FDEC with `LEN` = 32 (R119 to R124): every row of R123's table, the hidden 1 applied to exponent field 0 too; bits
of the word at and above bit 32 are ignored. R123 marks its table as the spec's inference from R121. -/
def Obligations.DecodeSingleDelivery : Prop :=
  ∀ (s : State) (sign : Bool) (e m high : Nat), e < 256 → m < 2 ^ 23 →
    exec (.fdec (high * 2 ^ 32 + Claims.binary32 sign e m) 32) s =
      .next (Claims.answered s
        (if e = 255 ∧ m = 0 then Claims.ok (some (Claims.binary64 sign 2047 0)) (some 2) none
        else if e = 255 then Claims.ok (some 0x7FF8000000000000) (some 3) none
        else if e = 0 ∧ m = 0 then Claims.ok (some (Claims.binary64 sign 0 0)) (some 1) none
        else Claims.ok (some (Claims.binary64 sign (e + 896) (m * 2 ^ 29))) (some 0) none))

/-- FDEC with `LEN` = 64 (R119 to R124): every row of R123's table; in the inexact band the result is one of the two
neighbours, and the statement does not say which. R123 marks its table as the spec's inference from R121. -/
def Obligations.DecodeDoubleDelivery : Prop :=
  ∀ (s : State) (sign : Bool) (e m high : Nat), e < 2048 → m < 2 ^ 52 →
    ∃ up : Nat, up ≤ 1 ∧
    exec (.fdec (high * 2 ^ 64 + Claims.binary64 sign e m) 64) s =
      .next (Claims.answered s
        (if e = 2047 ∧ m = 0 then Claims.ok (some (Claims.binary64 sign 2047 0)) (some 2) none
        else if e = 2047 then Claims.ok (some 0x7FF8000000000000) (some 3) none
        else if e = 0 ∧ m = 0 then Claims.ok (some (Claims.binary64 sign 0 0)) (some 1) none
        else if 1 ≤ e then Claims.ok (some (Claims.binary64 sign e m)) (some 0) none
        else if m % 2 = 0 then Claims.ok (some (Claims.binary64 sign 0 (2 ^ 51 + m / 2))) (some 0) none
        else Claims.ok (some (Claims.binary64 sign 0 (2 ^ 51 + (m - 1) / 2 + up))) (some 0) none))

/-- FDEC of any other length raises FormatError and does not look at the word (R118). -/
def Obligations.DecodeLengthCheck : Prop :=
  ∀ (s : State) (word : Nat) (len : Int), len ≠ 32 → len ≠ 64 →
    exec (.fdec word len) s = .next (Claims.answered s (Claims.failed .formatError))

/-- FENC.S and FDEC 32 round trip (R126, R127): an accepted value comes back with its low 29 fraction bits cleared; a
NORMAL word with exponent field ≥ 1 comes back as itself; the value of one with exponent field 0 is refused. The spec
marks both rules as its inferences. -/
def Obligations.SingleRoundTrips : Prop :=
  ∀ (s : State) (sign : Bool), 149 ≤ s.params.FRAC_CAP_S →
    (∀ e f, 897 ≤ e → e ≤ 1150 → f < 2 ^ 52 →
      ∃ w : Nat, exec (.fencS (Claims.binary64 sign e f)) s =
          .next (Claims.answered s (Claims.ok (some w) (some 0) none)) ∧
        exec (.fdec w 32) s =
          .next (Claims.answered s
            (Claims.ok (some (Claims.binary64 sign e (f / 2 ^ 29 * 2 ^ 29))) (some 0) none))) ∧
    (∀ e m, e ≤ 254 → m < 2 ^ 23 → ¬ (e = 0 ∧ m = 0) →
      ∃ v : Nat, exec (.fdec (Claims.binary32 sign e m) 32) s =
          .next (Claims.answered s (Claims.ok (some v) (some 0) none)) ∧
        exec (.fencS v) s =
          .next (Claims.answered s
            (if 1 ≤ e then Claims.ok (some (Claims.binary32 sign e m)) (some 0) none
            else Claims.failed .encodeRange)))

/-! ### BMU -/

/-- BINIT (R142): with the width and both operands in range it starts a multiplication and a new history, in any phase;
else it raises InvalidInputError and leaves the machine as it was. -/
def Obligations.BinitStartsMultiplication : Prop :=
  opcode (.binit 0 0 0) = 0x10#8 ∧
  ∀ (s : State) (m q w : Int),
    if 1 ≤ w ∧ w ≤ s.params.W_MAX ∧ -2 ^ (w.toNat - 1) ≤ m ∧ m ≤ 2 ^ (w.toNat - 1) - 1 ∧
        -2 ^ (w.toNat - 1) ≤ q ∧ q ≤ 2 ^ (w.toNat - 1) - 1 then
      ∃ r : BoothRecord, r.step = 0 ∧ r.operation = .init ∧ r.A = 0 ∧ r.Q1 = false ∧
        (r.Q : Int) = q % 2 ^ w.toNat ∧
        exec (.binit m q w) s =
          .next { s with
            bmu :=
              { phase := .stepping, W := w.toNat, M := (m % 2 ^ w.toNat).toNat, A := 0
                Q := (q % 2 ^ w.toNat).toNat, Q1 := false, currentStep := 0, history := [r] }
            response := some (Claims.ok none none (some (.booth r))) }
    else exec (.binit m q w) s = .next (Claims.answered s (Claims.failed .invalidInputError))

/-- BSTEP in STEPPING (R143 to R147, R149): the pair decides, the sum wraps modulo `2^W`, `A:Q:Q1` shifts right
arithmetically, the record is appended, and the step that makes `currentStep = W` completes. -/
def Obligations.BstepMakesOneStep : Prop :=
  opcode .bstep = 0x11#8 ∧
  ∀ (s : State) (a' : Nat) (op : BoothOp) (r : BoothRecord), s.bmu.phase = .stepping → 1 ≤ s.bmu.W →
    s.bmu.A < 2 ^ s.bmu.W →
    ((s.bmu.Q % 2 = 1 ∧ s.bmu.Q1 = false ∧ op = .sub ∧
        (a' : Int) = ((s.bmu.A : Int) - s.bmu.M) % 2 ^ s.bmu.W ∧ r.bits = 0b10#2) ∨
      (s.bmu.Q % 2 = 0 ∧ s.bmu.Q1 = true ∧ op = .add ∧
        (a' : Int) = ((s.bmu.A : Int) + s.bmu.M) % 2 ^ s.bmu.W ∧ r.bits = 0b01#2) ∨
      (s.bmu.Q % 2 = 0 ∧ s.bmu.Q1 = false ∧ op = .nop ∧ a' = s.bmu.A ∧ r.bits = 0b00#2) ∨
      (s.bmu.Q % 2 = 1 ∧ s.bmu.Q1 = true ∧ op = .nop ∧ a' = s.bmu.A ∧ r.bits = 0b11#2)) →
    r.step = s.bmu.currentStep + 1 → r.operation = op →
    r.A = a' / 2 + (if 2 ^ (s.bmu.W - 1) ≤ a' then 2 ^ (s.bmu.W - 1) else 0) →
    r.Q = a' % 2 * 2 ^ (s.bmu.W - 1) + s.bmu.Q / 2 → r.Q1 = decide (s.bmu.Q % 2 = 1) →
    exec .bstep s =
      .next { s with
        bmu :=
          { s.bmu with
            phase := if s.bmu.currentStep + 1 = s.bmu.W then .complete else .stepping
            A := r.A
            Q := r.Q
            Q1 := r.Q1
            currentStep := s.bmu.currentStep + 1
            history := s.bmu.history ++ [r] }
        response := some (Claims.ok (some 1) none (some (.booth r))) }

/-- BSTEP when COMPLETE makes no progress and is no error (R148); in IDLE it raises NotReady (R149, R252). -/
def Obligations.BstepOutsideStepping : Prop :=
  ∀ s : State,
    (s.bmu.phase = .complete → exec .bstep s = .next (Claims.answered s (Claims.ok (some 0) none none))) ∧
    (s.bmu.phase = .idle → exec .bstep s = .next (Claims.answered s (Claims.failed .notReady)))

/-- BRESULT (R150): when COMPLETE the `2W`-bit word `A ‖ Q` read as a signed number; else NotReady. It changes nothing
but the response. -/
def Obligations.BresultReadsProduct : Prop :=
  opcode .bresult = 0x12#8 ∧
  ∀ (s : State) (v : Int),
    (s.bmu.phase = .complete → 1 ≤ s.bmu.W → s.bmu.A < 2 ^ s.bmu.W → s.bmu.Q < 2 ^ s.bmu.W →
      v = (if s.bmu.A < 2 ^ (s.bmu.W - 1) then ((s.bmu.A * 2 ^ s.bmu.W + s.bmu.Q : Nat) : Int)
        else ((s.bmu.A * 2 ^ s.bmu.W + s.bmu.Q : Nat) : Int) - 2 ^ (2 * s.bmu.W)) →
      exec .bresult s = .next (Claims.answered s (Claims.ok (some v) none none))) ∧
    (s.bmu.phase ≠ .complete → exec .bresult s = .next (Claims.answered s (Claims.failed .notReady)))

/-- BVIEW (R151): the record of that index, in STEPPING and COMPLETE; an index outside `[0, historyLength - 1]` is an
InvalidInputError, and IDLE is NotReady. It changes nothing but the response. -/
def Obligations.BviewReadsHistory : Prop :=
  opcode (.bview 0) = 0x13#8 ∧
  ∀ (s : State) (i : Int),
    (s.bmu.phase = .idle → exec (.bview i) s = .next (Claims.answered s (Claims.failed .notReady))) ∧
    (s.bmu.phase ≠ .idle → ∀ r, 0 ≤ i → s.bmu.history[i.toNat]? = some r →
      exec (.bview i) s = .next (Claims.answered s (Claims.ok none none (some (.booth r))))) ∧
    (s.bmu.phase ≠ .idle → (i < 0 ∨ (s.bmu.history.length : Int) ≤ i) →
      exec (.bview i) s = .next (Claims.answered s (Claims.failed .invalidInputError)))

/-- BRESET (R152): IDLE and an empty history, in every phase; the multiplier's registers become unspecified, nothing
else changes. -/
def Obligations.BresetDiscardsHistory : Prop :=
  opcode .breset = 0x14#8 ∧
  ∀ s : State, ∃ b : Bmu, b.phase = .idle ∧ b.history = [] ∧
    exec .breset s = .next { s with bmu := b, response := some (Claims.ok none none none) }

/-- Booth's recurrence multiplies: every step keeps the partial product of the multiplier bits examined so far (R143
to R147; the argument for R153). -/
def Obligations.StepKeepsPartialProduct : Prop :=
  ∀ s t : State, s.Consistent → s.bmu.PartialProduct → step s = .next t → t.bmu.PartialProduct

/-- What BRESULT answers at the end (R153): the product of `M` with the multiplier that the INIT record shows, or its
negation when `M = -2^(W-1)`. -/
def Obligations.CompletedProduct : Prop :=
  ∀ (s : State) (r : BoothRecord), s.Consistent → s.bmu.PartialProduct → s.bmu.phase = .complete →
    s.bmu.history.head? = some r →
    exec .bresult s =
      .next (Claims.answered s
        (Claims.ok
          (some (if s.bmu.M = 2 ^ (s.bmu.W - 1) then -(sval s.bmu.W s.bmu.M * sval s.bmu.W r.Q)
            else sval s.bmu.W s.bmu.M * sval s.bmu.W r.Q))
          none none))

/-- A whole multiplication (R153, 95_test_vectors.md S5 as corrected by 90_conflicts.md C3): after BINIT and exactly
`W` BSTEP the product is `M × Q`, and `-(M × Q)` when `M = -2^(W-1)`, for every width. The spec's own evidence for
widths above 8 is general knowledge (notes/assumptions/24.md). -/
def Obligations.BoothMultiplies : Prop :=
  ∀ (s : State) (w : Nat) (m q : Int), 1 ≤ w → w ≤ s.params.W_MAX →
    -2 ^ (w - 1) ≤ m → m ≤ 2 ^ (w - 1) - 1 → -2 ^ (w - 1) ≤ q → q ≤ 2 ^ (w - 1) - 1 →
    ∃ t u, exec (.binit m q w) s = .next t ∧ Claims.repeated .bstep w t = .next u ∧
      u.bmu.phase = .complete ∧
      exec .bresult u =
        .next (Claims.answered u
          (Claims.ok (some (if m = -2 ^ (w - 1) then -(m * q) else m * q)) none none))

/-! ### SCU -/

/-- PUSH (R171) on a stack that is not full: the value is the new top, `SP` falls by one, one trace line is appended,
the flags and all else but AX to DX and the memory unit are unchanged. On a full stack it raises StackOverflow, and
else CellRange for a value outside a finite `CELL_BITS`. -/
def Obligations.PushAppends : Prop :=
  ∀ (s : State) (v : Int),
    (s.scu.operandStack.length ≠ s.params.MAX_STACK_SIZE → Claims.fits s v →
      Claims.projectable s (s.scu.operandStack.length + 1) →
      ∃ t, exec (.push v) s = .next t ∧ t.scu.operandStack = s.scu.operandStack ++ [v] ∧
        t.scu.SP = s.scu.SP - 1 ∧ t.scu.flags = s.scu.flags ∧
        (∃ line, t.scu.instructionTrace = s.scu.instructionTrace ++ [line]) ∧
        t.response = some (Claims.ok none none none) ∧ Claims.stackFrame s t) ∧
    (s.scu.operandStack.length = s.params.MAX_STACK_SIZE →
      exec (.push v) s = .next (Claims.answered s (Claims.failed .stackOverflow))) ∧
    (s.scu.operandStack.length ≠ s.params.MAX_STACK_SIZE → ¬ Claims.fits s v →
      exec (.push v) s = .next (Claims.answered s (Claims.failed .cellRange)))

/-- POP (R172) on a non-empty stack: the top is answered and removed, `SP` rises by one, zero or more trace lines are
appended; all else but AX to DX and the memory unit is unchanged. On an empty stack it raises StackUnderflow. -/
def Obligations.PopRemovesTop : Prop :=
  ∀ s : State,
    (∀ (below : List Int) (v : Int), s.scu.operandStack = below ++ [v] →
      Claims.projectable s (below.length + 1) →
      ∃ t, exec .pop s = .next t ∧ t.scu.operandStack = below ∧ t.scu.SP = s.scu.SP + 1 ∧
        t.scu.flags = s.scu.flags ∧ (∃ lines, t.scu.instructionTrace = s.scu.instructionTrace ++ lines) ∧
        t.response = some (Claims.ok (some v) none none) ∧ Claims.stackFrame s t) ∧
    (s.scu.operandStack = [] → exec .pop s = .next (Claims.answered s (Claims.failed .stackUnderflow)))

/-- PEEK (R173): the top, or StackUnderflow on an empty stack; nothing but the response changes. -/
def Obligations.PeekReadsTop : Prop :=
  opcode .peek = 0x22#8 ∧
  ∀ s : State,
    (∀ below v, s.scu.operandStack = below ++ [v] →
      exec .peek s = .next (Claims.answered s (Claims.ok (some v) none none))) ∧
    (s.scu.operandStack = [] → exec .peek s = .next (Claims.answered s (Claims.failed .stackUnderflow)))

/-- SRESET (R192): the stack machine takes its reset values; the memory unit and the multiplier are unchanged. That the
memory keeps the mirrored bytes is the spec's inference in R192 from R60. -/
def Obligations.SresetClearsStackMachine : Prop :=
  opcode .sreset = 0x23#8 ∧
  ∀ s : State, ∃ header, exec .sreset s =
    .next { s with
      scu :=
        { operandStack := []
          SP := s.params.MAX_STACK_SIZE
          AX := 0
          BX := 0
          CX := 0
          DX := 0
          flags := { ZF := false, CF := false, SF := false, OF := false, PF := false, AF := false }
          instructionTrace := header }
      response := some (Claims.ok none none none) }

/-- ADD, SUB, MUL, DIV, MOD (R174 to R182): the two top elements, `b` on top, are replaced by `f_op(a, b)`, which is
answered; `SP` rises by one, one or more trace lines are appended, all else but the flags, AX to DX and the memory
unit is unchanged. DIV and MOD hold for both values of `DIV_ROUND`. Fewer than two elements raise StackUnderflow, a
result outside a finite `CELL_BITS` raises CellRange. -/
def Obligations.BinaryOperationReplacesTopTwo : Prop :=
  ∀ (op : BinOp) (s : State),
    (∀ (below : List Int) (a b r : Int), s.scu.operandStack = below ++ [a, b] →
      (op ∈ [BinOp.div, .mod] → b ≠ 0) → r = Claims.resultOf s.params.DIV_ROUND a b op →
      (Claims.fits s r → Claims.projectable s (below.length + 2) →
        ∃ t, exec (Claims.instrOf op) s = .next t ∧ t.scu.operandStack = below ++ [r] ∧
          t.scu.SP = s.scu.SP + 1 ∧
          (∃ line lines, t.scu.instructionTrace = s.scu.instructionTrace ++ line :: lines) ∧
          t.response = some (Claims.ok (some r) none none) ∧ Claims.stackFrame s t) ∧
      (¬ Claims.fits s r →
        exec (Claims.instrOf op) s = .next (Claims.answered s (Claims.failed .cellRange)))) ∧
    (s.scu.operandStack.length < 2 →
      exec (Claims.instrOf op) s = .next (Claims.answered s (Claims.failed .stackUnderflow)))

/-- The six flags of a successful operation, on the unwrapped integers (R183 to R188). That `AF` takes the residue of a
negative operand modulo 16 rests on R13, general knowledge in the spec (G1; PRESUMED, notes/assumptions/21.md). -/
def Obligations.FlagsOfBinaryOperation : Prop :=
  ∀ (op : BinOp) (s t : State) (below : List Int) (a b r : Int), s.scu.operandStack = below ++ [a, b] →
    r = Claims.resultOf s.params.DIV_ROUND a b op →
    exec (Claims.instrOf op) s = .next t → Claims.statusOf t = some .ok →
    (t.scu.flags.ZF = true ↔ r = 0) ∧ (t.scu.flags.SF = true ↔ r < 0) ∧
    (t.scu.flags.PF = true ↔ Claims.lowOnes r.natAbs % 2 = 0) ∧
    (t.scu.flags.CF = true ↔ (op = .add ∧ a + b > 65535) ∨ (op = .sub ∧ a < b)) ∧
    (t.scu.flags.OF = true ↔ r > 32767 ∨ r < -32768) ∧
    (t.scu.flags.AF = true ↔
      (op = .add ∧ a % 16 + b % 16 > 0xF) ∨ (op = .sub ∧ a % 16 - b % 16 < 0))

/-- DIV and MOD by zero raise DivisionByZero and restore the operands: nothing but the response changes (R195, R246).
StackUnderflow comes first, since the right operand does not exist on a stack of fewer than two elements. -/
def Obligations.DivisionByZeroRestores : Prop :=
  ∀ (s : State) (below : List Int) (a : Int), s.scu.operandStack = below ++ [a, 0] →
    exec .div s = .next (Claims.answered s (Claims.failed .divisionByZero)) ∧
    exec .mod s = .next (Claims.answered s (Claims.failed .divisionByZero))

/-- The quotient and the remainder (R181, R182): truncation under TRUNC and floor division under FLOOR, which agree
when the exact quotient is not negative or the division is exact; `a = b × Quot + Rem`; the remainder is smaller than
the divisor and, when it is not 0, has the sign of `a` under TRUNC and of `b` under FLOOR. -/
def Obligations.QuotientAndRemainder : Prop :=
  ∀ (round : DivRound) (a b q r : Int), b ≠ 0 → q = BinOp.div.result round a b → r = BinOp.mod.result round a b →
    a = b * q + r ∧ r.natAbs < b.natAbs ∧
    (round = .trunc → q = a.tdiv b ∧ (r ≠ 0 → (r < 0 ↔ a < 0))) ∧
    (round = .floor → q = a.fdiv b ∧ (r ≠ 0 → (r < 0 ↔ b < 0))) ∧
    (b ∣ a ∨ 0 ≤ a * b → a.tdiv b = a.fdiv b) ∧
    (0 ≤ a → 0 < b → q = a / b ∧ r = a % b)

/-- The projection (R60, R62): after every successful stack-changing command every live element's low 16 bits lie at
its two addresses, little-endian, whatever the memory held there. That the binary operations project too is the spec's
inference in R60 from R174. -/
def Obligations.ProjectionMirrorsLiveElements : Prop :=
  ∀ (i : Instr) (s t : State) (d : Nat) (v : Int), s.params.MEM_ATTACHED = true → s.memUnit.mem.wf = true →
    Claims.stackChanging i = true → exec i s = .next t → Claims.statusOf t = some .ok →
    t.scu.operandStack[d]? = some v →
    ((t.memUnit.mem.read (s.memUnit.SS.toNat * 16 + 0xFFFF - 2 * d - 1)).toNat : Int) = v % 256 ∧
    ((t.memUnit.mem.read (s.memUnit.SS.toNat * 16 + 0xFFFF - 2 * d)).toNat : Int) = v / 256 % 256

/-- The projection stores nowhere else (R61): outside the live slots, and the one slot a POP or an operation vacates,
every byte reads as before. -/
def Obligations.ProjectionKeepsOtherBytes : Prop :=
  ∀ (i : Instr) (s t : State) (addr : Nat), s.memUnit.mem.wf = true →
    Claims.stackChanging i = true → exec i s = .next t →
    (∀ d < Claims.slotCount i t, addr ≠ s.memUnit.SS.toNat * 16 + 0xFFFF - 2 * d ∧
      addr ≠ s.memUnit.SS.toNat * 16 + 0xFFFF - 2 * d - 1) →
    t.memUnit.mem.read addr = s.memUnit.mem.read addr

/-! ### MEM -/

/-- READB (R210) of a valid address: the byte, one more read counted, one log entry with no old value, the log capped
at its last 50 entries; no byte changes. -/
def Obligations.ReadbAnswersByte : Prop :=
  opcode (.readb 0) = 0x30#8 ∧
  ∀ (s : State) (addr : Int), s.params.MEM_ATTACHED = true →
    (0 ≤ addr → addr < 0x100000 →
      ∃ time, exec (.readb addr) s =
        .next { s with
          memUnit :=
            { s.memUnit with
              readCount := s.memUnit.readCount + 1
              opLog :=
                Claims.logged s.memUnit.opLog
                  { type := .read, address := addr.toNat, oldValue := none
                    newValue := s.memUnit.mem.read addr.toNat, timestamp := time } }
          response := some (Claims.ok (some (s.memUnit.mem.read addr.toNat).toNat) none none) }) ∧
    (addr < 0 ∨ 0x100000 ≤ addr →
      exec (.readb addr) s = .next (Claims.answered s (Claims.failed .addressOutOfRange)))

/-- WRITEB (R211): the byte is stored at its address and nowhere else, the address joins `written`, one write is
counted and logged; the address is checked before the value. -/
def Obligations.WritebStoresByte : Prop :=
  opcode (.writeb 0 0) = 0x31#8 ∧
  ∀ (s : State) (addr v : Int), s.params.MEM_ATTACHED = true → s.memUnit.mem.wf = true →
    (0 ≤ addr → addr < 0x100000 → 0 ≤ v → v ≤ 255 →
      ∃ t time, exec (.writeb addr v) s = .next t ∧
        (∀ a : Nat, t.memUnit.mem.read a = if (a : Int) = addr then BitVec.ofInt 8 v else s.memUnit.mem.read a) ∧
        (∀ a : Nat, a ∈ t.memUnit.written ↔ (a : Int) = addr ∨ a ∈ s.memUnit.written) ∧
        t.memUnit.readCount = s.memUnit.readCount ∧ t.memUnit.writeCount = s.memUnit.writeCount + 1 ∧
        t.memUnit.opLog =
          Claims.logged s.memUnit.opLog
            { type := .write, address := addr.toNat, oldValue := some (s.memUnit.mem.read addr.toNat)
              newValue := BitVec.ofInt 8 v, timestamp := time } ∧
        t.response = some (Claims.ok none none none) ∧ Claims.memFrame s t) ∧
    (addr < 0 ∨ 0x100000 ≤ addr →
      exec (.writeb addr v) s = .next (Claims.answered s (Claims.failed .addressOutOfRange))) ∧
    (0 ≤ addr → addr < 0x100000 → v < 0 ∨ 255 < v →
      exec (.writeb addr v) s = .next (Claims.answered s (Claims.failed .invalidByteValue)))

/-- FILL (R212): the byte is stored at every address of the interval, both ends included, and nowhere else, and the
count is answered; the three checks stand in the rule's order and a failing FILL stores no byte. -/
def Obligations.FillStoresInterval : Prop :=
  opcode (.fill 0 0 0) = 0x32#8 ∧
  ∀ (s : State) (first last v : Int), s.params.MEM_ATTACHED = true →
    (first ≤ last → 0 ≤ first → last < 0x100000 → 0 ≤ v → v ≤ 255 →
      ∃ t, exec (.fill first last v) s = .next t ∧
        (∀ a : Nat, t.memUnit.mem.read a =
          if first ≤ a ∧ (a : Int) ≤ last then BitVec.ofInt 8 v else s.memUnit.mem.read a) ∧
        (∀ a : Nat, ¬ (first ≤ a ∧ (a : Int) ≤ last) → (a ∈ t.memUnit.written ↔ a ∈ s.memUnit.written)) ∧
        s.memUnit.readCount ≤ t.memUnit.readCount ∧ s.memUnit.writeCount ≤ t.memUnit.writeCount ∧
        t.response = some (Claims.ok (some (last - first + 1)) none none) ∧ Claims.memFrame s t) ∧
    (last < first → exec (.fill first last v) s = .next (Claims.answered s (Claims.failed .invalidInputError))) ∧
    (first ≤ last → first < 0 ∨ 0x100000 ≤ last →
      exec (.fill first last v) s = .next (Claims.answered s (Claims.failed .addressOutOfRange))) ∧
    (first ≤ last → 0 ≤ first → last < 0x100000 → v < 0 ∨ 255 < v →
      exec (.fill first last v) s = .next (Claims.answered s (Claims.failed .invalidByteValue)))

/-- SEARCH (R213): every address whose byte equals the value, ascending (the spec's inference from the scan order), and
their number; no byte changes; a value that is no byte raises FormatError. -/
def Obligations.SearchFindsEveryAddress : Prop :=
  opcode (.search 0) = 0x33#8 ∧
  ∀ (s : State) (v : Int), s.params.MEM_ATTACHED = true → s.memUnit.mem.wf = true →
    (0 ≤ v → v ≤ 255 →
      ∃ t hits, exec (.search v) s = .next t ∧
        hits = (List.range 0x100000).filter
          (fun a => decide (((s.memUnit.mem.read a).toNat : Int) = v)) ∧
        t.response = some (Claims.ok (some hits.length) none (some (.addresses hits))) ∧
        t.memUnit.mem = s.memUnit.mem ∧ Claims.memFrame s t) ∧
    (v < 0 ∨ 255 < v → exec (.search v) s = .next (Claims.answered s (Claims.failed .formatError)))

/-- INSPECT (R215 to R222): the seven fields of a valid address, little-endian but for `word_BE`, the multi-byte fields
N/A near the end of memory; no byte changes. The signed reading and the printable range are general knowledge in the
spec (notes/assumptions/21.md). -/
def Obligations.InspectShowsFields : Prop :=
  opcode (.inspect 0) = 0x34#8 ∧
  ∀ (s : State) (addr : Nat), s.params.MEM_ATTACHED = true →
    (addr < 0x100000 →
      ∃ t r, exec (.inspect addr) s = .next t ∧
        t.response = some (Claims.ok none none (some (.inspection r))) ∧
        r.byte = (s.memUnit.mem.read addr).toNat ∧
        r.signedByte = (s.memUnit.mem.read addr).toInt ∧
        r.word_LE = (if addr + 1 < 0x100000 then
          some ((s.memUnit.mem.read addr).toNat + 256 * (s.memUnit.mem.read (addr + 1)).toNat) else none) ∧
        r.word_BE = (if addr + 1 < 0x100000 then
          some (256 * (s.memUnit.mem.read addr).toNat + (s.memUnit.mem.read (addr + 1)).toNat) else none) ∧
        r.dword = (if addr + 3 < 0x100000 then
          some ((s.memUnit.mem.read addr).toNat + 2 ^ 8 * (s.memUnit.mem.read (addr + 1)).toNat +
            2 ^ 16 * (s.memUnit.mem.read (addr + 2)).toNat + 2 ^ 24 * (s.memUnit.mem.read (addr + 3)).toNat)
          else none) ∧
        r.float32.map BitVec.toNat = r.dword ∧
        (∀ k, k ≤ r.asciiString.length → k < min 16 (0x100000 - addr) →
          (r.asciiString[k]? = none ↔ s.memUnit.mem.read (addr + k) = 0)) ∧
        r.asciiString.length ≤ min 16 (0x100000 - addr) ∧
        (∀ k c, r.asciiString[k]? = some c →
          if 0x20 ≤ (s.memUnit.mem.read (addr + k)).toNat ∧ (s.memUnit.mem.read (addr + k)).toNat ≤ 0x7E then
            c.toNat = (s.memUnit.mem.read (addr + k)).toNat else c = '.') ∧
        t.memUnit.mem = s.memUnit.mem ∧ Claims.memFrame s t) ∧
    ∀ a : Int, a < 0 ∨ 0x100000 ≤ a →
      exec (.inspect a) s = .next (Claims.answered s (Claims.failed .addressOutOfRange))
end

