-- ==== Sys2Proof/Laws/Memory.lean ====
section
/-! SUPPORT. The laws of the memory operations: what a byte reads as after each of them, and that each keeps the
canonical form. -/

namespace Sys2Proof.Machine

variable {m : Memory} {start addr count : Nat} {v : Byte}

@[simp] theorem Memory.wfFrom_nil (start : Nat) : Memory.wfFrom start [] = true := rfl

@[simp] theorem Memory.wfFrom_cons (start a : Nat) (b : Byte) (rest : Memory) :
    Memory.wfFrom start ((a, b) :: rest) = true ↔
      (start ≤ a ∧ a < memSize ∧ b ≠ unlistedByte) ∧ Memory.wfFrom (a + 1) rest = true := by
  simp [Memory.wfFrom]

@[simp] theorem Memory.read_nil (addr : Nat) : Memory.read [] addr = unlistedByte := rfl

theorem Memory.read_cons (a : Nat) (b : Byte) (rest : Memory) (addr : Nat) :
    Memory.read ((a, b) :: rest) addr = if addr = a then b else Memory.read rest addr := rfl

/-- A memory in canonical form from an address on is so from any lower one on. -/
theorem Memory.wfFrom_mono {low : Nat} (hle : low ≤ start) (h : Memory.wfFrom start m = true) :
    Memory.wfFrom low m = true := by
  cases m with
  | nil => rfl
  | cons c rest =>
    obtain ⟨a, b⟩ := c
    simp only [Memory.wfFrom_cons] at h ⊢
    exact ⟨⟨hle.trans h.1.1, h.1.2⟩, h.2⟩

/-- Below the first listed address every byte is the unlisted one. -/
theorem Memory.read_below (h : Memory.wfFrom start m = true) (hlt : addr < start) :
    m.read addr = unlistedByte := by
  induction m generalizing start with
  | nil => rfl
  | cons c rest ih =>
    obtain ⟨a, b⟩ := c
    simp only [Memory.wfFrom_cons] at h
    rw [Memory.read_cons, if_neg (by omega)]
    exact ih h.2 (by omega)

/-- Above the memory every byte is the unlisted one. -/
theorem Memory.read_beyond (h : Memory.wfFrom start m = true) (hle : memSize ≤ addr) :
    m.read addr = unlistedByte := by
  induction m generalizing start with
  | nil => rfl
  | cons c rest ih =>
    obtain ⟨a, b⟩ := c
    simp only [Memory.wfFrom_cons] at h
    rw [Memory.read_cons, if_neg (by omega)]
    exact ih h.2

/-- A store changes the byte stored to and no other. -/
theorem Memory.read_write (h : Memory.wfFrom start m = true) (a' : Nat) :
    (m.write addr v).read a' = if a' = addr then v else m.read a' := by
  induction m generalizing start with
  | nil =>
    by_cases hv : v = unlistedByte
    · simp [Memory.write, hv]
    · simp [Memory.write, hv, Memory.read_cons]
  | cons c rest ih =>
    obtain ⟨a, b⟩ := c
    simp only [Memory.wfFrom_cons] at h
    have below := fun x (hx : x < a + 1) => Memory.read_below (addr := x) h.2 hx
    unfold Memory.write
    by_cases h1 : addr < a
    · rw [if_pos h1]
      by_cases hv : v = unlistedByte
      · rw [if_pos hv]
        by_cases e : a' = addr
        · rw [if_pos e, Memory.read_cons, if_neg (by omega), below _ (by omega), hv]
        · rw [if_neg e]
      · rw [if_neg hv, Memory.read_cons]
    · rw [if_neg h1]
      by_cases h3 : addr = a
      · subst h3
        rw [if_pos rfl]
        by_cases hv : v = unlistedByte
        · rw [if_pos hv]
          by_cases e : a' = addr
          · rw [if_pos e, below _ (by omega), hv]
          · rw [if_neg e, Memory.read_cons, if_neg e]
        · rw [if_neg hv, Memory.read_cons]
          by_cases e : a' = addr
          · rw [if_pos e, if_pos e]
          · rw [if_neg e, if_neg e, Memory.read_cons, if_neg e]
      · rw [if_neg h3, Memory.read_cons, ih h.2, Memory.read_cons]
        by_cases e : a' = a
        · rw [if_pos e, if_neg (by omega), if_pos e]
        · rw [if_neg e, if_neg e]

/-- A store keeps the canonical form. -/
theorem Memory.wfFrom_write (h : Memory.wfFrom start m = true) (hs : start ≤ addr) (ha : addr < memSize) :
    Memory.wfFrom start (m.write addr v) = true := by
  induction m generalizing start with
  | nil =>
    unfold Memory.write
    split_ifs with hv
    · rfl
    · simp [hs, ha, hv]
  | cons c rest ih =>
    obtain ⟨a, b⟩ := c
    simp only [Memory.wfFrom_cons] at h
    unfold Memory.write
    split_ifs with h1 h2 h3 h4
    · simpa using h
    · simp only [Memory.wfFrom_cons]
      exact ⟨⟨hs, ha, h2⟩, ⟨by omega, h.1.2⟩, h.2⟩
    · exact Memory.wfFrom_mono (by omega) h.2
    · simp only [Memory.wfFrom_cons]
      exact ⟨⟨hs, ha, h4⟩, by subst h3; exact h.2⟩
    · simp only [Memory.wfFrom_cons]
      exact ⟨h.1, ih h.2 (by omega)⟩

theorem Memory.wf_write (h : m.wf = true) (ha : addr < memSize) : (m.write addr v).wf = true :=
  Memory.wfFrom_write h (Nat.zero_le _) ha

theorem Memory.wf_writeBytes (bytes : List Byte) (h : m.wf = true) (ha : addr + bytes.length ≤ memSize) :
    (m.writeBytes addr bytes).wf = true := by
  induction bytes generalizing m addr with
  | nil => exact h
  | cons b rest ih =>
    simp only [List.length_cons] at ha
    exact ih (Memory.wf_write h (by omega)) (by omega)

/-- `MemWrite` (R53): the bytes lie at the addresses from `addr` on, every other byte is unchanged. -/
theorem Memory.read_writeBytes (bytes : List Byte) (h : m.wf = true) (ha : addr + bytes.length ≤ memSize)
    (a' : Nat) :
    (m.writeBytes addr bytes).read a' =
      if addr ≤ a' then bytes.getD (a' - addr) (m.read a') else m.read a' := by
  induction bytes generalizing m addr with
  | nil => simp [Memory.writeBytes]
  | cons b rest ih =>
    simp only [List.length_cons] at ha
    have hw := Memory.wf_write (v := b) h (show addr < memSize by omega)
    rw [Memory.writeBytes, ih hw (by omega), Memory.read_write h]
    by_cases e : a' = addr
    · subst e
      rw [if_neg (by omega), if_pos rfl, if_pos le_rfl, Nat.sub_self, List.getD_cons_zero]
    · rw [if_neg e]
      by_cases hle : addr ≤ a'
      · obtain ⟨d, rfl⟩ : ∃ d, a' = addr + 1 + d := ⟨a' - (addr + 1), by omega⟩
        rw [if_pos (by omega), if_pos hle, show addr + 1 + d - (addr + 1) = d by omega,
          show addr + 1 + d - addr = d + 1 by omega, List.getD_cons_succ]
      · rw [if_neg (by omega), if_neg hle]

/-- `MemRead` reads the bytes one by one (R53). -/
theorem Memory.readBytes_length (m : Memory) (addr n : Nat) : (m.readBytes addr n).length = n := by
  simp [Memory.readBytes]

/-! ### Splitting a memory at an address -/

theorem Memory.read_append (m₁ m₂ : Memory) (addr : Nat) :
    Memory.read (m₁ ++ m₂) addr =
      if ∃ b, (addr, b) ∈ m₁ then Memory.read m₁ addr else Memory.read m₂ addr := by
  induction m₁ with
  | nil => simp
  | cons c rest ih =>
    obtain ⟨a, b⟩ := c
    rw [List.cons_append, Memory.read_cons, Memory.read_cons, ih]
    by_cases e : addr = a
    · subst e
      rw [if_pos rfl, if_pos ⟨b, by simp⟩, if_pos rfl]
    · simp [e]

theorem Memory.read_not_listed (h : ¬ ∃ b, (addr, b) ∈ m) : m.read addr = unlistedByte := by
  induction m with
  | nil => rfl
  | cons c rest ih =>
    obtain ⟨a, b⟩ := c
    have hne : addr ≠ a := fun e => h ⟨b, by simp [e]⟩
    rw [Memory.read_cons, if_neg hne]
    exact ih fun ⟨b', hb⟩ => h ⟨b', by simp [hb]⟩

/-- Keeping the cells whose address satisfies `p` keeps the bytes at these addresses. -/
theorem Memory.read_filter (m : Memory) (p : Nat → Bool) (addr : Nat) :
    Memory.read (m.filter fun cell => p cell.1) addr = if p addr then m.read addr else unlistedByte := by
  induction m with
  | nil => simp
  | cons c rest ih =>
    obtain ⟨a, b⟩ := c
    rw [List.filter_cons, Memory.read_cons]
    by_cases e : addr = a
    · subst e
      by_cases hp : p addr = true
      · simp [hp, Memory.read_cons]
      · simp [hp, ih]
    · by_cases hp : p a = true
      · simp [hp, Memory.read_cons, e, ih]
      · simp [hp, e, ih]

theorem Memory.read_constant (start count : Nat) (v : Byte) (addr : Nat) :
    Memory.read ((List.range' start count).map fun a => (a, v)) addr =
      if start ≤ addr ∧ addr < start + count then v else unlistedByte := by
  induction count generalizing start with
  | zero => simp
  | succ n ih =>
    rw [List.range'_succ, List.map_cons, Memory.read_cons, ih]
    by_cases e : addr = start
    · subst e; simp
    · rw [if_neg e]
      by_cases h : start ≤ addr ∧ addr < start + (n + 1)
      · rw [if_pos h, if_pos (by omega)]
      · rw [if_neg h, if_neg (by omega)]

theorem Memory.wfFrom_append {mid : Nat} (m₁ m₂ : Memory) (h₁ : Memory.wfFrom start m₁ = true)
    (hb : ∀ c ∈ m₁, c.1 < mid) (hs : start ≤ mid) (h₂ : Memory.wfFrom mid m₂ = true) :
    Memory.wfFrom start (m₁ ++ m₂) = true := by
  induction m₁ generalizing start with
  | nil => exact Memory.wfFrom_mono hs h₂
  | cons c rest ih =>
    obtain ⟨a, b⟩ := c
    simp only [List.cons_append, Memory.wfFrom_cons] at h₁ ⊢
    exact ⟨h₁.1, ih h₁.2 (fun c hc => hb c (by simp [hc])) (hb (a, b) (by simp))⟩

theorem Memory.wfFrom_filter (p : Nat → Bool) (h : Memory.wfFrom start m = true) :
    Memory.wfFrom start (m.filter fun cell => p cell.1) = true := by
  induction m generalizing start with
  | nil => rfl
  | cons c rest ih =>
    obtain ⟨a, b⟩ := c
    simp only [Memory.wfFrom_cons] at h
    rw [List.filter_cons]
    split_ifs
    · simp only [Memory.wfFrom_cons]
      exact ⟨h.1, ih h.2⟩
    · exact Memory.wfFrom_mono (by omega) (ih h.2)

theorem Memory.wfFrom_filter_from {low : Nat} (h : Memory.wfFrom start m = true) :
    Memory.wfFrom low (m.filter fun cell => low ≤ cell.1) = true := by
  induction m generalizing start with
  | nil => rfl
  | cons c rest ih =>
    obtain ⟨a, b⟩ := c
    simp only [Memory.wfFrom_cons] at h
    rw [List.filter_cons]
    split_ifs with hl
    · simp only [Memory.wfFrom_cons]
      refine ⟨⟨by simpa using hl, h.1.2⟩, ?_⟩
      exact Memory.wfFrom_filter (fun x => decide (low ≤ x)) h.2
    · exact ih h.2

theorem Memory.wfFrom_constant (hv : v ≠ unlistedByte) (hc : start + count ≤ memSize) :
    Memory.wfFrom start ((List.range' start count).map fun a => (a, v)) = true := by
  induction count generalizing start with
  | zero => rfl
  | succ n ih =>
    rw [List.range'_succ, List.map_cons]
    simp only [Memory.wfFrom_cons]
    exact ⟨⟨le_rfl, by omega, hv⟩, ih (by omega)⟩

/-- FILL's store (R212): the byte at every address of the interval, every other byte unchanged. -/
theorem Memory.read_fill (m : Memory) (start count : Nat) (v : Byte) (addr : Nat) :
    (m.fill start count v).read addr = if start ≤ addr ∧ addr < start + count then v else m.read addr := by
  have hl := Memory.read_filter m (fun a => decide (a < start)) addr
  have hh := Memory.read_filter m (fun a => decide (start + count ≤ a)) addr
  have hm := Memory.read_constant start count v addr
  unfold Memory.fill
  generalize hlow : (m.filter fun cell => decide (cell.1 < start)) = low at hl
  generalize hmid : (if v = unlistedByte then [] else (List.range' start count).map fun a => (a, v)) = mid
  have hmid_read : Memory.read mid addr = if start ≤ addr ∧ addr < start + count then v else unlistedByte := by
    subst hmid
    by_cases hv : v = unlistedByte
    · simp [hv]
    · rw [if_neg hv, hm]
  have hlow_in : (∃ b, (addr, b) ∈ low) → addr < start := by
    subst hlow
    rintro ⟨b, hb⟩
    simpa using (List.mem_filter.1 hb).2
  have hmid_in : (∃ b, (addr, b) ∈ mid) → start ≤ addr ∧ addr < start + count := by
    subst hmid
    rintro ⟨b, hb⟩
    by_cases hv : v = unlistedByte
    · simp [hv] at hb
    · rw [if_neg hv, List.mem_map] at hb
      obtain ⟨x, hx, e⟩ := hb
      rw [List.mem_range'_1] at hx
      obtain rfl : x = addr := congrArg Prod.fst e
      exact hx
  rw [List.append_assoc, Memory.read_append, Memory.read_append, hl, hh, hmid_read]
  by_cases h1 : ∃ b, (addr, b) ∈ low
  · have := hlow_in h1
    rw [if_pos h1, if_pos (by simpa using this), if_neg (by omega)]
  · rw [if_neg h1]
    have hlow_read : addr < start → Memory.read m addr = unlistedByte := fun hlt => by
      rw [← Memory.read_not_listed h1, hl, if_pos (by simpa using hlt)]
    by_cases h2 : ∃ b, (addr, b) ∈ mid
    · rw [if_pos h2]
      rw [if_pos (hmid_in h2), if_pos (hmid_in h2)]
    · rw [if_neg h2]
      have hmid_not := Memory.read_not_listed h2
      rw [hmid_read] at hmid_not
      by_cases h3 : start + count ≤ addr
      · rw [if_pos (by simpa using h3), if_neg (by omega)]
      · rw [if_neg (by simpa using h3)]
        by_cases h4 : start ≤ addr ∧ addr < start + count
        · rw [if_pos h4, ← hmid_not, if_pos h4]
        · rw [if_neg h4, hlow_read (by omega)]

/-- FILL's store keeps the canonical form. -/
theorem Memory.wf_fill (h : m.wf = true) (hc : start + count ≤ memSize) : (m.fill start count v).wf = true := by
  have hlow : Memory.wfFrom 0 (m.filter fun cell => decide (cell.1 < start)) = true :=
    Memory.wfFrom_filter (fun a => decide (a < start)) h
  have hhigh : Memory.wfFrom (start + count) (m.filter fun cell => decide (start + count ≤ cell.1)) = true :=
    Memory.wfFrom_filter_from h
  unfold Memory.fill Memory.wf
  rw [List.append_assoc]
  refine Memory.wfFrom_append (mid := start) _ _ hlow (fun c hc => by simpa using (List.mem_filter.1 hc).2)
    (Nat.zero_le _) ?_
  by_cases hv : v = unlistedByte
  · rw [if_pos hv, List.nil_append]
    exact Memory.wfFrom_mono (by omega) hhigh
  · rw [if_neg hv]
    refine Memory.wfFrom_append (mid := start + count) _ _ (Memory.wfFrom_constant hv hc) ?_ (by omega) hhigh
    rintro ⟨a, b⟩ hc
    simp only [List.mem_map, List.mem_range'_1, Prod.mk.injEq] at hc
    obtain ⟨x, hx, rfl, -⟩ := hc
    omega

/-- Membership in the list of hits from an address on (R213). -/
theorem Memory.mem_searchFrom (h : Memory.wfFrom start m = true) :
    addr ∈ Memory.searchFrom v start m ↔ start ≤ addr ∧ addr < memSize ∧ m.read addr = v := by
  induction m generalizing start with
  | nil =>
    simp only [Memory.searchFrom, Memory.read_nil]
    split_ifs with hv
    · simp only [List.mem_range'_1, hv, and_true]
      omega
    · simp only [List.not_mem_nil, false_iff]
      exact fun hx => hv hx.2.2.symm
  | cons c rest ih =>
    obtain ⟨a, b⟩ := c
    simp only [Memory.wfFrom_cons] at h
    have below := fun x (hx : x < a + 1) => Memory.read_below (addr := x) h.2 hx
    simp only [Memory.searchFrom, List.mem_append, ih h.2, Memory.read_cons]
    by_cases e : addr = a
    · subst e
      have hgap : addr ∉ (if v = unlistedByte then List.range' start (addr - start) else []) := by
        split_ifs
        · simp only [List.mem_range'_1]; omega
        · simp
      by_cases hb : b = v
      · simp [hb, h.1.1, h.1.2.1]
      · simp [hgap, hb]
    · have hhit : addr ∉ (if b = v then [a] else []) := by split_ifs <;> simp [e]
      rw [if_neg e]
      by_cases hlt : addr < a
      · rw [below addr (by omega)]
        by_cases hv : v = unlistedByte
        · subst hv
          have hsize := h.1.2.1
          simp only [↓reduceIte, List.mem_range'_1, hhit, or_false, and_true]
          omega
        · simp only [if_neg hv, List.not_mem_nil, hhit, false_or]
          constructor
          · intro hx; omega
          · intro hx; exact absurd hx.2.2.symm hv
      · have hgap : addr ∉ (if v = unlistedByte then List.range' start (a - start) else []) := by
          split_ifs
          · simp only [List.mem_range'_1]; omega
          · simp
        simp only [hgap, hhit, false_or]
        constructor
        · rintro ⟨h1, h2⟩; exact ⟨by omega, h2⟩
        · rintro ⟨h1, h2⟩; exact ⟨by omega, h2⟩

/-- Two memories in canonical form that read alike are equal, so equal memories are equal data. -/
theorem Memory.eq_of_read {m₁ m₂ : Memory} {s₁ s₂ : Nat} (h₁ : Memory.wfFrom s₁ m₁ = true)
    (h₂ : Memory.wfFrom s₂ m₂ = true) (h : ∀ a, Memory.read m₁ a = Memory.read m₂ a) : m₁ = m₂ := by
  induction m₁ generalizing m₂ s₁ s₂ with
  | nil =>
    cases m₂ with
    | nil => rfl
    | cons c rest =>
      obtain ⟨a, b⟩ := c
      simp only [Memory.wfFrom_cons] at h₂
      have := h a
      simp only [Memory.read_nil, Memory.read_cons, if_true] at this
      exact absurd this.symm h₂.1.2.2
  | cons c rest ih =>
    obtain ⟨a, b⟩ := c
    simp only [Memory.wfFrom_cons] at h₁
    cases m₂ with
    | nil =>
      have := h a
      simp only [Memory.read_nil, Memory.read_cons, if_true] at this
      exact absurd this h₁.1.2.2
    | cons c' rest' =>
      obtain ⟨a', b'⟩ := c'
      simp only [Memory.wfFrom_cons] at h₂
      have ha : a = a' := by
        rcases lt_trichotomy a a' with hlt | heq | hgt
        · have := h a
          rw [Memory.read_cons, if_pos rfl, Memory.read_cons, if_neg (by omega),
            Memory.read_below h₂.2 (by omega)] at this
          exact absurd this h₁.1.2.2
        · exact heq
        · have := h a'
          rw [Memory.read_cons, if_neg (by omega), Memory.read_below h₁.2 (by omega), Memory.read_cons,
            if_pos rfl] at this
          exact absurd this.symm h₂.1.2.2
      subst ha
      have hb : b = b' := by simpa [Memory.read_cons] using h a
      subst hb
      congr 1
      refine ih h₁.2 h₂.2 fun x => ?_
      by_cases e : x = a
      · subst e
        rw [Memory.read_below h₁.2 (by omega), Memory.read_below h₂.2 (by omega)]
      · simpa [Memory.read_cons, e] using h x

end Sys2Proof.Machine
end

