-- ==== Sys2Proof/Laws/State.lean ====
section
/-! SUPPORT. One lemma per field per named update of the state, so that no proof unfolds a record update. -/

namespace Sys2Proof.Machine

/-! ### Accepting an input -/

@[simp] theorem State.accept_bmu (rest : List HostInput) (s : State) :
    (s.accept rest).bmu = s.bmu := rfl

@[simp] theorem State.accept_scu (rest : List HostInput) (s : State) :
    (s.accept rest).scu = s.scu := rfl

@[simp] theorem State.accept_memUnit (rest : List HostInput) (s : State) :
    (s.accept rest).memUnit = s.memUnit := rfl

@[simp] theorem State.accept_params (rest : List HostInput) (s : State) :
    (s.accept rest).params = s.params := rfl

@[simp] theorem State.accept_inputs (rest : List HostInput) (s : State) :
    (s.accept rest).inputs = rest := rfl

@[simp] theorem State.accept_response (rest : List HostInput) (s : State) :
    (s.accept rest).response = s.response := rfl

@[simp] theorem State.accept_draws (rest : List HostInput) (s : State) :
    (s.accept rest).draws = s.draws + 1 := rfl

/-! ### The hardware reset -/

@[simp] theorem State.hardwareReset_bmu (s : State) :
    (s.hardwareReset).bmu = Bmu.discarded s.draws := rfl

@[simp] theorem State.hardwareReset_scu (s : State) :
    (s.hardwareReset).scu = Scu.cleared s.params s.draws := rfl

@[simp] theorem State.hardwareReset_memUnit (s : State) :
    (s.hardwareReset).memUnit = MemUnit.initial s.params := rfl

@[simp] theorem State.hardwareReset_params (s : State) :
    (s.hardwareReset).params = s.params := rfl

@[simp] theorem State.hardwareReset_inputs (s : State) :
    (s.hardwareReset).inputs = s.inputs := rfl

@[simp] theorem State.hardwareReset_response (s : State) :
    (s.hardwareReset).response = none := rfl

@[simp] theorem State.hardwareReset_draws (s : State) :
    (s.hardwareReset).draws = s.draws := rfl

/-! ### Placing a command -/

@[simp] theorem State.withFetchWord_bmu (s : State) (nbits w : Nat) :
    (s.withFetchWord nbits w).bmu = s.bmu := rfl

@[simp] theorem State.withFetchWord_scu (s : State) (nbits w : Nat) :
    (s.withFetchWord nbits w).scu = s.scu := rfl

@[simp] theorem State.withFetchWord_memUnit (s : State) (nbits w : Nat) :
    (s.withFetchWord nbits w).memUnit = s.memUnit := rfl

@[simp] theorem State.withFetchWord_params (s : State) (nbits w : Nat) :
    (s.withFetchWord nbits w).params = s.params := rfl

@[simp] theorem State.withFetchWord_inputs (s : State) (nbits w : Nat) :
    (s.withFetchWord nbits w).inputs = .command (tableCommand (w % 2 ^ nbits)) :: s.inputs := rfl

@[simp] theorem State.withFetchWord_response (s : State) (nbits w : Nat) :
    (s.withFetchWord nbits w).response = s.response := rfl

@[simp] theorem State.withFetchWord_draws (s : State) (nbits w : Nat) :
    (s.withFetchWord nbits w).draws = s.draws := rfl

/-! ### The discarded multiplier -/

@[simp] theorem Bmu.discarded_phase (k : Nat) :
    (Bmu.discarded k).phase = .idle := rfl

@[simp] theorem Bmu.discarded_history (k : Nat) :
    (Bmu.discarded k).history = [] := rfl

/-! ### A new multiplication -/

@[simp] theorem Bmu.initialised_phase (k w : Nat) (m q : Int) :
    (Bmu.initialised k w m q).phase = .stepping := rfl

@[simp] theorem Bmu.initialised_W (k w : Nat) (m q : Int) :
    (Bmu.initialised k w m q).W = w := rfl

@[simp] theorem Bmu.initialised_M (k w : Nat) (m q : Int) :
    (Bmu.initialised k w m q).M = umod w m := rfl

@[simp] theorem Bmu.initialised_A (k w : Nat) (m q : Int) :
    (Bmu.initialised k w m q).A = 0 := rfl

@[simp] theorem Bmu.initialised_Q (k w : Nat) (m q : Int) :
    (Bmu.initialised k w m q).Q = umod w q := rfl

@[simp] theorem Bmu.initialised_Q1 (k w : Nat) (m q : Int) :
    (Bmu.initialised k w m q).Q1 = false := rfl

@[simp] theorem Bmu.initialised_currentStep (k w : Nat) (m q : Int) :
    (Bmu.initialised k w m q).currentStep = 0 := rfl

@[simp] theorem Bmu.initialised_history (k w : Nat) (m q : Int) :
    (Bmu.initialised k w m q).history = [initRecord k w q] := rfl

/-! ### One Booth step -/

@[simp] theorem Bmu.stepped_phase (b : Bmu) :
    (b.stepped).phase = if b.currentStep + 1 = b.W then .complete else b.phase := rfl

@[simp] theorem Bmu.stepped_W (b : Bmu) :
    (b.stepped).W = b.W := rfl

@[simp] theorem Bmu.stepped_M (b : Bmu) :
    (b.stepped).M = b.M := rfl

@[simp] theorem Bmu.stepped_A (b : Bmu) :
    (b.stepped).A = b.nextRecord.A := rfl

@[simp] theorem Bmu.stepped_Q (b : Bmu) :
    (b.stepped).Q = b.nextRecord.Q := rfl

@[simp] theorem Bmu.stepped_Q1 (b : Bmu) :
    (b.stepped).Q1 = b.nextRecord.Q1 := rfl

@[simp] theorem Bmu.stepped_currentStep (b : Bmu) :
    (b.stepped).currentStep = b.currentStep + 1 := rfl

@[simp] theorem Bmu.stepped_history (b : Bmu) :
    (b.stepped).history = b.history ++ [b.nextRecord] := rfl

/-! ### The cleared stack machine -/

@[simp] theorem Scu.cleared_operandStack (p : Params) (k : Nat) :
    (Scu.cleared p k).operandStack = [] := rfl

@[simp] theorem Scu.cleared_SP (p : Params) (k : Nat) :
    (Scu.cleared p k).SP = p.MAX_STACK_SIZE := rfl

@[simp] theorem Scu.cleared_AX (p : Params) (k : Nat) :
    (Scu.cleared p k).AX = 0 := rfl

@[simp] theorem Scu.cleared_BX (p : Params) (k : Nat) :
    (Scu.cleared p k).BX = 0 := rfl

@[simp] theorem Scu.cleared_CX (p : Params) (k : Nat) :
    (Scu.cleared p k).CX = 0 := rfl

@[simp] theorem Scu.cleared_DX (p : Params) (k : Nat) :
    (Scu.cleared p k).DX = 0 := rfl

@[simp] theorem Scu.cleared_flags (p : Params) (k : Nat) :
    (Scu.cleared p k).flags = Flags.cleared := rfl

@[simp] theorem Scu.cleared_instructionTrace (p : Params) (k : Nat) :
    (Scu.cleared p k).instructionTrace = Config.anyHeader k := rfl

/-! ### The free registers -/

@[simp] theorem Scu.drawRegisters_operandStack (p : Params) (k : Nat) (u : Scu) :
    (u.drawRegisters p k).operandStack = u.operandStack := rfl

@[simp] theorem Scu.drawRegisters_SP (p : Params) (k : Nat) (u : Scu) :
    (u.drawRegisters p k).SP = u.SP := rfl

@[simp] theorem Scu.drawRegisters_AX (p : Params) (k : Nat) (u : Scu) :
    (u.drawRegisters p k).AX = cellValue p (Config.anyAX k) := rfl

@[simp] theorem Scu.drawRegisters_BX (p : Params) (k : Nat) (u : Scu) :
    (u.drawRegisters p k).BX = cellValue p (Config.anyBX k) := rfl

@[simp] theorem Scu.drawRegisters_CX (p : Params) (k : Nat) (u : Scu) :
    (u.drawRegisters p k).CX = cellValue p (Config.anyCX k) := rfl

@[simp] theorem Scu.drawRegisters_DX (p : Params) (k : Nat) (u : Scu) :
    (u.drawRegisters p k).DX = cellValue p (Config.anyDX k) := rfl

@[simp] theorem Scu.drawRegisters_flags (p : Params) (k : Nat) (u : Scu) :
    (u.drawRegisters p k).flags = u.flags := rfl

@[simp] theorem Scu.drawRegisters_instructionTrace (p : Params) (k : Nat) (u : Scu) :
    (u.drawRegisters p k).instructionTrace = u.instructionTrace := rfl

/-! ### After a PUSH -/

@[simp] theorem Scu.pushed_operandStack (p : Params) (k : Nat) (v : Int) (u : Scu) :
    (u.pushed p k v).operandStack = u.operandStack ++ [v] := rfl

@[simp] theorem Scu.pushed_SP (p : Params) (k : Nat) (v : Int) (u : Scu) :
    (u.pushed p k v).SP = u.SP - 1 := rfl

@[simp] theorem Scu.pushed_AX (p : Params) (k : Nat) (v : Int) (u : Scu) :
    (u.pushed p k v).AX = cellValue p (Config.anyAX k) := rfl

@[simp] theorem Scu.pushed_BX (p : Params) (k : Nat) (v : Int) (u : Scu) :
    (u.pushed p k v).BX = cellValue p (Config.anyBX k) := rfl

@[simp] theorem Scu.pushed_CX (p : Params) (k : Nat) (v : Int) (u : Scu) :
    (u.pushed p k v).CX = cellValue p (Config.anyCX k) := rfl

@[simp] theorem Scu.pushed_DX (p : Params) (k : Nat) (v : Int) (u : Scu) :
    (u.pushed p k v).DX = cellValue p (Config.anyDX k) := rfl

@[simp] theorem Scu.pushed_flags (p : Params) (k : Nat) (v : Int) (u : Scu) :
    (u.pushed p k v).flags = u.flags := rfl

@[simp] theorem Scu.pushed_instructionTrace (p : Params) (k : Nat) (v : Int) (u : Scu) :
    (u.pushed p k v).instructionTrace = u.instructionTrace ++ [Config.anyLine k] := rfl

/-! ### After a POP -/

@[simp] theorem Scu.popped_operandStack (p : Params) (k : Nat) (below : List Int) (u : Scu) :
    (u.popped p k below).operandStack = below := rfl

@[simp] theorem Scu.popped_SP (p : Params) (k : Nat) (below : List Int) (u : Scu) :
    (u.popped p k below).SP = u.SP + 1 := rfl

@[simp] theorem Scu.popped_AX (p : Params) (k : Nat) (below : List Int) (u : Scu) :
    (u.popped p k below).AX = cellValue p (Config.anyAX k) := rfl

@[simp] theorem Scu.popped_BX (p : Params) (k : Nat) (below : List Int) (u : Scu) :
    (u.popped p k below).BX = cellValue p (Config.anyBX k) := rfl

@[simp] theorem Scu.popped_CX (p : Params) (k : Nat) (below : List Int) (u : Scu) :
    (u.popped p k below).CX = cellValue p (Config.anyCX k) := rfl

@[simp] theorem Scu.popped_DX (p : Params) (k : Nat) (below : List Int) (u : Scu) :
    (u.popped p k below).DX = cellValue p (Config.anyDX k) := rfl

@[simp] theorem Scu.popped_flags (p : Params) (k : Nat) (below : List Int) (u : Scu) :
    (u.popped p k below).flags = u.flags := rfl

@[simp] theorem Scu.popped_instructionTrace (p : Params) (k : Nat) (below : List Int) (u : Scu) :
    (u.popped p k below).instructionTrace = u.instructionTrace ++ Config.anyMoreLines k := rfl

/-! ### After a binary operation -/

@[simp] theorem Scu.computed_operandStack (p : Params) (k : Nat) (below : List Int) (r : Int) (f : Flags) (u : Scu) :
    (u.computed p k below r f).operandStack = below ++ [r] := rfl

@[simp] theorem Scu.computed_SP (p : Params) (k : Nat) (below : List Int) (r : Int) (f : Flags) (u : Scu) :
    (u.computed p k below r f).SP = u.SP + 1 := rfl

@[simp] theorem Scu.computed_AX (p : Params) (k : Nat) (below : List Int) (r : Int) (f : Flags) (u : Scu) :
    (u.computed p k below r f).AX = cellValue p (Config.anyAX k) := rfl

@[simp] theorem Scu.computed_BX (p : Params) (k : Nat) (below : List Int) (r : Int) (f : Flags) (u : Scu) :
    (u.computed p k below r f).BX = cellValue p (Config.anyBX k) := rfl

@[simp] theorem Scu.computed_CX (p : Params) (k : Nat) (below : List Int) (r : Int) (f : Flags) (u : Scu) :
    (u.computed p k below r f).CX = cellValue p (Config.anyCX k) := rfl

@[simp] theorem Scu.computed_DX (p : Params) (k : Nat) (below : List Int) (r : Int) (f : Flags) (u : Scu) :
    (u.computed p k below r f).DX = cellValue p (Config.anyDX k) := rfl

@[simp] theorem Scu.computed_flags (p : Params) (k : Nat) (below : List Int) (r : Int) (f : Flags) (u : Scu) :
    (u.computed p k below r f).flags = f := rfl

@[simp] theorem Scu.computed_instructionTrace (p : Params) (k : Nat) (below : List Int) (r : Int) (f : Flags) (u : Scu) :
    (u.computed p k below r f).instructionTrace = u.instructionTrace ++ Config.anyLine k :: Config.anyMoreLines k := rfl

/-! ### The initial memory unit -/

@[simp] theorem MemUnit.initial_mem (p : Params) :
    (MemUnit.initial p).mem = [] := rfl

@[simp] theorem MemUnit.initial_CS (p : Params) :
    (MemUnit.initial p).CS = p.SEG_RESET_CS := rfl

@[simp] theorem MemUnit.initial_DS (p : Params) :
    (MemUnit.initial p).DS = p.SEG_RESET_DS := rfl

@[simp] theorem MemUnit.initial_SS (p : Params) :
    (MemUnit.initial p).SS = p.SEG_RESET_SS := rfl

@[simp] theorem MemUnit.initial_ES (p : Params) :
    (MemUnit.initial p).ES = p.SEG_RESET_ES := rfl

@[simp] theorem MemUnit.initial_written (p : Params) :
    (MemUnit.initial p).written = [] := rfl

@[simp] theorem MemUnit.initial_readCount (p : Params) :
    (MemUnit.initial p).readCount = 0 := rfl

@[simp] theorem MemUnit.initial_writeCount (p : Params) :
    (MemUnit.initial p).writeCount = 0 := rfl

@[simp] theorem MemUnit.initial_opLog (p : Params) :
    (MemUnit.initial p).opLog = [] := rfl

/-! ### The free statistics -/

@[simp] theorem MemUnit.anyStatistics_mem (k : Nat) (u : MemUnit) :
    (u.anyStatistics k).mem = u.mem := rfl

@[simp] theorem MemUnit.anyStatistics_CS (k : Nat) (u : MemUnit) :
    (u.anyStatistics k).CS = u.CS := rfl

@[simp] theorem MemUnit.anyStatistics_DS (k : Nat) (u : MemUnit) :
    (u.anyStatistics k).DS = u.DS := rfl

@[simp] theorem MemUnit.anyStatistics_SS (k : Nat) (u : MemUnit) :
    (u.anyStatistics k).SS = u.SS := rfl

@[simp] theorem MemUnit.anyStatistics_ES (k : Nat) (u : MemUnit) :
    (u.anyStatistics k).ES = u.ES := rfl

@[simp] theorem MemUnit.anyStatistics_written (k : Nat) (u : MemUnit) :
    (u.anyStatistics k).written = u.written := rfl

@[simp] theorem MemUnit.anyStatistics_readCount (k : Nat) (u : MemUnit) :
    (u.anyStatistics k).readCount = u.readCount + Config.anyReadsCounted k := rfl

@[simp] theorem MemUnit.anyStatistics_writeCount (k : Nat) (u : MemUnit) :
    (u.anyStatistics k).writeCount = u.writeCount + Config.anyWritesCounted k := rfl

@[simp] theorem MemUnit.anyStatistics_opLog (k : Nat) (u : MemUnit) :
    (u.anyStatistics k).opLog = appendLog u.opLog (Config.anyLogged k) := rfl

/-! ### The free membership -/

@[simp] theorem MemUnit.anyMembership_mem (k start count : Nat) (u : MemUnit) :
    (u.anyMembership k start count).mem = u.mem := rfl

@[simp] theorem MemUnit.anyMembership_CS (k start count : Nat) (u : MemUnit) :
    (u.anyMembership k start count).CS = u.CS := rfl

@[simp] theorem MemUnit.anyMembership_DS (k start count : Nat) (u : MemUnit) :
    (u.anyMembership k start count).DS = u.DS := rfl

@[simp] theorem MemUnit.anyMembership_SS (k start count : Nat) (u : MemUnit) :
    (u.anyMembership k start count).SS = u.SS := rfl

@[simp] theorem MemUnit.anyMembership_ES (k start count : Nat) (u : MemUnit) :
    (u.anyMembership k start count).ES = u.ES := rfl

@[simp] theorem MemUnit.anyMembership_readCount (k start count : Nat) (u : MemUnit) :
    (u.anyMembership k start count).readCount = u.readCount := rfl

@[simp] theorem MemUnit.anyMembership_writeCount (k start count : Nat) (u : MemUnit) :
    (u.anyMembership k start count).writeCount = u.writeCount := rfl

@[simp] theorem MemUnit.anyMembership_opLog (k start count : Nat) (u : MemUnit) :
    (u.anyMembership k start count).opLog = u.opLog := rfl

/-! ### SEARCH and INSPECT -/

@[simp] theorem MemUnit.scanned_mem (k : Nat) (u : MemUnit) :
    (u.scanned k).mem = u.mem := rfl

@[simp] theorem MemUnit.scanned_CS (k : Nat) (u : MemUnit) :
    (u.scanned k).CS = u.CS := rfl

@[simp] theorem MemUnit.scanned_DS (k : Nat) (u : MemUnit) :
    (u.scanned k).DS = u.DS := rfl

@[simp] theorem MemUnit.scanned_SS (k : Nat) (u : MemUnit) :
    (u.scanned k).SS = u.SS := rfl

@[simp] theorem MemUnit.scanned_ES (k : Nat) (u : MemUnit) :
    (u.scanned k).ES = u.ES := rfl

@[simp] theorem MemUnit.scanned_readCount (k : Nat) (u : MemUnit) :
    (u.scanned k).readCount = u.readCount + Config.anyReadsCounted k := rfl

@[simp] theorem MemUnit.scanned_writeCount (k : Nat) (u : MemUnit) :
    (u.scanned k).writeCount = u.writeCount + Config.anyWritesCounted k := rfl

@[simp] theorem MemUnit.scanned_opLog (k : Nat) (u : MemUnit) :
    (u.scanned k).opLog = appendLog u.opLog (Config.anyLogged k) := rfl

/-! ### The projection -/

@[simp] theorem MemUnit.project_mem (k : Nat) (stack : List Int) (vacated : Bool) (u : MemUnit) :
    (u.project k stack vacated).mem = projectSlots u.SS 0 (if vacated then vacateSlot k u.SS stack.length u.mem else u.mem) stack := rfl

@[simp] theorem MemUnit.project_CS (k : Nat) (stack : List Int) (vacated : Bool) (u : MemUnit) :
    (u.project k stack vacated).CS = u.CS := rfl

@[simp] theorem MemUnit.project_DS (k : Nat) (stack : List Int) (vacated : Bool) (u : MemUnit) :
    (u.project k stack vacated).DS = u.DS := rfl

@[simp] theorem MemUnit.project_SS (k : Nat) (stack : List Int) (vacated : Bool) (u : MemUnit) :
    (u.project k stack vacated).SS = u.SS := rfl

@[simp] theorem MemUnit.project_ES (k : Nat) (stack : List Int) (vacated : Bool) (u : MemUnit) :
    (u.project k stack vacated).ES = u.ES := rfl

@[simp] theorem MemUnit.project_readCount (k : Nat) (stack : List Int) (vacated : Bool) (u : MemUnit) :
    (u.project k stack vacated).readCount = u.readCount + Config.anyReadsCounted k := rfl

@[simp] theorem MemUnit.project_writeCount (k : Nat) (stack : List Int) (vacated : Bool) (u : MemUnit) :
    (u.project k stack vacated).writeCount = u.writeCount + Config.anyWritesCounted k := rfl

@[simp] theorem MemUnit.project_opLog (k : Nat) (stack : List Int) (vacated : Bool) (u : MemUnit) :
    (u.project k stack vacated).opLog = appendLog u.opLog (Config.anyLogged k) := rfl

/-! ### After a READB -/

@[simp] theorem MemUnit.afterRead_mem (k addr : Nat) (u : MemUnit) :
    (u.afterRead k addr).mem = u.mem := rfl

@[simp] theorem MemUnit.afterRead_CS (k addr : Nat) (u : MemUnit) :
    (u.afterRead k addr).CS = u.CS := rfl

@[simp] theorem MemUnit.afterRead_DS (k addr : Nat) (u : MemUnit) :
    (u.afterRead k addr).DS = u.DS := rfl

@[simp] theorem MemUnit.afterRead_SS (k addr : Nat) (u : MemUnit) :
    (u.afterRead k addr).SS = u.SS := rfl

@[simp] theorem MemUnit.afterRead_ES (k addr : Nat) (u : MemUnit) :
    (u.afterRead k addr).ES = u.ES := rfl

@[simp] theorem MemUnit.afterRead_written (k addr : Nat) (u : MemUnit) :
    (u.afterRead k addr).written = u.written := rfl

@[simp] theorem MemUnit.afterRead_readCount (k addr : Nat) (u : MemUnit) :
    (u.afterRead k addr).readCount = u.readCount + 1 := rfl

@[simp] theorem MemUnit.afterRead_writeCount (k addr : Nat) (u : MemUnit) :
    (u.afterRead k addr).writeCount = u.writeCount := rfl

/-! ### After a WRITEB -/

@[simp] theorem MemUnit.afterWrite_mem (k addr : Nat) (v : Byte) (u : MemUnit) :
    (u.afterWrite k addr v).mem = u.mem.write addr v := rfl

@[simp] theorem MemUnit.afterWrite_CS (k addr : Nat) (v : Byte) (u : MemUnit) :
    (u.afterWrite k addr v).CS = u.CS := rfl

@[simp] theorem MemUnit.afterWrite_DS (k addr : Nat) (v : Byte) (u : MemUnit) :
    (u.afterWrite k addr v).DS = u.DS := rfl

@[simp] theorem MemUnit.afterWrite_SS (k addr : Nat) (v : Byte) (u : MemUnit) :
    (u.afterWrite k addr v).SS = u.SS := rfl

@[simp] theorem MemUnit.afterWrite_ES (k addr : Nat) (v : Byte) (u : MemUnit) :
    (u.afterWrite k addr v).ES = u.ES := rfl

@[simp] theorem MemUnit.afterWrite_written (k addr : Nat) (v : Byte) (u : MemUnit) :
    (u.afterWrite k addr v).written = addAddress addr u.written := rfl

@[simp] theorem MemUnit.afterWrite_readCount (k addr : Nat) (v : Byte) (u : MemUnit) :
    (u.afterWrite k addr v).readCount = u.readCount := rfl

@[simp] theorem MemUnit.afterWrite_writeCount (k addr : Nat) (v : Byte) (u : MemUnit) :
    (u.afterWrite k addr v).writeCount = u.writeCount + 1 := rfl

/-! ### After a FILL -/

@[simp] theorem MemUnit.afterFill_mem (k start count : Nat) (v : Byte) (u : MemUnit) :
    (u.afterFill k start count v).mem = u.mem.fill start count v := rfl

@[simp] theorem MemUnit.afterFill_CS (k start count : Nat) (v : Byte) (u : MemUnit) :
    (u.afterFill k start count v).CS = u.CS := rfl

@[simp] theorem MemUnit.afterFill_DS (k start count : Nat) (v : Byte) (u : MemUnit) :
    (u.afterFill k start count v).DS = u.DS := rfl

@[simp] theorem MemUnit.afterFill_SS (k start count : Nat) (v : Byte) (u : MemUnit) :
    (u.afterFill k start count v).SS = u.SS := rfl

@[simp] theorem MemUnit.afterFill_ES (k start count : Nat) (v : Byte) (u : MemUnit) :
    (u.afterFill k start count v).ES = u.ES := rfl

@[simp] theorem MemUnit.afterFill_readCount (k start count : Nat) (v : Byte) (u : MemUnit) :
    (u.afterFill k start count v).readCount = u.readCount + Config.anyReadsCounted k := rfl

@[simp] theorem MemUnit.afterFill_writeCount (k start count : Nat) (v : Byte) (u : MemUnit) :
    (u.afterFill k start count v).writeCount = u.writeCount + Config.anyWritesCounted k := rfl

@[simp] theorem MemUnit.afterFill_opLog (k start count : Nat) (v : Byte) (u : MemUnit) :
    (u.afterFill k start count v).opLog = appendLog u.opLog (Config.anyLogged k) := rfl

/-! ### Responses -/

@[simp] theorem Response.done_status  :
    (Response.done).status = .ok := rfl

@[simp] theorem Response.done_res0  :
    (Response.done).res0 = none := rfl

@[simp] theorem Response.done_res1  :
    (Response.done).res1 = none := rfl

@[simp] theorem Response.done_resRec  :
    (Response.done).resRec = none := rfl

/-! ### Responses with a value -/

@[simp] theorem Response.value_status (v : Int) :
    (Response.value v).status = .ok := rfl

@[simp] theorem Response.value_res0 (v : Int) :
    (Response.value v).res0 = some v := rfl

@[simp] theorem Response.value_res1 (v : Int) :
    (Response.value v).res1 = none := rfl

@[simp] theorem Response.value_resRec (v : Int) :
    (Response.value v).resRec = none := rfl

/-! ### Responses with a word -/

@[simp] theorem Response.word_status (w : Nat) (k : Kind) :
    (Response.word w k).status = .ok := rfl

@[simp] theorem Response.word_res0 (w : Nat) (k : Kind) :
    (Response.word w k).res0 = some (w : Int) := rfl

@[simp] theorem Response.word_res1 (w : Nat) (k : Kind) :
    (Response.word w k).res1 = some k.code := rfl

@[simp] theorem Response.word_resRec (w : Nat) (k : Kind) :
    (Response.word w k).resRec = none := rfl

/-! ### Responses with a record -/

@[simp] theorem Response.record_status (r : ResultRecord) :
    (Response.record r).status = .ok := rfl

@[simp] theorem Response.record_res0 (r : ResultRecord) :
    (Response.record r).res0 = none := rfl

@[simp] theorem Response.record_res1 (r : ResultRecord) :
    (Response.record r).res1 = none := rfl

@[simp] theorem Response.record_resRec (r : ResultRecord) :
    (Response.record r).resRec = some r := rfl

/-! ### Responses with a value and a record -/

@[simp] theorem Response.valueRecord_status (v : Int) (r : ResultRecord) :
    (Response.valueRecord v r).status = .ok := rfl

@[simp] theorem Response.valueRecord_res0 (v : Int) (r : ResultRecord) :
    (Response.valueRecord v r).res0 = some v := rfl

@[simp] theorem Response.valueRecord_res1 (v : Int) (r : ResultRecord) :
    (Response.valueRecord v r).res1 = none := rfl

@[simp] theorem Response.valueRecord_resRec (v : Int) (r : ResultRecord) :
    (Response.valueRecord v r).resRec = some r := rfl

/-! ### Error responses -/

@[simp] theorem Response.error_status (e : Status) :
    (Response.error e).status = e := rfl

@[simp] theorem Response.error_res0 (e : Status) :
    (Response.error e).res0 = none := rfl

@[simp] theorem Response.error_res1 (e : Status) :
    (Response.error e).res1 = none := rfl

@[simp] theorem Response.error_resRec (e : Status) :
    (Response.error e).resRec = none := rfl

end Sys2Proof.Machine
end

