-- ==== Sys2Proof/Laws/Ops.lean ====
section
/-! SUPPORT. For each shared operation, once, everything it can do. -/

namespace Sys2Proof.Machine

variable {s t : State}

/-! ### Answering and failing -/

theorem State.respond_eq (r : Response) (s : State) : s.respond r = .next { s with response := some r } := rfl

/-- `raise` changes nothing but the response (R253). -/
theorem State.raise_eq (e : Status) (s : State) :
    s.raise e = .next { s with response := some (Response.error e) } := rfl

@[simp] theorem State.respond_next_iff (r : Response) :
    s.respond r = .next t ↔ t = { s with response := some r } := by
  rw [State.respond_eq]
  exact ⟨fun h => by cases h; rfl, fun h => by rw [h]⟩

@[simp] theorem State.raise_next_iff (e : Status) :
    s.raise e = .next t ↔ t = { s with response := some (Response.error e) } :=
  State.respond_next_iff _

/-- A MEM command is performed, or refused with IllegalCommand when no memory is attached (R81). -/
theorem State.ifAttached_cases {act : State → Result} (h : s.ifAttached act = .next t) :
    s.params.MEM_ATTACHED = true ∧ act s = .next t ∨
      s.params.MEM_ATTACHED = false ∧ t = { s with response := some (Response.error .illegalCommand) } := by
  unfold State.ifAttached at h
  by_cases ha : s.params.MEM_ATTACHED = true
  · rw [if_pos ha] at h; exact .inl ⟨ha, h⟩
  · rw [if_neg ha] at h
    exact .inr ⟨by simpa using ha, (State.raise_next_iff _).1 h⟩

/-! ### The end of a stack command -/

/-- A stack command that completes leaves its SCU state and its response; the memory unit is projected when a memory
is attached and unchanged when not (R60, R64). -/
theorem State.commitStack_cases {scu : Scu} {vacated : Bool} {r : Response}
    (h : s.commitStack scu vacated r = .next t) :
    (s.params.MEM_ATTACHED = true ∧
        projectionFits s.memUnit.SS (slotsTouched scu.operandStack vacated) = true ∧
        t = { s with
              scu := scu
              memUnit := s.memUnit.project s.draws scu.operandStack vacated
              response := some r }) ∨
      (s.params.MEM_ATTACHED = false ∧ t = { s with scu := scu, response := some r }) := by
  unfold State.commitStack at h
  by_cases ha : s.params.MEM_ATTACHED = true
  · rw [if_pos ha] at h
    by_cases hf : projectionFits s.memUnit.SS (slotsTouched scu.operandStack vacated) = true
    · rw [if_pos hf] at h
      exact .inl ⟨ha, hf, (State.respond_next_iff _).1 h⟩
    · rw [if_neg hf] at h; cases h
  · rw [if_neg ha] at h
    exact .inr ⟨by simpa using ha, (State.respond_next_iff _).1 h⟩

/-- Whatever the memory does, a stack command that completes leaves its SCU state, its response and the rest. -/
theorem State.commitStack_frame {scu : Scu} {vacated : Bool} {r : Response}
    (h : s.commitStack scu vacated r = .next t) :
    t.scu = scu ∧ t.response = some r ∧ t.bmu = s.bmu ∧ t.params = s.params ∧ t.inputs = s.inputs ∧
      t.draws = s.draws ∧ t.memUnit.CS = s.memUnit.CS ∧ t.memUnit.DS = s.memUnit.DS ∧
      t.memUnit.SS = s.memUnit.SS ∧ t.memUnit.ES = s.memUnit.ES := by
  obtain ⟨-, -, rfl⟩ | ⟨-, rfl⟩ := State.commitStack_cases h <;> exact ⟨rfl, rfl, rfl, rfl, rfl, rfl, rfl, rfl, rfl, rfl⟩

/-- A binary operation that answers (R174): it fails on fewer than two elements, on a right operand 0 of DIV and MOD
and on a result outside a finite `CELL_BITS`, in this order (R256), and else replaces the two top elements. -/
theorem State.binaryOp_cases {op : BinOp} (h : s.binaryOp op = .next t) :
    (s.scu.operandStack.length < 2 ∧ t = { s with response := some (Response.error .stackUnderflow) }) ∨
      (∃ below a b, s.scu.operandStack = below ++ [a, b] ∧
        ((op.divides = true ∧ b = 0 ∧ t = { s with response := some (Response.error .divisionByZero) }) ∨
          (¬ (op.divides = true ∧ b = 0) ∧ cellFits s.params (op.result s.params.DIV_ROUND a b) = false ∧
            t = { s with response := some (Response.error .cellRange) }) ∨
          (¬ (op.divides = true ∧ b = 0) ∧ cellFits s.params (op.result s.params.DIV_ROUND a b) = true ∧
            s.commitStack
              (s.scu.computed s.params s.draws below (op.result s.params.DIV_ROUND a b)
                (flagsOf op a b (op.result s.params.DIV_ROUND a b))) true
              (.value (op.result s.params.DIV_ROUND a b)) = .next t))) := by
  unfold State.binaryOp at h
  rcases hr : s.scu.operandStack.reverse with _ | ⟨b, _ | ⟨a, below⟩⟩
  · rw [hr] at h
    left
    refine ⟨?_, (State.raise_next_iff _).1 h⟩
    rw [← List.length_reverse, hr]; decide
  · rw [hr] at h
    left
    refine ⟨?_, (State.raise_next_iff _).1 h⟩
    rw [← List.length_reverse, hr]; simp
  · rw [hr] at h
    right
    refine ⟨below.reverse, a, b, ?_, ?_⟩
    · rw [← List.reverse_reverse s.scu.operandStack, hr]; simp
    · simp only at h
      by_cases hz : op.divides = true ∧ b = 0
      · rw [if_pos hz] at h
        exact .inl ⟨hz.1, hz.2, (State.raise_next_iff _).1 h⟩
      · rw [if_neg hz] at h
        by_cases hf : cellFits s.params (op.result s.params.DIV_ROUND a b) = true
        · rw [if_pos hf] at h
          exact .inr (.inr ⟨hz, hf, h⟩)
        · rw [if_neg hf] at h
          exact .inr (.inl ⟨hz, by simpa using hf, (State.raise_next_iff _).1 h⟩)

/-- A binary operation on a stack with two elements on top, as an equation (R174). -/
theorem State.binaryOp_eq {op : BinOp} {below : List Int} {a b : Int}
    (hs : s.scu.operandStack = below ++ [a, b]) :
    s.binaryOp op =
      if op.divides ∧ b = 0 then s.raise .divisionByZero
      else if cellFits s.params (op.result s.params.DIV_ROUND a b) then
        s.commitStack
          (s.scu.computed s.params s.draws below (op.result s.params.DIV_ROUND a b)
            (flagsOf op a b (op.result s.params.DIV_ROUND a b))) true
          (.value (op.result s.params.DIV_ROUND a b))
      else s.raise .cellRange := by
  unfold State.binaryOp
  simp [hs]

/-! ### The operation log -/

/-- The log never exceeds `LOG_CAP` entries (R42). -/
theorem appendLog_length_le (log entries : List LogEntry) : (appendLog log entries).length ≤ logCap := by
  unfold appendLog
  rw [List.length_reverse, List.length_take]
  omega

end Sys2Proof.Machine
end

