-- ==== Sys2Proof/Laws/PerInstr.lean ====
section
/-! SUPPORT. Statements made for every instruction as syntax, one lemma per constructor. -/

namespace Sys2Proof.Laws.WordNamesMnemonic

/-- The command word alone selects the command (R77, R78): whatever the operand ports carry, the word of `i` decodes
to a well-formed command of `i`'s mnemonic. -/
def Statement (i : Instr) : Prop :=
  ∀ x y z : Int, ∃ j, decode { op := opcode i, arg0 := x, arg1 := y, arg2 := z } = .ok j ∧
    j.mnemonic = i.mnemonic ∧ j.wellFormed = true

/-- A pattern read from a port is a 64-bit pattern. -/
theorem isPattern64_argPattern64 (x : Int) : isPattern64 (argPattern64 x) = true := by
  unfold isPattern64 argPattern64
  rw [decide_eq_true_eq]
  omega

theorem fencS (v : Nat) : Statement (.fencS v) := fun x _ _ =>
  ⟨.fencS (argPattern64 x), by simp [decode, unitField, funcField, opcode], rfl, isPattern64_argPattern64 x⟩
theorem fencD (v : Nat) : Statement (.fencD v) := fun x _ _ =>
  ⟨.fencD (argPattern64 x), by simp [decode, unitField, funcField, opcode], rfl, isPattern64_argPattern64 x⟩
theorem fdec (w : Nat) (l : Int) : Statement (.fdec w l) := fun x y _ =>
  ⟨.fdec (argPattern64 x) y, by simp [decode, unitField, funcField, opcode], rfl, isPattern64_argPattern64 x⟩
theorem binit (m q w : Int) : Statement (.binit m q w) := fun x y z =>
  ⟨.binit x y z, by simp [decode, unitField, funcField, opcode], rfl, rfl⟩
theorem bstep : Statement .bstep := fun _ _ _ =>
  ⟨.bstep, by simp [decode, unitField, funcField, opcode], rfl, rfl⟩
theorem bresult : Statement .bresult := fun _ _ _ =>
  ⟨.bresult, by simp [decode, unitField, funcField, opcode], rfl, rfl⟩
theorem bview (i : Int) : Statement (.bview i) := fun x _ _ =>
  ⟨.bview x, by simp [decode, unitField, funcField, opcode], rfl, rfl⟩
theorem breset : Statement .breset := fun _ _ _ =>
  ⟨.breset, by simp [decode, unitField, funcField, opcode], rfl, rfl⟩
theorem push (v : Int) : Statement (.push v) := fun x _ _ =>
  ⟨.push x, by simp [decode, unitField, funcField, opcode], rfl, rfl⟩
theorem pop : Statement .pop := fun _ _ _ =>
  ⟨.pop, by simp [decode, unitField, funcField, opcode], rfl, rfl⟩
theorem peek : Statement .peek := fun _ _ _ =>
  ⟨.peek, by simp [decode, unitField, funcField, opcode], rfl, rfl⟩
theorem sreset : Statement .sreset := fun _ _ _ =>
  ⟨.sreset, by simp [decode, unitField, funcField, opcode], rfl, rfl⟩
theorem add : Statement .add := fun _ _ _ =>
  ⟨.add, by simp [decode, unitField, funcField, opcode], rfl, rfl⟩
theorem sub : Statement .sub := fun _ _ _ =>
  ⟨.sub, by simp [decode, unitField, funcField, opcode], rfl, rfl⟩
theorem mul : Statement .mul := fun _ _ _ =>
  ⟨.mul, by simp [decode, unitField, funcField, opcode], rfl, rfl⟩
theorem div : Statement .div := fun _ _ _ =>
  ⟨.div, by simp [decode, unitField, funcField, opcode], rfl, rfl⟩
theorem mod : Statement .mod := fun _ _ _ =>
  ⟨.mod, by simp [decode, unitField, funcField, opcode], rfl, rfl⟩
theorem readb (a : Int) : Statement (.readb a) := fun x _ _ =>
  ⟨.readb x, by simp [decode, unitField, funcField, opcode], rfl, rfl⟩
theorem writeb (a v : Int) : Statement (.writeb a v) := fun x y _ =>
  ⟨.writeb x y, by simp [decode, unitField, funcField, opcode], rfl, rfl⟩
theorem fill (a b v : Int) : Statement (.fill a b v) := fun x y z =>
  ⟨.fill x y z, by simp [decode, unitField, funcField, opcode], rfl, rfl⟩
theorem search (v : Int) : Statement (.search v) := fun x _ _ =>
  ⟨.search x, by simp [decode, unitField, funcField, opcode], rfl, rfl⟩
theorem inspect (a : Int) : Statement (.inspect a) := fun x _ _ =>
  ⟨.inspect x, by simp [decode, unitField, funcField, opcode], rfl, rfl⟩

end Sys2Proof.Laws.WordNamesMnemonic
end

