-- ==== Sys2Proof/Laws/Project.lean ====
section
/-! SUPPORT. What the stack projection stores (20_memory.md R60, R61): the bytes of each slot, and no other byte. -/

namespace Sys2Proof.Machine

variable {ss : Word16} {m : Memory}

theorem bytesOf16_length (v : Nat) : (bytesOf16 v).length = 2 := rfl

/-- An admitted slot lies in the memory. -/
theorem slotAddress_lt {i : Nat} (hfit : ss.toNat * 16 + 0xFFFF < memSize) : slotAddress ss i + 2 ≤ memSize := by
  unfold slotAddress; omega

/-- The slot at an admitted depth, without a truncated subtraction. -/
theorem slotAddress_eq {i : Nat} (hi : i < 32768) : slotAddress ss i + 2 * i + 1 = ss.toNat * 16 + 0xFFFF := by
  unfold slotAddress; omega

/-- A store of two bytes, read back. -/
theorem Memory.read_write16 {addr : Nat} {b₀ b₁ : Byte} (h : m.wf = true) (ha : addr + 2 ≤ memSize) (a' : Nat) :
    (m.writeBytes addr [b₀, b₁]).read a' =
      if a' = addr then b₀ else if a' = addr + 1 then b₁ else m.read a' := by
  rw [Memory.read_writeBytes _ h ha]
  by_cases h0 : a' = addr
  · subst h0; simp
  · by_cases h1 : a' = addr + 1
    · subst h1; simp
    · rw [if_neg h0, if_neg h1]
      by_cases hle : addr ≤ a'
      · rw [if_pos hle]
        obtain ⟨d, rfl⟩ : ∃ d, a' = addr + 2 + d := ⟨a' - (addr + 2), by omega⟩
        rw [show addr + 2 + d - addr = d + 2 by omega]
        rfl
      · rw [if_neg hle]

/-- The projection keeps the canonical form. -/
theorem wf_projectSlots (hfit : ss.toNat * 16 + 0xFFFF < memSize) (stack : List Int) (i : Nat) (h : m.wf = true) :
    (projectSlots ss i m stack).wf = true := by
  induction stack generalizing i m with
  | nil => exact h
  | cons v rest ih =>
    exact ih (i + 1) (Memory.wf_writeBytes _ h (slotAddress_lt hfit))

/-- The projection stores to no byte outside the slots of the elements (R61). -/
theorem read_projectSlots_frame (hfit : ss.toNat * 16 + 0xFFFF < memSize) (stack : List Int) (i : Nat)
    (h : m.wf = true) (addr : Nat)
    (ha : ∀ j < stack.length, addr ≠ slotAddress ss (i + j) ∧ addr ≠ slotAddress ss (i + j) + 1) :
    (projectSlots ss i m stack).read addr = m.read addr := by
  induction stack generalizing i m with
  | nil => rfl
  | cons v rest ih =>
    have h0 := ha 0 (by simp)
    rw [Nat.add_zero] at h0
    rw [projectSlots, ih (i + 1) (Memory.wf_writeBytes _ h (slotAddress_lt hfit)), bytesOf16,
      Memory.read_write16 h (slotAddress_lt hfit), if_neg h0.1, if_neg h0.2]
    intro j hj
    have := ha (j + 1) (by simpa using hj)
    rwa [show i + (j + 1) = i + 1 + j by omega] at this

/-- The projection leaves every element's low 16 bits at its slot, little-endian (R60, R62). -/
theorem read_projectSlots_slot (hfit : ss.toNat * 16 + 0xFFFF < memSize) (stack : List Int) (i : Nat)
    (h : m.wf = true) (hi : i + stack.length ≤ 32768) (j : Nat) (v : Int) (hv : stack[j]? = some v) :
    (projectSlots ss i m stack).read (slotAddress ss (i + j)) = BitVec.ofNat 8 (umod 16 v) ∧
      (projectSlots ss i m stack).read (slotAddress ss (i + j) + 1) = BitVec.ofNat 8 (umod 16 v / 256) := by
  induction stack generalizing i j m with
  | nil => simp at hv
  | cons w rest ih =>
    simp only [List.length_cons] at hi
    have hw := Memory.wf_writeBytes (m := m) (bytesOf16 (umod 16 w)) h (slotAddress_lt (i := i) hfit)
    cases j with
    | succ j =>
      rw [List.getElem?_cons_succ] at hv
      have := ih (i + 1) hw (by omega) j hv
      rwa [show i + 1 + j = i + (j + 1) by omega] at this
    | zero =>
      simp only [List.getElem?_cons_zero, Option.some.injEq] at hv
      subst hv
      have hframe : ∀ x, (x = slotAddress ss i ∨ x = slotAddress ss i + 1) →
          (projectSlots ss (i + 1) (m.writeBytes (slotAddress ss i) (bytesOf16 (umod 16 w))) rest).read x =
            (m.writeBytes (slotAddress ss i) (bytesOf16 (umod 16 w))).read x := by
        intro x hx
        apply read_projectSlots_frame hfit rest (i + 1) hw
        intro k hk
        have e0 := slotAddress_eq (ss := ss) (i := i) (by omega)
        have e1 := slotAddress_eq (ss := ss) (i := i + 1 + k) (by omega)
        omega
      rw [Nat.add_zero, projectSlots, hframe _ (.inl rfl), hframe _ (.inr rfl)]
      unfold bytesOf16
      constructor
      · rw [Memory.read_write16 h (slotAddress_lt hfit), if_pos rfl]
      · rw [Memory.read_write16 h (slotAddress_lt hfit), if_neg (by omega), if_pos rfl]

/-- Vacating a slot frees its two bytes and changes no other (R61). -/
theorem read_vacateSlot (hfit : ss.toNat * 16 + 0xFFFF < memSize) (k i : Nat) (h : m.wf = true) (addr : Nat) :
    (vacateSlot k ss i m).read addr =
      if addr = slotAddress ss i ∨ addr = slotAddress ss i + 1 then Config.anyVacated k addr else m.read addr := by
  unfold vacateSlot
  rw [Memory.read_write16 h (slotAddress_lt hfit)]
  by_cases h0 : addr = slotAddress ss i
  · subst h0; simp
  · by_cases h1 : addr = slotAddress ss i + 1
    · subst h1; simp
    · simp [h0, h1]

theorem wf_vacateSlot (hfit : ss.toNat * 16 + 0xFFFF < memSize) (k i : Nat) (h : m.wf = true) :
    (vacateSlot k ss i m).wf = true :=
  Memory.wf_writeBytes _ h (slotAddress_lt hfit)

end Sys2Proof.Machine
end

