-- ==== Sys2Proof/Laws/Statistics.lean ====
section
/-! SUPPORT. What the operations on the memory unit's statistics and the projection can do: the capped log, the set of
written addresses, and the projected unit as a whole. -/

namespace Sys2Proof.Machine

variable {start k : Nat}

/-- The capped log is a suffix of the whole log. -/
theorem appendLog_eq_drop (log entries : List LogEntry) :
    appendLog log entries = (log ++ entries).drop ((log ++ entries).length - logCap) := by
  rw [appendLog, List.take_reverse, List.reverse_reverse]

/-- One address added: membership. -/
theorem mem_addAddress (addr a : Nat) (l : List Nat) : a ∈ addAddress addr l ↔ a = addr ∨ a ∈ l := by
  induction l with
  | nil => simp [addAddress]
  | cons b rest ih =>
    unfold addAddress
    split
    · simp
    · split
      · next h => subst h; simp
      · simp only [List.mem_cons, ih]; tauto

@[simp] theorem addressSet_nil : addressSet start [] = true := rfl

@[simp] theorem addressSet_cons (a : Nat) (rest : List Nat) :
    addressSet start (a :: rest) = true ↔ (start ≤ a ∧ a < memSize) ∧ addressSet (a + 1) rest = true := by
  simp [addressSet]

theorem addressSet_mono {low : Nat} {l : List Nat} (hle : low ≤ start) (h : addressSet start l = true) :
    addressSet low l = true := by
  cases l with
  | nil => rfl
  | cons a rest =>
    rw [addressSet_cons] at h ⊢
    exact ⟨⟨hle.trans h.1.1, h.1.2⟩, h.2⟩

/-- One address added: the set stays in canonical form. -/
theorem addressSet_addAddress {addr : Nat} {l : List Nat} (h : addressSet start l = true) (hs : start ≤ addr)
    (ha : addr < memSize) : addressSet start (addAddress addr l) = true := by
  induction l generalizing start with
  | nil => simp [addAddress, hs, ha]
  | cons b rest ih =>
    rw [addressSet_cons] at h
    unfold addAddress
    split
    · simp only [addressSet_cons]
      exact ⟨⟨hs, ha⟩, ⟨by omega, h.1.2⟩, h.2⟩
    · split
      · simp only [addressSet_cons]; exact h
      · simp only [addressSet_cons]; exact ⟨h.1, ih h.2 (by omega)⟩

theorem addressSet_filter {l : List Nat} (q : Nat → Bool) (h : addressSet start l = true) :
    addressSet start (l.filter q) = true := by
  induction l generalizing start with
  | nil => rfl
  | cons b rest ih =>
    rw [addressSet_cons] at h
    rw [List.filter_cons]
    split
    · rw [addressSet_cons]; exact ⟨h.1, ih h.2⟩
    · exact addressSet_mono (by omega) (ih h.2)

theorem addressSet_append {mid : Nat} {l₁ l₂ : List Nat} (h₁ : addressSet start l₁ = true) (hlt : ∀ a ∈ l₁, a < mid)
    (h₂ : addressSet mid l₂ = true) (hle : start ≤ mid) : addressSet start (l₁ ++ l₂) = true := by
  induction l₁ generalizing start with
  | nil => exact addressSet_mono hle h₂
  | cons b rest ih =>
    rw [addressSet_cons] at h₁
    rw [List.cons_append, addressSet_cons]
    exact ⟨h₁.1, ih h₁.2 (fun a ha => hlt a (List.mem_cons_of_mem _ ha)) (hlt b List.mem_cons_self)⟩

theorem addressSet_range' {count : Nat} (hc : start + count ≤ memSize) :
    addressSet start (List.range' start count) = true := by
  induction count generalizing start with
  | zero => rfl
  | succ n ih =>
    rw [List.range'_succ, addressSet_cons]
    exact ⟨⟨Nat.le_refl _, by omega⟩, ih (by omega)⟩

theorem addressSet_above {low : Nat} {l : List Nat} (h : addressSet start l = true) :
    addressSet low (l.filter fun a => decide (low ≤ a)) = true := by
  induction l generalizing start with
  | nil => rfl
  | cons b rest ih =>
    rw [addressSet_cons] at h
    rw [List.filter_cons]
    split
    · next hb =>
      rw [addressSet_cons]
      exact ⟨⟨of_decide_eq_true hb, h.1.2⟩, addressSet_filter _ h.2⟩
    · exact ih h.2

/-- The free membership of an interval: outside it nothing changes. -/
theorem mem_anyMembership (k start count : Nat) (u : MemUnit) (a : Nat) (ha : ¬ (start ≤ a ∧ a < start + count)) :
    a ∈ (u.anyMembership k start count).written ↔ a ∈ u.written := by
  simp only [MemUnit.anyMembership, List.mem_append, List.mem_filter, List.mem_range'_1, decide_eq_true_eq]
  constructor
  · rintro ((h | h) | h)
    · exact h.1
    · exact absurd h.1 ha
    · exact h.1
  · intro h
    by_cases hlt : a < start
    · exact Or.inl (Or.inl ⟨h, hlt⟩)
    · exact Or.inr ⟨h, by omega⟩

/-- The free membership of an interval keeps the set in canonical form. -/
theorem addressSet_anyMembership (k start count : Nat) (u : MemUnit) (h : addressSet 0 u.written = true)
    (hc : start + count ≤ memSize) : addressSet 0 (u.anyMembership k start count).written = true := by
  refine addressSet_append (mid := start + count) (addressSet_append (mid := start) (addressSet_filter _ h) ?_
    (addressSet_filter _ (addressSet_range' hc)) (Nat.zero_le _)) ?_ (addressSet_above h) (Nat.zero_le _)
  · intro a ha
    exact of_decide_eq_true (List.mem_filter.mp ha).2
  · intro a ha
    rcases List.mem_append.mp ha with ha | ha
    · exact Nat.lt_of_lt_of_le (of_decide_eq_true (List.mem_filter.mp ha).2) (Nat.le_add_right _ _)
    · have := (List.mem_range'_1.mp (List.mem_filter.mp ha).1); omega

/-- SEARCH and INSPECT keep the invariants of the memory unit, whatever they do to its statistics. -/
theorem MemUnit.scanned_consistent (k : Nat) {u : MemUnit} (h : MemConsistent u) : MemConsistent (u.scanned k) := by
  refine ⟨h.mem_wf, addressSet_anyMembership k 0 memSize (u.anyStatistics k) h.written_set (Nat.zero_add _).le, ?_,
    h.stack_segment⟩
  show (appendLog u.opLog (Config.anyLogged k)).length ≤ logCap
  rw [appendLog_eq_drop, List.length_drop]
  omega

/-- The projection leaves the segment registers and lowers no counter. -/
theorem MemUnit.project_frame (k : Nat) (stack : List Int) (vacated : Bool) (u : MemUnit) :
    (u.project k stack vacated).CS = u.CS ∧ (u.project k stack vacated).DS = u.DS ∧
      (u.project k stack vacated).SS = u.SS ∧ (u.project k stack vacated).ES = u.ES ∧
      u.readCount ≤ (u.project k stack vacated).readCount ∧ u.writeCount ≤ (u.project k stack vacated).writeCount :=
  ⟨rfl, rfl, rfl, rfl, Nat.le_add_right _ _, Nat.le_add_right _ _⟩

/-- The projection keeps the invariants of the memory unit. -/
theorem MemUnit.project_consistent (k : Nat) (stack : List Int) (vacated : Bool) {u : MemUnit} (h : MemConsistent u)
    (hfit : projectionFits u.SS (slotsTouched stack vacated) = true) : MemConsistent (u.project k stack vacated) := by
  have hf := of_decide_eq_true hfit
  refine ⟨?_, ?_, ?_, h.stack_segment⟩
  · show Memory.wf (projectSlots u.SS 0 _ stack) = true
    refine wf_projectSlots hf.1 stack 0 ?_
    split
    · exact wf_vacateSlot hf.1 k stack.length h.mem_wf
    · exact h.mem_wf
  · exact addressSet_anyMembership k _ _ (u.anyStatistics k) h.written_set (by have := hf.2; have := hf.1; omega)
  · show (appendLog u.opLog (Config.anyLogged k)).length ≤ logCap
    rw [appendLog_eq_drop, List.length_drop]
    omega

end Sys2Proof.Machine
end

