-- ==== Sys2Proof/Laws/Words.lean ====
section
/-! SUPPORT. Words of `n` bits and their two readings (00_scope.md R11, R13): what `umod`, `sval`, `bitString` and
`bitStringValue` give. -/

namespace Sys2Proof.Machine

/-- The low bits of an integer are a word. -/
theorem umod_lt (n : Nat) (v : Int) : umod n v < 2 ^ n := by
  have hp : (0 : Int) < 2 ^ n := Int.pow_pos (by decide)
  have h1 := Int.emod_nonneg v hp.ne'
  have h2 := Int.emod_lt_of_pos v hp
  have : ((umod n v : Nat) : Int) < 2 ^ n := by rw [umod, Int.toNat_of_nonneg h1]; exact h2
  exact_mod_cast this

/-- The low bits of an integer, as an integer. -/
theorem umod_cast (n : Nat) (v : Int) : ((umod n v : Nat) : Int) = v % 2 ^ n :=
  Int.toNat_of_nonneg (Int.emod_nonneg v (Int.pow_pos (by decide)).ne')

/-- A word is its own low bits. -/
theorem umod_of_lt {n w : Nat} (h : w < 2 ^ n) : umod n w = w := by
  have : ((umod n w : Nat) : Int) = w := by
    rw [umod_cast]
    exact Int.emod_eq_of_lt (Int.natCast_nonneg _) (by exact_mod_cast h)
  exact_mod_cast this

/-- The sign bit of a word of `n + 1` bits. -/
theorem testBit_sign {n w : Nat} (h : w < 2 ^ (n + 1)) : w.testBit n = decide (2 ^ n ≤ w) := by
  rw [Nat.testBit_eq_decide_div_mod_eq]
  have hp : 0 < 2 ^ n := Nat.pow_pos (by decide)
  have hw : w / 2 ^ n < 2 := Nat.div_lt_of_lt_mul (by rw [Nat.pow_succ] at h; omega)
  congr 1
  rw [Nat.mod_eq_of_lt hw, eq_iff_iff]
  constructor
  · intro e
    by_contra hlt
    rw [Nat.div_eq_of_lt (by omega)] at e
    omega
  · intro hle
    have : 1 ≤ w / 2 ^ n := (Nat.le_div_iff_mul_le hp).mpr (by omega)
    omega

/-- The signed reading of a word of `n + 1` bits, by its size. -/
theorem sval_succ {n w : Nat} (h : w < 2 ^ (n + 1)) :
    sval (n + 1) w = if 2 ^ n ≤ w then (w : Int) - 2 ^ (n + 1) else w := by
  unfold sval
  rw [Nat.add_sub_cancel, testBit_sign h]
  simp only [decide_eq_true_eq]

/-- The signed reading of a word lies in the two's-complement range. -/
theorem inSignedRange_sval {n w : Nat} (h : w < 2 ^ (n + 1)) : inSignedRange (n + 1) (sval (n + 1) w) = true := by
  unfold inSignedRange
  rw [decide_eq_true_eq, sval_succ h, Nat.add_sub_cancel]
  have h' : (w : Int) < 2 * 2 ^ n := by rw [Nat.pow_succ'] at h; exact_mod_cast h
  have hp : (2 : Int) ^ (n + 1) = 2 * 2 ^ n := by rw [pow_succ]; ring
  split
  · next hle =>
    have : ((2 ^ n : Nat) : Int) ≤ w := by exact_mod_cast hle
    push_cast at this
    rw [hp]
    constructor <;> omega
  · next hlt =>
    have : (w : Int) < ((2 ^ n : Nat) : Int) := by exact_mod_cast (Nat.lt_of_not_le hlt)
    push_cast at this
    constructor <;> omega

/-- The word of a signed reading is the word. -/
theorem umod_sval {n w : Nat} (h : w < 2 ^ n) : umod n (sval n w) = w := by
  have e : ((umod n (sval n w) : Nat) : Int) = w := by
    rw [umod_cast, sval]
    have hw : (w : Int) % 2 ^ n = w := Int.emod_eq_of_lt (Int.natCast_nonneg _) (by exact_mod_cast h)
    split
    · rw [Int.sub_emod_right, hw]
    · exact hw
  exact_mod_cast e

/-- A free register value fits the cells (R6). -/
theorem cellFits_cellValue {p : Params} (v : Int) (h : ∀ n ∈ p.CELL_BITS, 1 ≤ n) :
    cellFits p (cellValue p v) = true := by
  unfold cellFits cellValue
  cases hc : p.CELL_BITS with
  | none => rfl
  | some n =>
    obtain ⟨k, rfl⟩ : ∃ k, n = k + 1 := ⟨n - 1, by have := h n (by simp [hc]); omega⟩
    exact inSignedRange_sval (umod_lt _ _)

/-- In an admitted configuration the values that SP takes fit the cells (R6, R33). -/
theorem cellFits_of_admitted {p : Params} (h : p.admitted = true) {sp : Int} (h0 : 0 ≤ sp)
    (hle : sp ≤ p.MAX_STACK_SIZE) : cellFits p sp = true := by
  have hp := (of_decide_eq_true h).2.2.2.1
  unfold cellFits
  cases hc : p.CELL_BITS with
  | none => rfl
  | some n =>
    have hm : (p.MAX_STACK_SIZE : Int) < 2 ^ (n - 1) := by exact_mod_cast (hp n (by simp [hc])).2
    simp only [inSignedRange, decide_eq_true_eq]
    constructor <;> omega

/-! ### Bit strings -/

theorem bitStringValue_append (l₁ l₂ : List Bool) :
    bitStringValue (l₁ ++ l₂) = bitStringValue l₁ * 2 ^ l₂.length + bitStringValue l₂ := by
  have shift : ∀ (l : List Bool) (a : Nat),
      l.foldl (fun acc b => 2 * acc + b.toNat) a = a * 2 ^ l.length + l.foldl (fun acc b => 2 * acc + b.toNat) 0 := by
    intro l
    induction l with
    | nil => intro a; simp
    | cons b rest ih =>
      intro a
      rw [List.foldl_cons, List.foldl_cons, ih (2 * a + b.toNat), ih (2 * 0 + b.toNat), List.length_cons, Nat.pow_succ]
      ring
  unfold bitStringValue
  rw [List.foldl_append, shift l₂]

/-- A bit string is below the power of its length. -/
theorem bitStringValue_lt (l : List Bool) : bitStringValue l < 2 ^ l.length := by
  induction l using List.reverseRecOn with
  | nil => decide
  | append_singleton l b ih =>
    have hb : b.toNat < 2 := Bool.toNat_lt b
    have e : bitStringValue [b] = b.toNat := by simp [bitStringValue]
    rw [bitStringValue_append, List.length_append, e, List.length_singleton, Nat.pow_succ]
    omega

theorem bitString_length (n w : Nat) : (bitString n w).length = n := by simp [bitString]

theorem bitString_succ (n w : Nat) : bitString (n + 1) w = w.testBit n :: bitString n w := by
  simp [bitString, List.range_succ]

/-- The bits of a word are the word (R11). -/
theorem bitStringValue_bitString (n w : Nat) : bitStringValue (bitString n w) = w % 2 ^ n := by
  induction n with
  | zero => simp [bitString, bitStringValue, Nat.mod_one]
  | succ n ih =>
    have e : bitStringValue [w.testBit n] = (w.testBit n).toNat := by simp [bitStringValue]
    rw [bitString_succ, ← List.singleton_append, bitStringValue_append, ih, bitString_length, e, Nat.mod_pow_succ,
      Nat.toNat_testBit]
    ring

end Sys2Proof.Machine
end

