-- ==== Sys2Proof/Tests/Slice0.lean ====
section
/-! SUPPORT. Tests: the well-formedness checks, the decoding of every command's word written out from the table of
30_encoding.md R80, vectors of 95_test_vectors.md (named in each test), and for every statement with hypotheses a
concrete state and operands that meet them (`witness_…`). -/

namespace Sys2Proof.Tests

-- One test after the other: many kernel evaluations at once need too many threads.
set_option Elab.async false

open Sys2Proof.Machine

/-! ### Well-formedness -/

theorem test_wf_refuses_fencS : (Instr.fencS (2 ^ 64)).wellFormed = false := by decide +kernel
theorem test_wf_refuses_fencD : (Instr.fencD (2 ^ 64)).wellFormed = false := by decide +kernel
theorem test_wf_refuses_fdec : (Instr.fdec (2 ^ 64) 32).wellFormed = false := by decide +kernel
theorem test_wf_admits_last : (Instr.fencS (2 ^ 64 - 1)).wellFormed = true := by decide +kernel

/-! ### Decoding: the words of R80, bit by bit `unit ‖ func` -/

theorem test_decode_fencS : decode ⟨0b0000_0000#8, 1, 2, 3⟩ = .ok (.fencS 1) := by decide +kernel
theorem test_decode_fencD : decode ⟨0b0000_0001#8, 1, 2, 3⟩ = .ok (.fencD 1) := by decide +kernel
theorem test_decode_fdec : decode ⟨0b0000_0010#8, 1, 2, 3⟩ = .ok (.fdec 1 2) := by decide +kernel
theorem test_decode_binit : decode ⟨0b0001_0000#8, 1, 2, 3⟩ = .ok (.binit 1 2 3) := by decide +kernel
theorem test_decode_bstep : decode ⟨0b0001_0001#8, 1, 2, 3⟩ = .ok .bstep := by decide +kernel
theorem test_decode_bresult : decode ⟨0b0001_0010#8, 1, 2, 3⟩ = .ok .bresult := by decide +kernel
theorem test_decode_bview : decode ⟨0b0001_0011#8, 1, 2, 3⟩ = .ok (.bview 1) := by decide +kernel
theorem test_decode_breset : decode ⟨0b0001_0100#8, 1, 2, 3⟩ = .ok .breset := by decide +kernel
theorem test_decode_push : decode ⟨0b0010_0000#8, 1, 2, 3⟩ = .ok (.push 1) := by decide +kernel
theorem test_decode_pop : decode ⟨0b0010_0001#8, 1, 2, 3⟩ = .ok .pop := by decide +kernel
theorem test_decode_peek : decode ⟨0b0010_0010#8, 1, 2, 3⟩ = .ok .peek := by decide +kernel
theorem test_decode_sreset : decode ⟨0b0010_0011#8, 1, 2, 3⟩ = .ok .sreset := by decide +kernel
theorem test_decode_add : decode ⟨0b0010_1000#8, 1, 2, 3⟩ = .ok .add := by decide +kernel
theorem test_decode_sub : decode ⟨0b0010_1001#8, 1, 2, 3⟩ = .ok .sub := by decide +kernel
theorem test_decode_mul : decode ⟨0b0010_1010#8, 1, 2, 3⟩ = .ok .mul := by decide +kernel
theorem test_decode_div : decode ⟨0b0010_1011#8, 1, 2, 3⟩ = .ok .div := by decide +kernel
theorem test_decode_mod : decode ⟨0b0010_1100#8, 1, 2, 3⟩ = .ok .mod := by decide +kernel
theorem test_decode_readb : decode ⟨0b0011_0000#8, 1, 2, 3⟩ = .ok (.readb 1) := by decide +kernel
theorem test_decode_writeb : decode ⟨0b0011_0001#8, 1, 2, 3⟩ = .ok (.writeb 1 2) := by decide +kernel
theorem test_decode_fill : decode ⟨0b0011_0010#8, 1, 2, 3⟩ = .ok (.fill 1 2 3) := by decide +kernel
theorem test_decode_search : decode ⟨0b0011_0011#8, 1, 2, 3⟩ = .ok (.search 1) := by decide +kernel
theorem test_decode_inspect : decode ⟨0b0011_0100#8, 1, 2, 3⟩ = .ok (.inspect 1) := by decide +kernel

/-- A negative integer on a pattern port is its two's-complement pattern (R78). -/
theorem test_decode_negative_pattern : decode ⟨0x00#8, -1, 0, 0⟩ = .ok (.fencS (2 ^ 64 - 1)) := by decide +kernel
/-- The gap between SRESET and ADD is reserved (R81, program P8). -/
theorem test_decode_reserved_func : decode ⟨0x24#8, 0, 0, 0⟩ = .error (.reservedFunc 2 4) := by decide +kernel
theorem test_decode_reserved_unit : decode ⟨0xFF#8, 0, 0, 0⟩ = .error (.reservedUnit 15) := by decide +kernel
theorem test_table_word : decodeTableWord 8 0x2B = some .div := by decide +kernel
/-- The textual form of R83. -/
theorem test_text : (Instr.writeb 512 65).text = "WRITEB 512, 65" := by decide +kernel

/-! ### States for the tests -/

/-- The reset state with a stack (bottom first), `SP` in step. -/
def stacked (stack : List Int) (p : Params := Params.atReset) : State :=
  { State.reset with
    params := p
    scu := { State.reset.scu with operandStack := stack, SP := (p.MAX_STACK_SIZE : Int) - stack.length } }

/-- The reset state with bytes in memory. -/
def remembering (m : Memory) : State := { State.reset with memUnit := { State.reset.memUnit with mem := m } }

/-- The state with one host input left. -/
def given (input : HostInput) (s : State) : State := { s with inputs := [input] }

/-- Stack elements of 8 bits. -/
def narrow : Params := { Params.atReset with CELL_BITS := some 8 }

/-- A finite `CELL_BITS` is SP's width too (R6): 8 bits hold a stack of 8 elements, 4 bits do not. -/
theorem test_params_sp_width :
    narrow.admitted = true ∧ { narrow with CELL_BITS := some 4 }.admitted = false := by decide +kernel

/-- No memory attached. -/
def detached : Params := { Params.atReset with MEM_ATTACHED := false }

/-- A multiplication of `m` by `q` at width `w` after `k` steps. -/
def boothAt (w m q k : Nat) : Bmu :=
  Nat.rec
    { phase := .stepping, W := w, M := m, A := 0, Q := q, Q1 := false, currentStep := 0
      history := [{ step := 0, bits := 0b00#2, operation := .init, A := 0, Q := q, Q1 := false }] }
    (fun _ b => b.stepped) k

/-- The reset state with that multiplication. -/
def multiplying (w m q k : Nat) : State := { State.reset with bmu := boothAt w m q k }

/-- What a result says of the response. -/
def responseOf : Result → Option Response
  | .next t => t.response
  | .fault _ => none
  | .refused _ => none

/-- What a result says of the state. -/
def stateOf (s : State) : Result → State
  | .next t => t
  | .fault _ => s
  | .refused _ => s

/-- Whether a result is a next state. -/
def isNext : Result → Bool
  | .next _ => true
  | .fault _ => false
  | .refused _ => false

/-- A result that is a next state is that next state. -/
theorem next_stateOf {o : Result} (s : State) (h : isNext o = true) : o = .next (stateOf s o) := by
  cases o with
  | next t => rfl
  | fault f => cases h
  | refused r => cases h

/-! ### Vectors of 95_test_vectors.md -/

/-- P4, F10: 0.1 is truncated, not rounded. -/
theorem test_fencS_truncates :
    responseOf (exec (.fencS 0x3FB999999999999A) State.reset) =
      some (Claims.ok (some 0x3DCCCCCC) (some 0) none) := by decide +kernel
/-- F26: no subnormal is produced. -/
theorem test_fencS_range :
    responseOf (exec (.fencS 0x3800000000000000) State.reset) = some (Claims.failed .encodeRange) := by
  decide +kernel
/-- F43. -/
theorem test_fencD_smallest_normal :
    responseOf (exec (.fencD 0x0010000000000000) State.reset) =
      some (Claims.ok (some 0x0010000000000000) (some 0) none) := by decide +kernel
/-- X11: the hidden 1 is applied to exponent field 0. -/
theorem test_fdec_hidden_one :
    responseOf (exec (.fdec 0x00000001 32) State.reset) =
      some (Claims.ok (some 0x3800000020000000) (some 0) none) := by decide +kernel
/-- X32. -/
theorem test_fdec_double_exact :
    responseOf (exec (.fdec 2 64) State.reset) =
      some (Claims.ok (some 0x0008000000000001) (some 0) none) := by decide +kernel

/-- B1: `BINIT 5, -3, 8`. -/
theorem test_binit_registers :
    (stateOf State.reset (exec (.binit 5 (-3) 8) State.reset)).bmu.Q = 0b11111101 := by decide +kernel
/-- B1, step 1. -/
theorem test_bstep_sub :
    responseOf (exec .bstep (multiplying 8 5 0b11111101 0)) =
      some (Claims.ok (some 1) none
        (some (.booth ⟨1, 0b10#2, .sub, 0b11111101, 0b11111110, true⟩))) := by decide +kernel
/-- B2, step 3: an addition that carries out of the word. -/
theorem test_bstep_add :
    responseOf (exec .bstep (multiplying 4 0b1001 0b0011 2)) =
      some (Claims.ok (some 1) none (some (.booth ⟨3, 0b01#2, .add, 0b1101, 0b0110, false⟩))) := by decide +kernel
/-- P3, command 11. -/
theorem test_bresult :
    responseOf (exec .bresult (multiplying 8 5 0b11111101 8)) =
      some (Claims.ok (some (-15)) none none) := by decide +kernel
/-- B5, as corrected: the product of -8 and 3 at width 4 is answered negated. -/
theorem test_bresult_least_multiplicand :
    responseOf (exec .bresult (multiplying 4 8 3 4)) = some (Claims.ok (some 24) none none) := by decide +kernel
/-- P3, command 12. -/
theorem test_bview :
    responseOf (exec (.bview 3) (multiplying 8 5 0b11111101 8)) =
      some (Claims.ok none none
        (some (.booth ⟨3, 0b10#2, .sub, 0b11111110, 0b00111111, true⟩))) := by decide +kernel
theorem test_breset :
    (stateOf State.reset (exec .breset (multiplying 8 5 3 2))).bmu.phase = .idle := by decide +kernel

/-- K78. -/
theorem test_push_overflow :
    responseOf (exec (.push 9) (stacked [1, 2, 3, 4, 5, 6, 7, 8])) =
      some (Claims.failed .stackOverflow) := by decide +kernel
/-- K91: -2 is mirrored as FE FF. -/
theorem test_push_mirror :
    (stateOf State.reset (exec (.push (-2)) State.reset)).memUnit.mem = [(0xFFFE, 0xFE), (0xFFFF, 0xFF)] := by
  decide +kernel
/-- K81. -/
theorem test_pop :
    (stateOf State.reset (exec .pop (stacked [4, 9]))).scu.operandStack = [4] := by decide +kernel
/-- K80. -/
theorem test_peek : responseOf (exec .peek (stacked [4, 9])) = some (Claims.ok (some 9) none none) := by
  decide +kernel
theorem test_sreset : (stateOf State.reset (exec .sreset (stacked [4, 9]))).scu.SP = 8 := by decide +kernel
/-- K79. -/
theorem test_add_full_stack :
    (stateOf State.reset (exec .add (stacked [1, 2, 3, 4, 5, 6, 7, 8]))).scu.operandStack =
      [1, 2, 3, 4, 5, 6, 15] := by decide +kernel
/-- K18: 5 - 7 borrows. -/
theorem test_sub_flags :
    (stateOf State.reset (exec .sub (stacked [5, 7]))).scu.flags = ⟨false, true, true, false, false, true⟩ := by
  decide +kernel
/-- K33: -256 × 129. -/
theorem test_mul_overflow :
    (stateOf State.reset (exec .mul (stacked [-256, 129]))).scu.flags =
      ⟨false, false, true, true, true, false⟩ := by decide +kernel
/-- K44. -/
theorem test_div_trunc : responseOf (exec .div (stacked [-7, 2])) = some (Claims.ok (some (-3)) none none) := by
  decide +kernel
/-- K45. -/
theorem test_div_floor :
    responseOf (exec .div (stacked [-7, 2] { Params.atReset with DIV_ROUND := .floor })) =
      some (Claims.ok (some (-4)) none none) := by decide +kernel
/-- K55. -/
theorem test_mod_trunc : responseOf (exec .mod (stacked [-7, 2])) = some (Claims.ok (some (-1)) none none) := by
  decide +kernel
/-- K58. -/
theorem test_mod_floor :
    responseOf (exec .mod (stacked [7, -2] { Params.atReset with DIV_ROUND := .floor })) =
      some (Claims.ok (some (-1)) none none) := by decide +kernel

/-- V2: the last valid address. -/
theorem test_readb_last :
    responseOf (exec (.readb 0xFFFFF) State.reset) = some (Claims.ok (some 0) none none) := by decide +kernel
/-- V9: the address is checked before the value. -/
theorem test_writeb_order :
    responseOf (exec (.writeb 0x100000 999) State.reset) = some (Claims.failed .addressOutOfRange) := by
  decide +kernel
/-- V5. -/
theorem test_writeb_statistics :
    (stateOf State.reset (exec (.writeb 0x200 0x41) State.reset)).memUnit.written = [0x200] := by decide +kernel
/-- V12. -/
theorem test_fill_interval :
    (stateOf State.reset (exec (.fill 0x100 0x103 0xAA) State.reset)).memUnit.mem =
      [(0x100, 0xAA), (0x101, 0xAA), (0x102, 0xAA), (0x103, 0xAA)] := by decide +kernel
/-- V18: the order of the interval is checked before the value. -/
theorem test_fill_order :
    responseOf (exec (.fill 5 0 256) State.reset) = some (Claims.failed .invalidInputError) := by decide +kernel
/-- V24. -/
theorem test_search :
    responseOf (exec (.search 9) (remembering [(5, 9), (0xFFFFF, 9)])) =
      some (Claims.ok (some 2) none (some (.addresses [5, 0xFFFFF]))) := by decide +kernel
/-- V27. -/
theorem test_inspect_little_endian :
    responseOf (exec (.inspect 0x200) (remembering [(0x200, 0x48), (0x201, 0x69), (0x202, 0x21)])) =
      some (Claims.ok none none
        (some (.inspection ⟨72, 72, some 26952, some 18537, some 2189640, some 0x00216948#32,
          ['H', 'i', '!']⟩))) := by decide +kernel
/-- V32: the last byte of memory. -/
theorem test_inspect_end :
    responseOf (exec (.inspect 0xFFFFF) (remembering [(0xFFFFF, 0x80)])) =
      some (Claims.ok none none
        (some (.inspection ⟨128, -128, none, none, none, none, ['.']⟩))) := by decide +kernel

/-! ### Steps -/

/-- P8: a reserved word after a PUSH. -/
theorem test_step_reserved :
    responseOf (step (given (.command ⟨0x24#8, 7, 7, 7⟩) (stacked [9]))) = some (Claims.failed .illegalCommand) := by
  decide +kernel
/-- With no memory attached READB is an IllegalCommand (R250). -/
theorem test_step_detached :
    responseOf (step (given (.command ⟨0x30#8, 0, 0, 0⟩) (stacked [] detached))) =
      some (Claims.failed .illegalCommand) := by decide +kernel
theorem test_step_fetch_word :
    responseOf (step (State.reset.withFetchWord 8 0x2B)) = some (Claims.failed .stackUnderflow) := by decide +kernel

/-! ### Witnesses: every statement's hypotheses are met together -/

theorem witness_DecodeEncodeRoundTrip : (Instr.fencS (2 ^ 64 - 1)).wellFormed = true := by decide +kernel

theorem witness_DecodedCommandHasItsWord : decode ⟨0x32#8, 1, 2, 3⟩ = .ok (.fill 1 2 3) := by decide +kernel

theorem witness_OpcodeMapWords :
    (5 : Int) % 2 ^ 64 = (5 : Nat) ∧ (-1 : Int) % 2 ^ 64 = (18446744073709551615 : Nat) := by decide +kernel

theorem witness_StepRunsDecodedCommand :
    (given (.command ⟨0x20#8, -5, 0, 0⟩) State.reset).inputs = [.command ⟨0x20#8, -5, 0, 0⟩] ∧
      decode ⟨0x20#8, -5, 0, 0⟩ = .ok (.push (-5)) := by decide +kernel

/-- Each of the seven ranges at a boundary, the last with no memory attached. -/
theorem witness_ReservedWordsAnswerIllegalCommand :
    (0x03 ≤ (0x03#8).toNat ∧ (0x03#8).toNat ≤ 0x0F) ∧ (0x15 ≤ (0x1F#8).toNat ∧ (0x1F#8).toNat ≤ 0x1F) ∧
      (0x24 ≤ (0x24#8).toNat ∧ (0x24#8).toNat ≤ 0x27) ∧ (0x2D ≤ (0x2F#8).toNat ∧ (0x2F#8).toNat ≤ 0x2F) ∧
      (0x35 ≤ (0x35#8).toNat ∧ (0x35#8).toNat ≤ 0x3F) ∧ (0x40 ≤ (0xFF#8).toNat ∧ (0xFF#8).toNat ≤ 0xFF) ∧
      ((stacked [] detached).params.MEM_ATTACHED = false ∧ 0x30 ≤ (0x34#8).toNat ∧ (0x34#8).toNat ≤ 0x34) ∧
      (given (.command ⟨0x34#8, 0, 0, 0⟩) (stacked [] detached)).inputs = [.command ⟨0x34#8, 0, 0, 0⟩] := by
  decide +kernel

theorem witness_HardwareResetState :
    (given .rst (stacked [1, 2])).inputs = [.rst] ∧ (stacked [1, 2]).inputs = [] ∧
      exec .sreset (stacked [1, 2]) = .next (stateOf State.reset (exec .sreset (stacked [1, 2]))) ∧
      exec .breset (multiplying 8 5 253 2) = .next (stateOf State.reset (exec .breset (multiplying 8 5 253 2))) :=
  ⟨rfl, rfl, next_stateOf _ (by decide +kernel), next_stateOf _ (by decide +kernel)⟩

/-- The multiplication of 5 by -3 at width 8 after `k` steps meets the multiplier's invariants. -/
theorem boothRunning_boothAt (k : Fin 9) : BoothRunning Params.atReset (boothAt 8 5 253 k) := by
  have later : ∀ k : Fin 9, ∀ j : Fin 8, ∀ r ∈ (boothAt 8 5 253 k).history[(j : Nat)]?,
      ∀ r' ∈ (boothAt 8 5 253 k).history[(j : Nat) + 1]?, r' = r.next 8 5 := by decide +kernel
  have shape : ∀ k : Fin 9, (boothAt 8 5 253 k).W = 8 ∧ (boothAt 8 5 253 k).M = 5 ∧
      (boothAt 8 5 253 k).A < 2 ^ 8 ∧ (boothAt 8 5 253 k).Q < 2 ^ 8 ∧ (boothAt 8 5 253 k).currentStep = k ∧
      ((boothAt 8 5 253 k).phase = .complete ↔ (k : Nat) = 8) ∧ (boothAt 8 5 253 k).history.length = k + 1 := by
    decide +kernel
  have ends : ∀ k : Fin 9,
      (∃ r ∈ (boothAt 8 5 253 k).history.head?, r.step = 0 ∧ r.operation = .init ∧ r.A = 0 ∧ r.Q1 = false ∧
        r.Q < 2 ^ 8) ∧
      (∃ r ∈ (boothAt 8 5 253 k).history.getLast?, r.step = (k : Nat) ∧ r.A = (boothAt 8 5 253 k).A ∧
        r.Q = (boothAt 8 5 253 k).Q ∧ r.Q1 = (boothAt 8 5 253 k).Q1) := by decide +kernel
  obtain ⟨hW, hM, hA, hQ, hs, hc, hl⟩ := shape k
  obtain ⟨⟨r₀, h₀, e₀⟩, ⟨r₁, h₁, e₁⟩⟩ := ends k
  refine ⟨by omega, by rw [hW]; decide, by rw [hW, hM]; decide, by rw [hW]; exact hA, by rw [hW]; exact hQ, by omega,
    by rw [hs, hW]; exact hc, by rw [hs]; exact hl, ⟨r₀, h₀, by rw [hW]; exact e₀⟩, ?_, ⟨r₁, h₁, by rw [hs]; exact e₁⟩⟩
  intro j r r' hr hr'
  have hj : j + 1 < (boothAt 8 5 253 k).history.length := (List.getElem?_eq_some_iff.mp hr').1
  rw [hW, hM]
  exact later k ⟨j, by omega⟩ r hr r' hr'

/-- A consistent state in the middle of that multiplication, with elements on the stack, bytes in memory and one input
to take. -/
def busy (k : Nat) (input : HostInput) : State :=
  { stacked [7, -2] with
    bmu := boothAt 8 5 253 k
    memUnit := { State.reset.memUnit with mem := [(3, 9), (0xFFFE, 7)], written := [3] }
    inputs := [input] }

theorem consistent_busy (k : Fin 9) (input : HostInput) : (busy k input).Consistent :=
  ⟨(by decide +kernel : Params.atReset.admitted = true),
    ⟨fun h => absurd h ((by decide +kernel : ∀ k : Fin 9, (boothAt 8 5 253 k).phase ≠ .idle) k),
      fun _ => boothRunning_boothAt k⟩,
    ⟨rfl, (by decide : 2 ≤ 8), fun _ _ => rfl, rfl, rfl, rfl, rfl, rfl⟩,
    ⟨(by decide +kernel : Memory.wf [(3, 9), (0xFFFE, 7)] = true), (by decide +kernel : addressSet 0 [3] = true),
      (by decide : 0 ≤ logCap), (by decide +kernel : (0 : Nat) * 16 + 0xFFFF < memSize)⟩⟩

theorem partialProduct_busy (k : Fin 9) (input : HostInput) : (busy k input).bmu.PartialProduct := by
  have h : ∀ k : Fin 9, ∀ r ∈ (boothAt 8 5 253 k).history.head?,
      sval (boothAt 8 5 253 k).W (boothAt 8 5 253 k).A * 2 ^ (boothAt 8 5 253 k).currentStep +
          (((boothAt 8 5 253 k).Q / 2 ^ ((boothAt 8 5 253 k).W - (boothAt 8 5 253 k).currentStep) : Nat) : Int) =
        (boothAt 8 5 253 k).effectiveMultiplicand *
          sval (boothAt 8 5 253 k).currentStep (r.Q % 2 ^ (boothAt 8 5 253 k).currentStep) ∧
      (boothAt 8 5 253 k).Q % 2 ^ ((boothAt 8 5 253 k).W - (boothAt 8 5 253 k).currentStep) =
        r.Q / 2 ^ (boothAt 8 5 253 k).currentStep ∧
      (boothAt 8 5 253 k).Q1 =
        (decide (0 < (boothAt 8 5 253 k).currentStep) && r.Q.testBit ((boothAt 8 5 253 k).currentStep - 1)) := by
    decide +kernel
  exact fun r hr => h k r hr

/-- The state that follows, where the result is a next state. -/
theorem witness_StepKeepsConsistency :
    (busy 3 (.command ⟨0x11#8, 0, 0, 0⟩)).Consistent ∧
      step (busy 3 (.command ⟨0x11#8, 0, 0, 0⟩)) =
        .next (stateOf State.reset (step (busy 3 (.command ⟨0x11#8, 0, 0, 0⟩)))) :=
  ⟨consistent_busy 3 _, next_stateOf _ (by decide +kernel)⟩

theorem witness_StepAlwaysAnswers : (busy 8 (.command ⟨0x20#8, 1, 0, 0⟩)).Consistent := consistent_busy 8 _

theorem witness_StepKeepsStackPointer :
    (busy 3 (.command ⟨0x20#8, 1, 0, 0⟩)).scu.SP + (busy 3 (.command ⟨0x20#8, 1, 0, 0⟩)).scu.operandStack.length =
        (busy 3 (.command ⟨0x20#8, 1, 0, 0⟩)).params.MAX_STACK_SIZE ∧
      step (busy 3 (.command ⟨0x20#8, 1, 0, 0⟩)) =
        .next (stateOf State.reset (step (busy 3 (.command ⟨0x20#8, 1, 0, 0⟩)))) := ⟨by decide +kernel, next_stateOf _ (by decide +kernel)⟩

theorem witness_FailingCommandChangesNothing :
    exec .pop State.reset = .next (Claims.answered State.reset (Claims.failed .stackUnderflow)) ∧
      Claims.statusOf (Claims.answered State.reset (Claims.failed .stackUnderflow)) = some .stackUnderflow ∧
      Status.stackUnderflow ≠ .ok := ⟨rfl, rfl, by decide⟩

/-- For the statements about every command and its next state: an ADD that succeeds. -/
theorem witness_OnlyArithmeticWritesFlags :
    exec .add (stacked [1, 2]) = .next (stateOf State.reset (exec .add (stacked [1, 2]))) ∧
      Claims.statusOf (stateOf State.reset (exec .add (stacked [1, 2]))) = some .ok := ⟨next_stateOf _ (by decide +kernel), by decide +kernel⟩

theorem witness_NoCommandWritesSegmentRegisters :
    step (busy 3 (.command ⟨0x21#8, 0, 0, 0⟩)) =
        .next (stateOf State.reset (step (busy 3 (.command ⟨0x21#8, 0, 0, 0⟩)))) ∧
      (busy 3 (.command ⟨0x21#8, 0, 0, 0⟩)).inputs.head? ≠ some .rst := ⟨next_stateOf _ (by decide +kernel), by decide +kernel⟩

/-- One command of each unit. -/
theorem witness_UnitsAreIsolated :
    (opcode (.fdec 0 32)).toNat / 16 = 0 ∧
      exec (.fdec 0 32) State.reset = .next (stateOf State.reset (exec (.fdec 0 32) State.reset)) ∧
      (opcode .breset).toNat / 16 = 1 ∧ exec .breset State.reset = .next (stateOf State.reset (exec .breset State.reset)) ∧
      (opcode .sreset).toNat / 16 = 2 ∧ exec .sreset State.reset = .next (stateOf State.reset (exec .sreset State.reset)) ∧
      (opcode (.readb 0)).toNat / 16 = 3 ∧
      exec (.readb 0) State.reset = .next (stateOf State.reset (exec (.readb 0) State.reset)) :=
  ⟨rfl, next_stateOf _ (by decide +kernel), rfl, next_stateOf _ (by decide +kernel), rfl,
    next_stateOf _ (by decide +kernel), rfl, next_stateOf _ (by decide +kernel)⟩

theorem witness_OnlyStoringCommandsWriteMemory :
    exec (.readb 3) (remembering [(3, 9)]) =
        .next (stateOf State.reset (exec (.readb 3) (remembering [(3, 9)]))) ∧
      Claims.stackChanging (.readb 3) = false ∧ (¬ ∃ a v, Instr.readb 3 = .writeb a v) ∧
      ¬ ∃ a b v, Instr.readb 3 = .fill a b v := ⟨rfl, rfl, by simp, by simp⟩

theorem witness_HistoryAndTraceAppendOnly :
    exec .bstep (multiplying 8 5 253 2) = .next (stateOf State.reset (exec .bstep (multiplying 8 5 253 2))) ∧
      (¬ ∃ m q w, Instr.bstep = .binit m q w) ∧ Instr.bstep ≠ .breset ∧ Instr.bstep ≠ .sreset :=
  ⟨next_stateOf _ (by decide +kernel), by simp, by decide, by decide⟩

theorem witness_FpcAnswersFromOperands :
    (opcode (.fdec 5 64)).toNat / 16 = 0 ∧
      State.reset.params.FRAC_CAP_S = (busy 3 .rst).params.FRAC_CAP_S ∧
      State.reset.params.FRAC_CAP_D = (busy 3 .rst).params.FRAC_CAP_D ∧ State.reset.draws = (busy 3 .rst).draws ∧
      exec (.fdec 5 64) State.reset = .next (stateOf State.reset (exec (.fdec 5 64) State.reset)) ∧
      exec (.fdec 5 64) (busy 3 .rst) = .next (stateOf State.reset (exec (.fdec 5 64) (busy 3 .rst))) :=
  ⟨rfl, rfl, rfl, rfl, next_stateOf _ (by decide +kernel), next_stateOf _ (by decide +kernel)⟩

theorem witness_StackIsMaster :
    (opcode .pop).toNat / 16 = 2 ∧
      exec .pop (stacked [4, 9]) = .next (stateOf State.reset (exec .pop (stacked [4, 9]))) := ⟨rfl, next_stateOf _ (by decide +kernel)⟩

/-- Each of the four stack errors arises. -/
theorem witness_StackErrorsExactlyWhen :
    responseOf (exec (.push 9) (stacked [1, 2, 3, 4, 5, 6, 7, 8])) = some (Claims.failed .stackOverflow) ∧
      responseOf (exec .mul (stacked [5])) = some (Claims.failed .stackUnderflow) ∧
      responseOf (exec .mod (stacked [0, 0])) = some (Claims.failed .divisionByZero) ∧
      responseOf (exec (.push 128) (stacked [] narrow)) = some (Claims.failed .cellRange) ∧
      responseOf (exec .sub (stacked [-128, 1] narrow)) = some (Claims.failed .cellRange) ∧
      (responseOf (exec (.push (-128)) (stacked [] narrow))).map Response.status = some .ok := by decide +kernel

/-- Both errors at the ends of the ranges. -/
theorem witness_MemoryErrorsExactlyWhen :
    responseOf (exec (.inspect 0x100000) State.reset) = some (Claims.failed .addressOutOfRange) ∧
      responseOf (exec (.fill 0xFFFF0 0x100000 256) State.reset) = some (Claims.failed .addressOutOfRange) ∧
      responseOf (exec (.writeb 0xFFFFF 256) State.reset) = some (Claims.failed .invalidByteValue) ∧
      responseOf (exec (.fill 0 0xFFFFF (-1)) State.reset) = some (Claims.failed .invalidByteValue) := by
  decide +kernel

/-- The three errors at the ends of the ranges. -/
theorem witness_OperandErrorsExactlyWhen :
    responseOf (exec (.inspect (-1)) (stacked [] detached)) = some (Claims.failed .illegalCommand) ∧
      responseOf (exec (.fencD 1) State.reset) = some (Claims.failed .encodeRange) ∧
      responseOf (exec (.binit 0 0 33) State.reset) = some (Claims.failed .invalidInputError) ∧
      responseOf (exec (.binit 8 0 4) State.reset) = some (Claims.failed .invalidInputError) ∧
      (responseOf (exec (.binit (-8) 7 4) State.reset)).map Response.status = some .ok ∧
      responseOf (exec (.bview 3) (multiplying 8 5 253 2)) = some (Claims.failed .invalidInputError) ∧
      (responseOf (exec (.bview 2) (multiplying 8 5 253 2))).map Response.status = some .ok ∧
      responseOf (exec (.fdec 0 33) State.reset) = some (Claims.failed .formatError) ∧
      responseOf (exec (.search 256) State.reset) = some (Claims.failed .formatError) ∧
      responseOf (exec .bresult (multiplying 8 5 253 7)) = some (Claims.failed .notReady) := by decide +kernel

theorem witness_EncodeZeroAndNaN : 0 < 2 ^ 52 - 1 ∧ 2 ^ 52 - 1 < 2 ^ 52 := by decide

/-- The four ends of the range of exponents. -/
theorem witness_EncodeSingleTruncates :
    (897 < 2047 ∧ 1150 < 2047 ∧ 896 < 2047 ∧ 1151 < 2047) ∧ (2 ^ 52 - 1 < 2 ^ 52 ∧ ¬ (897 = 0 ∧ 2 ^ 52 - 1 = 0)) ∧
      149 ≤ State.reset.params.FRAC_CAP_S := by decide

theorem witness_EncodeDoubleKeepsPattern :
    (0 < 2047 ∧ 1 < 2047 ∧ 2046 < 2047) ∧ (1 < 2 ^ 52 ∧ ¬ (0 = 0 ∧ 1 = 0)) ∧
      1074 ≤ State.reset.params.FRAC_CAP_D := by decide

theorem witness_DecodeSingleDelivery : 255 < 256 ∧ 2 ^ 23 - 1 < 2 ^ 23 := by decide

theorem witness_DecodeDoubleDelivery : 2047 < 2048 ∧ 2 ^ 52 - 1 < 2 ^ 52 := by decide

theorem witness_DecodeLengthCheck : (33 : Int) ≠ 32 ∧ (33 : Int) ≠ 64 := by decide

theorem witness_SingleRoundTrips :
    149 ≤ State.reset.params.FRAC_CAP_S ∧ (897 ≤ 1150 ∧ 1150 ≤ 1150 ∧ 2 ^ 52 - 1 < 2 ^ 52) ∧
      (254 ≤ 254 ∧ 2 ^ 23 - 1 < 2 ^ 23 ∧ ¬ (254 = 0 ∧ 2 ^ 23 - 1 = 0)) ∧ (0 ≤ 254 ∧ 1 < 2 ^ 23 ∧ ¬ (0 = 0 ∧ 1 = 0)) := by
  decide

/-- Both branches: the least multiplicand and the greatest multiplier of a width, and one past it. -/
theorem witness_BinitStartsMultiplication :
    (1 ≤ (32 : Int) ∧ (32 : Int) ≤ State.reset.params.W_MAX ∧ -2 ^ ((32 : Int).toNat - 1) ≤ (-2147483648 : Int) ∧
        (2147483647 : Int) ≤ 2 ^ ((32 : Int).toNat - 1) - 1) ∧
      ¬ ((2147483648 : Int) ≤ 2 ^ ((32 : Int).toNat - 1) - 1) := by decide +kernel

/-- Each of the four pairs, in a multiplication of `W` = 8. -/
theorem witness_BstepMakesOneStep :
    (multiplying 8 5 253 0).bmu.phase = .stepping ∧ 1 ≤ (multiplying 8 5 253 0).bmu.W ∧
      (multiplying 8 5 253 0).bmu.A < 2 ^ (multiplying 8 5 253 0).bmu.W ∧
      ((multiplying 8 5 253 0).bmu.Q % 2 = 1 ∧ (multiplying 8 5 253 0).bmu.Q1 = false ∧
        ((251 : Nat) : Int) = (((multiplying 8 5 253 0).bmu.A : Int) - (multiplying 8 5 253 0).bmu.M) %
          2 ^ (multiplying 8 5 253 0).bmu.W) ∧
      (multiplying 8 5 253 1).bmu.phase = .stepping ∧
      ((multiplying 8 5 253 1).bmu.Q % 2 = 0 ∧ (multiplying 8 5 253 1).bmu.Q1 = true ∧
        ((2 : Nat) : Int) = (((multiplying 8 5 253 1).bmu.A : Int) + (multiplying 8 5 253 1).bmu.M) %
          2 ^ (multiplying 8 5 253 1).bmu.W) ∧
      (multiplying 4 3 12 0).bmu.phase = .stepping ∧
      ((multiplying 4 3 12 0).bmu.Q % 2 = 0 ∧ (multiplying 4 3 12 0).bmu.Q1 = false) ∧
      (multiplying 8 5 253 3).bmu.phase = .stepping ∧
      ((multiplying 8 5 253 3).bmu.Q % 2 = 1 ∧ (multiplying 8 5 253 3).bmu.Q1 = true) := by decide +kernel

theorem witness_BstepOutsideStepping :
    (multiplying 8 5 253 8).bmu.phase = .complete ∧ State.reset.bmu.phase = .idle := by decide +kernel

/-- A product below 0 (`A ‖ Q` = FF F1), and a phase that is not COMPLETE. -/
theorem witness_BresultReadsProduct :
    (multiplying 8 5 253 8).bmu.phase = .complete ∧ 1 ≤ (multiplying 8 5 253 8).bmu.W ∧
      (multiplying 8 5 253 8).bmu.A < 2 ^ (multiplying 8 5 253 8).bmu.W ∧
      (multiplying 8 5 253 8).bmu.Q < 2 ^ (multiplying 8 5 253 8).bmu.W ∧
      (-15 : Int) =
        (if (multiplying 8 5 253 8).bmu.A < 2 ^ ((multiplying 8 5 253 8).bmu.W - 1) then
          (((multiplying 8 5 253 8).bmu.A * 2 ^ (multiplying 8 5 253 8).bmu.W + (multiplying 8 5 253 8).bmu.Q : Nat) :
            Int)
        else
          (((multiplying 8 5 253 8).bmu.A * 2 ^ (multiplying 8 5 253 8).bmu.W + (multiplying 8 5 253 8).bmu.Q : Nat) :
            Int) - 2 ^ (2 * (multiplying 8 5 253 8).bmu.W)) ∧
      (multiplying 8 5 253 7).bmu.phase ≠ .complete := by decide +kernel

/-- IDLE; the last record; one past it. -/
theorem witness_BviewReadsHistory :
    State.reset.bmu.phase = .idle ∧ (multiplying 8 5 253 1).bmu.phase ≠ .idle ∧
      (multiplying 8 5 253 1).bmu.history[(1 : Int).toNat]? = some ⟨1, 0b10#2, .sub, 253, 254, true⟩ ∧
      ((multiplying 8 5 253 1).bmu.history.length : Int) ≤ 2 := by decide +kernel

theorem witness_StepKeepsPartialProduct :
    (busy 7 (.command ⟨0x11#8, 0, 0, 0⟩)).Consistent ∧ (busy 7 (.command ⟨0x11#8, 0, 0, 0⟩)).bmu.PartialProduct ∧
      step (busy 7 (.command ⟨0x11#8, 0, 0, 0⟩)) =
        .next (stateOf State.reset (step (busy 7 (.command ⟨0x11#8, 0, 0, 0⟩)))) :=
  ⟨consistent_busy 7 _, partialProduct_busy 7 _, next_stateOf _ (by decide +kernel)⟩

theorem witness_CompletedProduct :
    (busy 8 .rst).Consistent ∧ (busy 8 .rst).bmu.PartialProduct ∧ (busy 8 .rst).bmu.phase = .complete ∧
      (busy 8 .rst).bmu.history.head? = some ⟨0, 0b00#2, .init, 0, 253, false⟩ :=
  ⟨consistent_busy 8 _, partialProduct_busy 8 _, by decide +kernel, by decide +kernel⟩

/-- The least operands of the greatest width of the reset state, and width 1. -/
theorem witness_BoothMultiplies :
    (1 ≤ 32 ∧ 32 ≤ State.reset.params.W_MAX ∧ -2 ^ (32 - 1) ≤ (-2147483648 : Int) ∧
        (-2147483648 : Int) ≤ 2 ^ (32 - 1) - 1) ∧
      (1 ≤ 1 ∧ 1 ≤ State.reset.params.W_MAX ∧ -2 ^ (1 - 1) ≤ (0 : Int) ∧ (0 : Int) ≤ 2 ^ (1 - 1) - 1) := by
  decide +kernel

/-- Each clause: the last free slot with the least value of a narrow cell, a full stack, a value one past the cell. -/
theorem witness_PushAppends :
    ((stacked [1, 2, 3, 4, 5, 6, 7] narrow).scu.operandStack.length ≠ narrow.MAX_STACK_SIZE ∧
        Claims.fits (stacked [1, 2, 3, 4, 5, 6, 7] narrow) (-128) ∧
        Claims.projectable (stacked [1, 2, 3, 4, 5, 6, 7] narrow) 8) ∧
      (stacked [1, 2, 3, 4, 5, 6, 7, 8]).scu.operandStack.length = Params.atReset.MAX_STACK_SIZE ∧
      ¬ Claims.fits (stacked [] narrow) 128 := by
  refine ⟨⟨by decide, ?_, fun _ => by decide +kernel⟩, by decide, fun h => absurd (h 8 rfl) (by decide)⟩
  rintro n ⟨⟩
  decide

theorem witness_PopRemovesTop :
    ((stacked [4, 9]).scu.operandStack = [4] ++ [9] ∧ Claims.projectable (stacked [4, 9]) ([4].length + 1)) ∧
      State.reset.scu.operandStack = [] := ⟨⟨rfl, fun _ => by decide +kernel⟩, rfl⟩

theorem witness_PeekReadsTop :
    (stacked [4, 9]).scu.operandStack = [4] ++ [9] ∧ State.reset.scu.operandStack = [] := ⟨rfl, rfl⟩

/-- Each clause: a division that stays in the cell, a difference one past it, a stack of one element. -/
theorem witness_BinaryOperationReplacesTopTwo :
    ((stacked [3, -7, 2] narrow).scu.operandStack = [3] ++ [-7, 2] ∧ (2 : Int) ≠ 0 ∧
        (-3 : Int) = Claims.resultOf (stacked [3, -7, 2] narrow).params.DIV_ROUND (-7) 2 .div ∧
        Claims.fits (stacked [3, -7, 2] narrow) (-3) ∧ Claims.projectable (stacked [3, -7, 2] narrow) 3) ∧
      ((stacked [-128, 1] narrow).scu.operandStack = [] ++ [-128, 1] ∧
        (-129 : Int) = Claims.resultOf (stacked [-128, 1] narrow).params.DIV_ROUND (-128) 1 .sub ∧
        ¬ Claims.fits (stacked [-128, 1] narrow) (-129)) ∧
      (stacked [5]).scu.operandStack.length < 2 := by
  refine ⟨⟨rfl, by decide, by decide +kernel, ?_, fun _ => by decide +kernel⟩,
    ⟨rfl, by decide +kernel, fun h => absurd (h 8 rfl) (by decide)⟩, by decide⟩
  rintro n ⟨⟩
  decide

theorem witness_FlagsOfBinaryOperation :
    (stacked [3, -7, 2]).scu.operandStack = [3] ++ [-7, 2] ∧
      (-3 : Int) = Claims.resultOf (stacked [3, -7, 2]).params.DIV_ROUND (-7) 2 .div ∧
      exec .div (stacked [3, -7, 2]) = .next (stateOf State.reset (exec .div (stacked [3, -7, 2]))) ∧
      Claims.statusOf (stateOf State.reset (exec .div (stacked [3, -7, 2]))) = some .ok :=
  ⟨rfl, by decide +kernel, next_stateOf _ (by decide +kernel), by decide +kernel⟩

theorem witness_DivisionByZeroRestores : (stacked [7, 0]).scu.operandStack = [] ++ [7, 0] := rfl

/-- Both roundings of -7 by 2. -/
theorem witness_QuotientAndRemainder :
    ((2 : Int) ≠ 0 ∧ (-3 : Int) = BinOp.div.result .trunc (-7) 2 ∧ (-1 : Int) = BinOp.mod.result .trunc (-7) 2) ∧
      ((-4 : Int) = BinOp.div.result .floor (-7) 2 ∧ (1 : Int) = BinOp.mod.result .floor (-7) 2) := by decide +kernel

/-- The last live slot, after a PUSH and after a POP. -/
theorem witness_ProjectionMirrorsLiveElements :
    (stacked [4]).params.MEM_ATTACHED = true ∧ (stacked [4]).memUnit.mem.wf = true ∧
      Claims.stackChanging (.push (-2)) = true ∧
      exec (.push (-2)) (stacked [4]) = .next (stateOf State.reset (exec (.push (-2)) (stacked [4]))) ∧
      Claims.statusOf (stateOf State.reset (exec (.push (-2)) (stacked [4]))) = some .ok ∧
      (stateOf State.reset (exec (.push (-2)) (stacked [4]))).scu.operandStack[1]? = some (-2) :=
  ⟨rfl, rfl, rfl, next_stateOf _ (by decide +kernel), by decide +kernel, by decide +kernel⟩

/-- The byte above the window, and the first byte below the slot vacated. -/
theorem witness_ProjectionKeepsOtherBytes :
    (stacked [4, 9]).memUnit.mem.wf = true ∧ Claims.stackChanging .pop = true ∧
      exec .pop (stacked [4, 9]) = .next (stateOf State.reset (exec .pop (stacked [4, 9]))) ∧
      (∀ d < Claims.slotCount .pop (stateOf State.reset (exec .pop (stacked [4, 9]))),
        0xFFFB ≠ (stacked [4, 9]).memUnit.SS.toNat * 16 + 0xFFFF - 2 * d ∧
          0xFFFB ≠ (stacked [4, 9]).memUnit.SS.toNat * 16 + 0xFFFF - 2 * d - 1) :=
  ⟨rfl, rfl, next_stateOf _ (by decide +kernel), by decide +kernel⟩

theorem witness_ReadbAnswersByte :
    State.reset.params.MEM_ATTACHED = true ∧ ((0 : Int) ≤ 0xFFFFF ∧ (0xFFFFF : Int) < 0x100000) ∧
      ((-1 : Int) < 0 ∨ (0x100000 : Int) ≤ -1) := by decide

/-- The clauses at the ends of the ranges. -/
theorem witness_WritebStoresByte :
    State.reset.params.MEM_ATTACHED = true ∧ State.reset.memUnit.mem.wf = true ∧
      ((0 : Int) ≤ 0xFFFFF ∧ (0xFFFFF : Int) < 0x100000 ∧ (0 : Int) ≤ 255 ∧ (255 : Int) ≤ 255) ∧
      ((0x100000 : Int) < 0 ∨ (0x100000 : Int) ≤ 0x100000) ∧ ((256 : Int) < 0 ∨ (255 : Int) < 256) := by decide

theorem witness_FillStoresInterval :
    State.reset.params.MEM_ATTACHED = true ∧
      ((0 : Int) ≤ 0xFFFFF ∧ (0xFFFFF : Int) < 0x100000 ∧ (0 : Int) ≤ 255 ∧ (255 : Int) ≤ 255) ∧ (4 : Int) < 5 ∧
      ((-1 : Int) ≤ 5 ∧ ((-1 : Int) < 0 ∨ (0x100000 : Int) ≤ 5)) ∧ ((256 : Int) < 0 ∨ (255 : Int) < 256) := by decide

theorem witness_SearchFindsEveryAddress :
    (remembering [(5, 9), (0xFFFFF, 9)]).params.MEM_ATTACHED = true ∧
      (remembering [(5, 9), (0xFFFFF, 9)]).memUnit.mem.wf = true ∧ ((0 : Int) ≤ 255 ∧ (255 : Int) ≤ 255) ∧
      ((-1 : Int) < 0 ∨ (255 : Int) < -1) := by decide +kernel

theorem witness_InspectShowsFields :
    State.reset.params.MEM_ATTACHED = true ∧ 0xFFFFF < 0x100000 ∧ ((0x100000 : Int) < 0 ∨ (0x100000 : Int) ≤ 0x100000) := by
  decide

end Sys2Proof.Tests
end

section
/-! PROOFS. What each command does when it answers, once for all commands: the relation `Effect` has one constructor
for each way a command completes, and `exec_effect` says that there is no other way. -/

namespace Sys2Proof.Machine

variable {s t : State} {i : Instr}

/-- The commands that may succeed without changing any unit: the FPC's (R21), BSTEP when COMPLETE (R148), BRESULT,
BVIEW and PEEK. -/
def mayOnlyAnswer : Instr → Bool
  | .fencS _ | .fencD _ | .fdec _ _ | .bstep | .bresult | .bview _ | .peek => true
  | _ => false

/-- The ways in which a command that answers takes `s` to the next state. -/
inductive Effect (s : State) : Instr → State → Prop
  /-- The command fails (R253). -/
  | failed (i : Instr) (e : Status) (he : e ≠ .ok) : Effect s i { s with response := some (Response.error e) }
  /-- The command succeeds and changes no unit. -/
  | answered (i : Instr) (r : Response) (hi : mayOnlyAnswer i = true) (hr : r.status = .ok) :
      Effect s i { s with response := some r }
  /-- BINIT begins a multiplication (R142). -/
  | binit (m q width : Int) (hpos : 1 ≤ width) (hmax : width ≤ s.params.W_MAX)
      (hm : inSignedRange width.toNat m = true) (hq : inSignedRange width.toNat q = true) :
      Effect s (.binit m q width)
        { s with
          bmu := Bmu.initialised s.draws width.toNat m q
          response := some (.record (.booth (initRecord s.draws width.toNat q))) }
  /-- BSTEP performs a step (R149). -/
  | bstep (hphase : s.bmu.phase = .stepping) :
      Effect s .bstep
        { s with bmu := s.bmu.stepped, response := some (.valueRecord 1 (.booth s.bmu.nextRecord)) }
  /-- BRESET discards the multiplication (R152). -/
  | breset : Effect s .breset { s with bmu := Bmu.discarded s.draws, response := some .done }
  /-- PUSH (R171). -/
  | push (value : Int) (t : State) (hlen : s.scu.operandStack.length ≠ s.params.MAX_STACK_SIZE)
      (hfit : cellFits s.params value = true)
      (h : s.commitStack (s.scu.pushed s.params s.draws value) false .done = .next t) : Effect s (.push value) t
  /-- POP (R172). -/
  | pop (below : List Int) (top : Int) (t : State) (hstack : s.scu.operandStack = below ++ [top])
      (h : s.commitStack (s.scu.popped s.params s.draws below) true (.value top) = .next t) : Effect s .pop t
  /-- SRESET (R192). -/
  | sreset : Effect s .sreset { s with scu := Scu.cleared s.params s.draws, response := some .done }
  /-- A binary operation (R174). -/
  | binary (i : Instr) (op : BinOp) (below : List Int) (a b r : Int) (t : State) (hi : i = Claims.instrOf op)
      (hstack : s.scu.operandStack = below ++ [a, b]) (hr : r = op.result s.params.DIV_ROUND a b)
      (hfit : cellFits s.params r = true)
      (h : s.commitStack (s.scu.computed s.params s.draws below r (flagsOf op a b r)) true (.value r) = .next t) :
      Effect s i t
  /-- READB (R210). -/
  | readb (addr : Int) (ha : validAddress addr = true) :
      Effect s (.readb addr)
        { s with
          memUnit := s.memUnit.afterRead s.draws addr.toNat
          response := some (.value (s.memUnit.mem.read addr.toNat).toNat) }
  /-- WRITEB (R211). -/
  | writeb (addr value : Int) (ha : validAddress addr = true) (hv : isByteValue value = true) :
      Effect s (.writeb addr value)
        { s with
          memUnit := s.memUnit.afterWrite s.draws addr.toNat (byteOf value)
          response := some .done }
  /-- FILL (R212). -/
  | fill (first last value : Int) (hle : first ≤ last) (hfirst : 0 ≤ first) (hlast : last < memSize)
      (hv : isByteValue value = true) :
      Effect s (.fill first last value)
        { s with
          memUnit := s.memUnit.afterFill s.draws first.toNat (last - first + 1).toNat (byteOf value)
          response := some (.value (last - first + 1)) }
  /-- SEARCH (R213). -/
  | search (value : Int) (r : Response) (hv : isByteValue value = true) (hr : r.status = .ok) :
      Effect s (.search value) { s with memUnit := s.memUnit.scanned s.draws, response := some r }
  /-- INSPECT (R215). -/
  | inspect (addr : Int) (r : Response) (ha : validAddress addr = true) (hr : r.status = .ok) :
      Effect s (.inspect addr) { s with memUnit := s.memUnit.scanned s.draws, response := some r }

/-! ### The shared endings -/

theorem Effect.of_raise {e : Status} (h : s.raise e = .next t) (he : e ≠ .ok) : Effect s i t := by
  obtain rfl := (State.raise_next_iff e).1 h
  exact .failed i e he

theorem Effect.of_respond {r : Response} (h : s.respond r = .next t) (hi : mayOnlyAnswer i = true)
    (hr : r.status = .ok) : Effect s i t := by
  obtain rfl := (State.respond_next_iff r).1 h
  exact .answered i r hi hr

/-- A MEM command without a memory fails (R81); so only its effect with one has to be found. -/
theorem Effect.of_ifAttached {act : State → Result} (h : s.ifAttached act = .next t)
    (hact : act s = .next t → Effect s i t) : Effect s i t := by
  obtain ⟨-, h⟩ | ⟨-, rfl⟩ := State.ifAttached_cases h
  · exact hact h
  · exact .failed i _ (by decide)

/-! ### FPC -/

theorem State.respondEncoded_effect {fmt : Format} {cap value : Nat}
    (h : s.respondEncoded fmt cap value = .next t) (hi : mayOnlyAnswer i = true) : Effect s i t := by
  unfold State.respondEncoded at h
  split at h
  · exact .of_respond h hi rfl
  · exact .of_raise h (by decide)

theorem execFdec_effect {word : Nat} {len : Int} (h : execFdec word len s = .next t) :
    Effect s (.fdec word len) t := by
  unfold execFdec at h
  split_ifs at h
  · exact .of_respond h rfl rfl
  · exact .of_respond h rfl rfl
  · exact .of_raise h (by decide)

/-! ### BMU -/

theorem execBinit_effect {m q width : Int} (h : execBinit m q width s = .next t) :
    Effect s (.binit m q width) t := by
  unfold execBinit at h
  split_ifs at h with hwidth hm hq
  · exact .of_raise h (by decide)
  · obtain rfl := (State.respond_next_iff _).1 h
    rw [not_or, not_lt, not_lt] at hwidth
    exact .binit m q width hwidth.1 hwidth.2 hm hq
  · exact .of_raise h (by decide)
  · exact .of_raise h (by decide)

theorem execBstep_effect (h : execBstep s = .next t) : Effect s .bstep t := by
  unfold execBstep at h
  split at h
  · exact .of_raise h (by decide)
  · exact .of_respond h rfl rfl
  · next hphase =>
    obtain rfl := (State.respond_next_iff _).1 h
    exact .bstep hphase

theorem execBresult_effect (h : execBresult s = .next t) : Effect s .bresult t := by
  unfold execBresult at h
  split at h
  · exact .of_respond h rfl rfl
  · exact .of_raise h (by decide)
  · exact .of_raise h (by decide)

theorem execBview_effect {index : Int} (h : execBview index s = .next t) : Effect s (.bview index) t := by
  unfold execBview at h
  split at h
  · exact .of_raise h (by decide)
  · split at h
    · exact .of_respond h rfl rfl
    · exact .of_raise h (by decide)

theorem execBreset_effect (h : execBreset s = .next t) : Effect s .breset t := by
  obtain rfl := (State.respond_next_iff _).1 h
  exact .breset

/-! ### SCU -/

theorem execPush_effect {value : Int} (h : execPush value s = .next t) : Effect s (.push value) t := by
  unfold execPush at h
  split_ifs at h with hlen hfit
  · exact .of_raise h (by decide)
  · exact .push value t hlen hfit h
  · exact .of_raise h (by decide)

theorem execPop_effect (h : execPop s = .next t) : Effect s .pop t := by
  unfold execPop at h
  split at h
  · next top below hstack =>
    exact .pop below.reverse top t (by simpa using congrArg List.reverse hstack) h
  · exact .of_raise h (by decide)

theorem execPeek_effect (h : execPeek s = .next t) : Effect s .peek t := by
  unfold execPeek at h
  split at h
  · exact .of_respond h rfl rfl
  · exact .of_raise h (by decide)

theorem execSreset_effect (h : execSreset s = .next t) : Effect s .sreset t := by
  obtain rfl := (State.respond_next_iff _).1 h
  exact .sreset

theorem exec_instrOf (op : BinOp) (s : State) : exec (Claims.instrOf op) s = s.binaryOp op := by
  cases op <;> rfl

theorem State.binaryOp_effect {op : BinOp} (h : s.binaryOp op = .next t) : Effect s (Claims.instrOf op) t := by
  obtain ⟨-, rfl⟩ | ⟨below, a, b, hstack, ⟨-, -, rfl⟩ | ⟨-, -, rfl⟩ | ⟨-, hfit, h⟩⟩ := State.binaryOp_cases h
  · exact .failed _ _ (by decide)
  · exact .failed _ _ (by decide)
  · exact .failed _ _ (by decide)
  · exact .binary _ op below a b _ t rfl hstack rfl hfit h

/-! ### MEM -/

theorem execReadb_effect {addr : Int} (h : execReadb addr s = .next t) : Effect s (.readb addr) t := by
  refine .of_ifAttached h fun h => ?_
  split_ifs at h with ha
  · obtain rfl := (State.respond_next_iff _).1 h
    exact .readb addr ha
  · exact .of_raise h (by decide)

theorem execWriteb_effect {addr value : Int} (h : execWriteb addr value s = .next t) :
    Effect s (.writeb addr value) t := by
  refine .of_ifAttached h fun h => ?_
  split_ifs at h with ha hv
  · obtain rfl := (State.respond_next_iff _).1 h
    exact .writeb addr value ha hv
  · exact .of_raise h (by decide)
  · exact .of_raise h (by decide)

theorem execFill_effect {first last value : Int} (h : execFill first last value s = .next t) :
    Effect s (.fill first last value) t := by
  refine .of_ifAttached h fun h => ?_
  split_ifs at h with horder hends hv
  · exact .of_raise h (by decide)
  · exact .of_raise h (by decide)
  · obtain rfl := (State.respond_next_iff _).1 h
    rw [not_or, not_lt, not_le] at hends
    exact .fill first last value (not_lt.1 horder) hends.1 hends.2 hv
  · exact .of_raise h (by decide)

theorem execSearch_effect {value : Int} (h : execSearch value s = .next t) : Effect s (.search value) t := by
  refine .of_ifAttached h fun h => ?_
  split_ifs at h with hv
  · obtain rfl := (State.respond_next_iff _).1 h
    exact .search value _ hv rfl
  · exact .of_raise h (by decide)

theorem execInspect_effect {addr : Int} (h : execInspect addr s = .next t) : Effect s (.inspect addr) t := by
  refine .of_ifAttached h fun h => ?_
  split_ifs at h with ha
  · obtain rfl := (State.respond_next_iff _).1 h
    exact .inspect addr _ ha rfl
  · exact .of_raise h (by decide)

/-! ### Every command, every step -/

/-- A command that answers has one of the effects listed, and no other. -/
theorem exec_effect (h : exec i s = .next t) : Effect s i t := by
  cases i with
  | fencS value => exact State.respondEncoded_effect h rfl
  | fencD value => exact State.respondEncoded_effect h rfl
  | fdec word len => exact execFdec_effect h
  | binit m q width => exact execBinit_effect h
  | bstep => exact execBstep_effect h
  | bresult => exact execBresult_effect h
  | bview index => exact execBview_effect h
  | breset => exact execBreset_effect h
  | push value => exact execPush_effect h
  | pop => exact execPop_effect h
  | peek => exact execPeek_effect h
  | sreset => exact execSreset_effect h
  | add => exact State.binaryOp_effect (op := .add) h
  | sub => exact State.binaryOp_effect (op := .sub) h
  | mul => exact State.binaryOp_effect (op := .mul) h
  | div => exact State.binaryOp_effect (op := .div) h
  | mod => exact State.binaryOp_effect (op := .mod) h
  | readb addr => exact execReadb_effect h
  | writeb addr value => exact execWriteb_effect h
  | fill first last value => exact execFill_effect h
  | search value => exact execSearch_effect h
  | inspect addr => exact execInspect_effect h

theorem step_of_no_input (h : s.inputs = []) : step s = .next s := by
  unfold step
  rw [h]

theorem step_of_rst {rest : List HostInput} (h : s.inputs = .rst :: rest) :
    step s = .next (s.accept rest).hardwareReset := by
  unfold step
  rw [h]

theorem step_of_command {c : Command} {rest : List HostInput} (h : s.inputs = .command c :: rest)
    (hd : decode c = .ok i) : step s = exec i (s.accept rest) := by
  unfold step
  simp only [h, hd]

theorem step_of_reserved {c : Command} {rest : List HostInput} {e : DecodeError}
    (h : s.inputs = .command c :: rest) (hd : decode c = .error e) :
    step s = (s.accept rest).raise .illegalCommand := by
  unfold step
  simp only [h, hd]

/-- A step that answers waits, resets, or takes the host's command, which has its effect on the accepted state; a
reserved word (R81) fails. -/
theorem step_cases (h : step s = .next t) :
    (s.inputs = [] ∧ t = s) ∨
      (∃ rest, s.inputs = .rst :: rest ∧ t = (s.accept rest).hardwareReset) ∨
      ∃ c rest, s.inputs = .command c :: rest ∧
        ((∃ i, decode c = .ok i ∧ Effect (s.accept rest) i t) ∨
          (∃ e, decode c = .error e ∧
            t = { s.accept rest with response := some (Response.error .illegalCommand) })) := by
  rcases hin : s.inputs with _ | ⟨_ | c, rest⟩
  · rw [step_of_no_input hin] at h
    cases h
    exact .inl ⟨rfl, rfl⟩
  · rw [step_of_rst hin] at h
    cases h
    exact .inr (.inl ⟨rest, rfl, rfl⟩)
  · refine .inr (.inr ⟨c, rest, rfl, ?_⟩)
    cases hd : decode c with
    | ok i =>
      rw [step_of_command hin hd] at h
      exact .inl ⟨i, rfl, exec_effect h⟩
    | error e =>
      rw [step_of_reserved hin hd] at h
      exact .inr ⟨e, rfl, (State.raise_next_iff _).1 h⟩

end Sys2Proof.Machine
end

section
/-! PROOFS. Consistency: each operation of the three units keeps the unit's invariants, the reset values meet them, and
so every step keeps the machine consistent. -/

namespace Sys2Proof.Machine

variable {s t : State} {i : Instr} {p : Params} {b : Bmu} {u : Scu} {k : Nat}

/-! ### The configuration -/

theorem Params.cell_bits_pos (h : p.admitted = true) : ∀ n ∈ p.CELL_BITS, 1 ≤ n := by
  obtain ⟨-, -, -, hcell, -⟩ := of_decide_eq_true h
  exact fun n hn => (hcell n hn).1

theorem Params.stack_segment_fits (h : p.admitted = true) : p.SEG_RESET_SS.toNat * 16 + 0xFFFF < memSize := by
  obtain ⟨-, -, -, -, hss, -⟩ := of_decide_eq_true h
  exact hss

/-- A register that is 0 fits the cells of an admitted configuration. -/
theorem cellFits_zero (h : p.admitted = true) : cellFits p 0 = true :=
  cellFits_of_admitted h le_rfl (Int.natCast_nonneg _)

/-! ### The Booth multiplier -/

theorem Bmu.discarded_consistent (p : Params) (k : Nat) : (Bmu.discarded k).Consistent p :=
  ⟨fun _ => rfl, fun h => absurd rfl h⟩

theorem Bmu.Consistent.running (h : b.Consistent p) (hphase : b.phase = .stepping) : BoothRunning p b :=
  h.2 (by rw [hphase]; decide)

/-- BINIT begins a multiplication whose history is its INIT record (R142). -/
theorem BoothRunning.initialised {width : Int} (hpos : 1 ≤ width) (hmax : width ≤ p.W_MAX) (k : Nat) (m q : Int) :
    BoothRunning p (Bmu.initialised k width.toNat m q) where
  width_pos := by rw [Bmu.initialised_W]; omega
  width_le := by rw [Bmu.initialised_W]; omega
  word_M := umod_lt _ m
  word_A := Nat.two_pow_pos _
  word_Q := umod_lt _ q
  step_le := Nat.zero_le _
  complete_iff := by
    rw [Bmu.initialised_phase, Bmu.initialised_currentStep, Bmu.initialised_W]
    exact iff_of_false (by decide) (by omega)
  history_length := rfl
  first_record := ⟨initRecord k width.toNat q, rfl, rfl, rfl, rfl, rfl, umod_lt _ q⟩
  later_records := by
    intro j r r' _ hr'
    simp at hr'
  last_record := ⟨initRecord k width.toNat q, rfl, rfl, rfl, rfl, rfl⟩

/-- Addition and subtraction modulo `2^W` give words of `W` bits (R144). -/
theorem boothSum_lt {w a : Nat} (op : BoothOp) (m : Nat) (ha : a < 2 ^ w) : boothSum w op a m < 2 ^ w := by
  cases op with
  | add => exact umod_lt w _
  | sub => exact umod_lt w _
  | nop => exact ha
  | init => exact ha

/-- A word shifted right by one with a bit put in front is a word. -/
theorem shifted_lt {w x : Nat} (bit : Bool) (hw : 1 ≤ w) (hx : x < 2 ^ w) :
    bit.toNat * 2 ^ (w - 1) + x / 2 < 2 ^ w := by
  obtain ⟨n, rfl⟩ := Nat.exists_eq_add_of_le' hw
  rw [Nat.add_sub_cancel]
  rw [Nat.pow_succ] at hx ⊢
  have hbit := Nat.mul_le_mul_right (2 ^ n) (Bool.toNat_le bit)
  omega

theorem Bmu.nextRecord_A_lt (hw : 1 ≤ b.W) (hA : b.A < 2 ^ b.W) : b.nextRecord.A < 2 ^ b.W :=
  shifted_lt _ hw (boothSum_lt _ b.M hA)

theorem Bmu.nextRecord_Q_lt (hw : 1 ≤ b.W) (hQ : b.Q < 2 ^ b.W) : b.nextRecord.Q < 2 ^ b.W :=
  shifted_lt _ hw hQ

/-- What a step appends depends on the live registers alone, which are those of the last record (R31, R146). -/
theorem BoothRecord.next_eq_nextRecord {r : BoothRecord} (hstep : r.step = b.currentStep) (hA : r.A = b.A)
    (hQ : r.Q = b.Q) (hQ1 : r.Q1 = b.Q1) : r.next b.W b.M = b.nextRecord := by
  unfold BoothRecord.next Bmu.nextRecord
  rw [hstep, hA, hQ, hQ1]

/-- A history that satisfies the recurrence satisfies it with the next record appended. -/
theorem later_records_append {l : List BoothRecord} {w m : Nat} {last new : BoothRecord}
    (hlast : l.getLast? = some last) (hnew : new = last.next w m)
    (h : ∀ k r r', l[k]? = some r → l[k + 1]? = some r' → r' = r.next w m) :
    ∀ k r r', (l ++ [new])[k]? = some r → (l ++ [new])[k + 1]? = some r' → r' = r.next w m := by
  intro k r r' hr hr'
  obtain ⟨hk, -⟩ := List.getElem?_eq_some_iff.1 hr'
  rw [List.length_append, List.length_singleton, Nat.add_lt_add_iff_right] at hk
  rw [List.getElem?_append_left hk] at hr
  by_cases hk1 : k + 1 < l.length
  · rw [List.getElem?_append_left hk1] at hr'
    exact h k r r' hr hr'
  · have hend : k + 1 = l.length := by omega
    rw [hend, List.getElem?_concat_length, Option.some_inj] at hr'
    rw [List.getLast?_eq_getElem?, ← hend, Nat.add_sub_cancel, hr, Option.some_inj] at hlast
    rw [← hr', hnew, hlast]

/-- A progressing step keeps the invariants of a multiplication (R143 to R147). -/
theorem BoothRunning.stepped (h : BoothRunning p b) (hphase : b.phase = .stepping) : BoothRunning p b.stepped where
  width_pos := h.width_pos
  width_le := h.width_le
  word_M := h.word_M
  word_A := Bmu.nextRecord_A_lt h.width_pos h.word_A
  word_Q := Bmu.nextRecord_Q_lt h.width_pos h.word_Q
  step_le := by
    have hne : b.currentStep ≠ b.W := fun e => by
      have := h.complete_iff.2 e
      rw [hphase] at this
      cases this
    exact Nat.lt_of_le_of_ne h.step_le hne
  complete_iff := by
    rw [Bmu.stepped_phase, Bmu.stepped_currentStep, Bmu.stepped_W, hphase]
    split_ifs with hlast <;> simp [hlast]
  history_length := by
    rw [Bmu.stepped_history, List.length_append, h.history_length]
    rfl
  first_record := by
    obtain ⟨r, hr, hrest⟩ := h.first_record
    refine ⟨r, ?_, hrest⟩
    rw [Bmu.stepped_history, List.head?_append, hr]
    rfl
  later_records := by
    obtain ⟨r, hr, hstep, hA, hQ, hQ1⟩ := h.last_record
    exact later_records_append hr (BoothRecord.next_eq_nextRecord hstep hA hQ hQ1).symm h.later_records
  last_record := ⟨b.nextRecord, List.getLast?_concat, rfl, rfl, rfl, rfl⟩

theorem Bmu.initialised_consistent {width : Int} (hpos : 1 ≤ width) (hmax : width ≤ p.W_MAX) (k : Nat) (m q : Int) :
    (Bmu.initialised k width.toNat m q).Consistent p :=
  ⟨fun h => (by cases h), fun _ => .initialised hpos hmax k m q⟩

theorem Bmu.stepped_consistent (h : b.Consistent p) (hphase : b.phase = .stepping) : b.stepped.Consistent p := by
  refine ⟨fun hidle => ?_, fun _ => (h.running hphase).stepped hphase⟩
  rw [Bmu.stepped_phase, hphase] at hidle
  split_ifs at hidle

/-! ### The stack machine -/

theorem Scu.cleared_consistent (hp : p.admitted = true) (k : Nat) : ScuConsistent p (Scu.cleared p k) where
  sp_length := Int.add_zero _
  length_le := Nat.zero_le _
  elements_fit := fun v hv => by cases hv
  sp_fits := cellFits_of_admitted hp (Int.natCast_nonneg _) le_rfl
  ax_fits := cellFits_zero hp
  bx_fits := cellFits_zero hp
  cx_fits := cellFits_zero hp
  dx_fits := cellFits_zero hp

/-- A stack command that draws AX to DX need only keep the bookkeeping of SP and the range of the elements: the free
registers fit by themselves, and SP fits since it lies in `[0, MAX_STACK_SIZE]` (R33). -/
theorem ScuConsistent.of_drawn (hp : p.admitted = true) {stack : List Int} {sp : Int} (flags : Flags)
    (trace : List String) (hsp : sp + stack.length = p.MAX_STACK_SIZE) (hlen : stack.length ≤ p.MAX_STACK_SIZE)
    (hfit : ∀ v ∈ stack, cellFits p v = true) :
    ScuConsistent p
      { u.drawRegisters p k with operandStack := stack, SP := sp, flags := flags, instructionTrace := trace } where
  sp_length := hsp
  length_le := hlen
  elements_fit := hfit
  sp_fits := cellFits_of_admitted (sp := sp) hp (by omega) (by omega)
  ax_fits := cellFits_cellValue _ (Params.cell_bits_pos hp)
  bx_fits := cellFits_cellValue _ (Params.cell_bits_pos hp)
  cx_fits := cellFits_cellValue _ (Params.cell_bits_pos hp)
  dx_fits := cellFits_cellValue _ (Params.cell_bits_pos hp)

theorem Scu.pushed_consistent (hp : p.admitted = true) (h : ScuConsistent p u) {value : Int}
    (hroom : u.operandStack.length ≠ p.MAX_STACK_SIZE) (hfit : cellFits p value = true) :
    ScuConsistent p (u.pushed p k value) := by
  have hsp := h.sp_length
  have hle := h.length_le
  refine .of_drawn hp u.flags _ ?_ ?_ (List.forall_mem_append.2 ⟨h.elements_fit, by simpa using hfit⟩)
  · rw [List.length_append, List.length_singleton]
    omega
  · rw [List.length_append, List.length_singleton]
    omega

theorem Scu.popped_consistent (hp : p.admitted = true) (h : ScuConsistent p u) {below : List Int} {top : Int}
    (hstack : u.operandStack = below ++ [top]) : ScuConsistent p (u.popped p k below) := by
  obtain ⟨hsp, hle, hfit⟩ := And.intro h.sp_length (And.intro h.length_le h.elements_fit)
  rw [hstack, List.length_append, List.length_singleton] at hsp hle
  rw [hstack, List.forall_mem_append] at hfit
  exact .of_drawn hp u.flags _ (by omega) (by omega) hfit.1

theorem Scu.computed_consistent (hp : p.admitted = true) (h : ScuConsistent p u) {below : List Int} {x y r : Int}
    (flags : Flags) (hstack : u.operandStack = below ++ [x, y]) (hr : cellFits p r = true) :
    ScuConsistent p (u.computed p k below r flags) := by
  obtain ⟨hsp, hle, hfit⟩ := And.intro h.sp_length (And.intro h.length_le h.elements_fit)
  simp only [hstack, List.length_append, List.length_cons, List.length_nil] at hsp hle
  rw [hstack, List.forall_mem_append] at hfit
  refine .of_drawn hp flags _ ?_ ?_ (List.forall_mem_append.2 ⟨hfit.1, by simpa using hr⟩)
  · rw [List.length_append, List.length_singleton]
    omega
  · rw [List.length_append, List.length_singleton]
    omega

/-! ### The memory unit -/

theorem MemUnit.initial_consistent (hp : p.admitted = true) : MemConsistent (MemUnit.initial p) :=
  ⟨rfl, rfl, Nat.zero_le _, Params.stack_segment_fits hp⟩

theorem validAddress_toNat_lt {addr : Int} (h : validAddress addr = true) : addr.toNat < memSize := by
  obtain ⟨h0, hlt⟩ := of_decide_eq_true h
  omega

theorem MemUnit.afterRead_consistent {m : MemUnit} (h : MemConsistent m) (k addr : Nat) :
    MemConsistent (m.afterRead k addr) :=
  ⟨h.mem_wf, h.written_set, appendLog_length_le _ _, h.stack_segment⟩

theorem MemUnit.afterWrite_consistent {m : MemUnit} (h : MemConsistent m) {addr : Nat} (ha : addr < memSize)
    (k : Nat) (v : Byte) : MemConsistent (m.afterWrite k addr v) :=
  ⟨Memory.wf_write h.mem_wf ha, addressSet_addAddress h.written_set (Nat.zero_le _) ha, appendLog_length_le _ _,
    h.stack_segment⟩

theorem MemUnit.afterFill_consistent {m : MemUnit} (h : MemConsistent m) {start count : Nat}
    (hc : start + count ≤ memSize) (k : Nat) (v : Byte) : MemConsistent (m.afterFill k start count v) :=
  ⟨Memory.wf_fill h.mem_wf hc, addressSet_anyMembership k start count (m.anyStatistics k) h.written_set hc,
    appendLog_length_le _ _, h.stack_segment⟩

/-! ### The machine -/

theorem State.Consistent.of_accept (h : s.Consistent) (rest : List HostInput) : (s.accept rest).Consistent :=
  ⟨h.params_admitted, h.bmu, h.scu, h.memUnit⟩

theorem State.Consistent.of_response (h : s.Consistent) (r : Option Response) :
    State.Consistent { s with response := r } :=
  ⟨h.params_admitted, h.bmu, h.scu, h.memUnit⟩

theorem State.Consistent.of_bmu (h : s.Consistent) {b : Bmu} (hb : b.Consistent s.params) (r : Option Response) :
    State.Consistent { s with bmu := b, response := r } :=
  ⟨h.params_admitted, hb, h.scu, h.memUnit⟩

theorem State.Consistent.of_memUnit (h : s.Consistent) {m : MemUnit} (hm : MemConsistent m) (r : Option Response) :
    State.Consistent { s with memUnit := m, response := r } :=
  ⟨h.params_admitted, h.bmu, h.scu, hm⟩

/-- A stack command that leaves a consistent stack machine leaves a consistent state, with and without a memory. -/
theorem State.Consistent.of_commitStack (hs : s.Consistent) {vacated : Bool} {r : Response}
    (hu : ScuConsistent s.params u) (h : s.commitStack u vacated r = .next t) : t.Consistent := by
  obtain ⟨-, hproj, rfl⟩ | ⟨-, rfl⟩ := State.commitStack_cases h
  · exact ⟨hs.params_admitted, hs.bmu, hu, MemUnit.project_consistent _ _ _ hs.memUnit hproj⟩
  · exact ⟨hs.params_admitted, hs.bmu, hu, hs.memUnit⟩

theorem State.Consistent.hardwareReset (h : s.Consistent) : s.hardwareReset.Consistent :=
  ⟨h.params_admitted, Bmu.discarded_consistent _ _, Scu.cleared_consistent h.params_admitted _,
    MemUnit.initial_consistent h.params_admitted⟩

/-- Every effect of a command keeps the machine consistent. -/
theorem Effect.consistent (h : Effect s i t) (hs : s.Consistent) : t.Consistent := by
  have hp := hs.params_admitted
  cases h with
  | failed _ e he => exact hs.of_response _
  | answered _ r hi hr => exact hs.of_response _
  | binit m q width hpos hmax hm hq => exact hs.of_bmu (Bmu.initialised_consistent hpos hmax _ m q) _
  | bstep hphase => exact hs.of_bmu (Bmu.stepped_consistent hs.bmu hphase) _
  | breset => exact hs.of_bmu (Bmu.discarded_consistent _ _) _
  | push value _ hlen hfit h => exact hs.of_commitStack (Scu.pushed_consistent hp hs.scu hlen hfit) h
  | pop below top _ hstack h => exact hs.of_commitStack (Scu.popped_consistent hp hs.scu hstack) h
  | sreset => exact ⟨hp, hs.bmu, Scu.cleared_consistent hp _, hs.memUnit⟩
  | binary _ op below a b r _ hi hstack hr hfit h =>
    exact hs.of_commitStack (Scu.computed_consistent hp hs.scu _ hstack hfit) h
  | readb addr ha => exact hs.of_memUnit (MemUnit.afterRead_consistent hs.memUnit _ _) _
  | writeb addr value ha hv =>
    exact hs.of_memUnit (MemUnit.afterWrite_consistent hs.memUnit (validAddress_toNat_lt ha) _ _) _
  | fill first last value hle hfirst hlast hv =>
    exact hs.of_memUnit (MemUnit.afterFill_consistent hs.memUnit (by omega) _ _) _
  | search value r hv hr => exact hs.of_memUnit (MemUnit.scanned_consistent _ hs.memUnit) _
  | inspect addr r ha hr => exact hs.of_memUnit (MemUnit.scanned_consistent _ hs.memUnit) _

/-- Settles O9: a step waits, resets, or has the effect of a command or a failure, and each keeps the machine
consistent. -/
theorem stepKeepsConsistency : Obligations.StepKeepsConsistency := by
  intro s t hs h
  obtain ⟨-, rfl⟩ | ⟨rest, -, rfl⟩ | ⟨c, rest, -, ⟨i, -, heffect⟩ | ⟨e, -, rfl⟩⟩ := step_cases h
  · exact hs
  · exact (hs.of_accept rest).hardwareReset
  · exact heffect.consistent (hs.of_accept rest)
  · exact (hs.of_accept rest).of_response _

/-- Settles O7: the units at reset are those that the hardware reset leaves, but for the registers of the multiplier,
which is IDLE. -/
theorem resetIsConsistent : Obligations.ResetIsConsistent :=
  have hp : Params.atReset.admitted = true := by decide
  ⟨hp, ⟨fun _ => rfl, fun h => absurd rfl h⟩, Scu.cleared_consistent hp 0, MemUnit.initial_consistent hp⟩

end Sys2Proof.Machine
end

section
/-! PROOFS. The registers no command writes, and the state after a reset. -/

namespace Sys2Proof.Machine

variable {s t : State} {i : Instr}

/-- The parameters and the segment registers are the same (R6, R39). -/
structure SameSegments (s t : State) : Prop where
  params : t.params = s.params
  cs : t.memUnit.CS = s.memUnit.CS
  ds : t.memUnit.DS = s.memUnit.DS
  ss : t.memUnit.SS = s.memUnit.SS
  es : t.memUnit.ES = s.memUnit.ES

theorem State.commitStack_sameSegments {u : Scu} {vacated : Bool} {r : Response}
    (h : s.commitStack u vacated r = .next t) : SameSegments s t := by
  obtain ⟨-, -, -, hparams, -, -, hcs, hds, hss, hes⟩ := State.commitStack_frame h
  exact ⟨hparams, hcs, hds, hss, hes⟩

/-- No command writes a parameter or a segment register: the units a command stores to keep them as they are. -/
theorem Effect.sameSegments (h : Effect s i t) : SameSegments s t := by
  cases h with
  | push _ _ _ _ h => exact State.commitStack_sameSegments h
  | pop _ _ _ _ h => exact State.commitStack_sameSegments h
  | binary _ _ _ _ _ _ _ _ _ _ _ h => exact State.commitStack_sameSegments h
  | _ => exact ⟨rfl, rfl, rfl, rfl, rfl⟩

/-- Settles O14: only the reset writes them, and an effect of a command or a failure leaves them. -/
theorem noCommandWritesSegmentRegisters : Obligations.NoCommandWritesSegmentRegisters := by
  intro s t h
  obtain ⟨-, rfl⟩ | ⟨rest, hrst, rfl⟩ | ⟨c, rest, -, ⟨i, -, heffect⟩ | ⟨e, -, rfl⟩⟩ := step_cases h
  · exact ⟨rfl, fun _ => ⟨rfl, rfl, rfl, rfl⟩⟩
  · exact ⟨rfl, fun hne => absurd (by rw [hrst]; rfl) hne⟩
  · obtain ⟨hparams, hcs, hds, hss, hes⟩ := heffect.sameSegments
    exact ⟨hparams, fun _ => ⟨hcs, hds, hss, hes⟩⟩
  · exact ⟨rfl, fun _ => ⟨rfl, rfl, rfl, rfl⟩⟩

theorem Scu.cleared_atReset (p : Params) (k : Nat) : Claims.scuAtReset p (Scu.cleared p k) :=
  ⟨rfl, rfl, rfl, rfl, rfl, rfl, rfl⟩

/-- Settles O6: `rst` leaves the reset values of the three units, SRESET and BRESET those of their own. -/
theorem hardwareResetState : Obligations.HardwareResetState := by
  refine ⟨fun s rest hrst => ?rst, fun s t h => ?sreset, fun s t h => ?breset, fun s hin => step_of_no_input hin⟩
  case rst =>
    exact ⟨_, step_of_rst hrst, rfl, rfl, Scu.cleared_atReset _ _, fun a => rfl, rfl, rfl, rfl, rfl, rfl, rfl, rfl, rfl,
      rfl, rfl, rfl⟩
  case sreset =>
    obtain rfl := (State.respond_next_iff _).1 h
    exact ⟨Scu.cleared_atReset _ _, rfl, rfl⟩
  case breset =>
    obtain rfl := (State.respond_next_iff _).1 h
    exact ⟨rfl, rfl, rfl, rfl⟩

end Sys2Proof.Machine
end

section
/-! PROOFS. The flags of a successful binary operation. The model's quotient and its count of ones are those of the
statement's own words. -/

namespace Sys2Proof.Machine

variable {s t : State}

/-! ### The result -/

/-- The floor of `|a| / |b|`, negated when the signs differ, is the division that rounds towards 0 (R181). -/
theorem quotTrunc_eq_tdiv (a b : Int) : quotTrunc a b = a.tdiv b := by
  unfold quotTrunc
  rcases lt_or_ge a 0 with ha | ha <;> rcases lt_or_ge b 0 with hb | hb
  · rw [if_pos (by simp [ha, hb])]
    obtain ⟨m, rfl⟩ := Int.exists_eq_neg_ofNat ha.le
    obtain ⟨n, rfl⟩ := Int.exists_eq_neg_ofNat hb.le
    simp
  · rw [if_neg (by simp [ha, hb])]
    obtain ⟨m, rfl⟩ := Int.exists_eq_neg_ofNat ha.le
    lift b to Nat using hb
    simp
  · rw [if_neg (by simp [ha, hb])]
    obtain ⟨n, rfl⟩ := Int.exists_eq_neg_ofNat hb.le
    lift a to Nat using ha
    simp
  · rw [if_pos (by simp [not_lt.2 ha, not_lt.2 hb])]
    lift a to Nat using ha
    lift b to Nat using hb
    simp

/-- For an inexact quotient, equal signs and a product that is not negative are the same condition. -/
theorem sameSign_iff {a b : Int} (hdvd : ¬ b ∣ a) (hb : b ≠ 0) : (a < 0) = (b < 0) ↔ 0 ≤ a * b := by
  have ha : a ≠ 0 := fun h => hdvd (h ▸ dvd_zero b)
  rw [eq_iff_iff, mul_nonneg_iff]
  omega

/-- The model's quotient is the statement's (R181). -/
theorem quot_eq_quotient (round : DivRound) {a b : Int} (hb : b ≠ 0) :
    quot round a b = Claims.quotient round a b := by
  unfold quot Claims.quotient
  simp only [quotTrunc_eq_tdiv, ← Int.dvd_iff_emod_eq_zero]
  by_cases hdvd : b ∣ a
  · simp [hdvd]
  · simp only [sameSign_iff hdvd hb, hdvd, false_or, or_false]
    cases round with
    | trunc => simp
    | floor => simp

/-- The model's result is the statement's, where the operation has one (R176 to R182). -/
theorem result_eq_resultOf (op : BinOp) (round : DivRound) {a b : Int} (h : ¬ (op.divides = true ∧ b = 0)) :
    op.result round a b = Claims.resultOf round a b op := by
  cases op with
  | add => rfl
  | sub => rfl
  | mul => rfl
  | div => exact quot_eq_quotient round fun hb => h ⟨rfl, hb⟩
  | mod => exact congrArg (fun q => a - b * q) (quot_eq_quotient round fun hb => h ⟨rfl, hb⟩)

/-- A binary operation that succeeds on `below ++ [a, b]` computes the result of `a` and `b`. -/
theorem State.binaryOp_scu_of_ok {op : BinOp} {below : List Int} {a b : Int}
    (hstack : s.scu.operandStack = below ++ [a, b]) (h : s.binaryOp op = .next t)
    (hok : Claims.statusOf t = some .ok) :
    ¬ (op.divides = true ∧ b = 0) ∧
      t.scu =
        s.scu.computed s.params s.draws below (op.result s.params.DIV_ROUND a b)
          (flagsOf op a b (op.result s.params.DIV_ROUND a b)) := by
  rw [State.binaryOp_eq hstack] at h
  split_ifs at h with hzero hfit
  · obtain rfl := (State.raise_next_iff _).1 h
    cases hok
  · exact ⟨hzero, (State.commitStack_frame h).1⟩
  · obtain rfl := (State.raise_next_iff _).1 h
    cases hok

/-! ### The flags -/

/-- A bit of the low byte, as the number it adds to the count. -/
theorem bit_low_byte (n : Nat) {k : Nat} (hk : k < 8) :
    (if (n % 256).testBit k = true then 1 else 0) = n / 2 ^ k % 2 := by
  rw [show 256 = 2 ^ 8 from rfl, Nat.testBit_mod_two_pow, Nat.testBit_eq_decide_div_mod_eq]
  simp only [hk, decide_true, Bool.true_and, decide_eq_true_eq]
  split_ifs <;> omega

/-- The ones of the low byte, counted bit by bit (R13, R185). -/
theorem popcount8_low_byte (n : Nat) : popcount8 (n % 256) = Claims.lowOnes n := by
  have hbits : List.range 8 = [0, 1, 2, 3, 4, 5, 6, 7] := rfl
  unfold popcount8 Claims.lowOnes
  rw [← List.countP_eq_length_filter, hbits]
  simp only [List.countP_cons, List.countP_nil, bit_low_byte n, Nat.reduceLT, Nat.reducePow]
  omega

theorem parityFlag_iff (r : Int) : parityFlag r = true ↔ Claims.lowOnes r.natAbs % 2 = 0 := by
  rw [parityFlag, popcount8_low_byte, decide_eq_true_eq]

theorem carryFlag_iff (op : BinOp) (a b : Int) :
    carryFlag op a b = true ↔ (op = .add ∧ a + b > 65535) ∨ (op = .sub ∧ a < b) := by
  cases op <;> simp [carryFlag]

theorem auxFlag_iff (op : BinOp) (a b : Int) :
    auxFlag op a b = true ↔ (op = .add ∧ a % 16 + b % 16 > 0xF) ∨ (op = .sub ∧ a % 16 - b % 16 < 0) := by
  cases op <;> simp [auxFlag]

/-- Settles O45: the flags are those of the operands and the unwrapped result, rule by rule. -/
theorem flagsOfBinaryOperation : Obligations.FlagsOfBinaryOperation := by
  intro op s t below a b r hstack hr h hok
  rw [exec_instrOf] at h
  obtain ⟨hzero, hscu⟩ := State.binaryOp_scu_of_ok hstack h hok
  rw [result_eq_resultOf op _ hzero, ← hr] at hscu
  rw [hscu, Scu.computed_flags]
  exact ⟨decide_eq_true_iff, decide_eq_true_iff, parityFlag_iff r, carryFlag_iff op a b, decide_eq_true_iff,
    auxFlag_iff op a b⟩

end Sys2Proof.Machine
end

section
/-! PROOFS. Which unit a command writes, what it appends to, and what the FPC answers. -/

namespace Sys2Proof.Machine

variable {s t : State} {i : Instr}

/-! ### The unit of a command -/

theorem unit_instrOf (op : BinOp) : (opcode (Claims.instrOf op)).toNat / 16 = 2 := by
  cases op <;> rfl

theorem fpc_cases (h : (opcode i).toNat / 16 = 0) :
    (∃ value, i = .fencS value) ∨ (∃ value, i = .fencD value) ∨ ∃ word len, i = .fdec word len := by
  cases i with
  | fencS value => exact .inl ⟨value, rfl⟩
  | fencD value => exact .inr (.inl ⟨value, rfl⟩)
  | fdec word len => exact .inr (.inr ⟨word, len, rfl⟩)
  | _ => simp [opcode] at h

/-! ### The units a command leaves -/

theorem State.commitStack_bmu {u : Scu} {vacated : Bool} {r : Response}
    (h : s.commitStack u vacated r = .next t) : t.bmu = s.bmu := by
  obtain ⟨-, -, hbmu, -⟩ := State.commitStack_frame h
  exact hbmu

theorem State.commitStack_scu {u : Scu} {vacated : Bool} {r : Response}
    (h : s.commitStack u vacated r = .next t) : t.scu = u := by
  obtain ⟨hscu, -⟩ := State.commitStack_frame h
  exact hscu

/-- Only BMU commands write the multiplier (R154, R280). -/
theorem Effect.bmu_eq (h : Effect s i t) (hunit : (opcode i).toNat / 16 ≠ 1) : t.bmu = s.bmu := by
  cases h with
  | binit | bstep | breset => simp [opcode] at hunit
  | push _ _ _ _ h => exact State.commitStack_bmu h
  | pop _ _ _ _ h => exact State.commitStack_bmu h
  | binary _ _ _ _ _ _ _ _ _ _ _ h => exact State.commitStack_bmu h
  | _ => rfl

/-- Only SCU commands write the stack machine (R280). -/
theorem Effect.scu_eq (h : Effect s i t) (hunit : (opcode i).toNat / 16 ≠ 2) : t.scu = s.scu := by
  cases h with
  | push | pop | sreset => simp [opcode] at hunit
  | binary _ op _ _ _ _ _ hi => exact (hunit (hi ▸ unit_instrOf op)).elim
  | _ => rfl

/-- Only SCU commands, by their projection, and MEM commands write the memory unit (R280). -/
theorem Effect.memUnit_eq (h : Effect s i t) (hscu : (opcode i).toNat / 16 ≠ 2)
    (hmem : (opcode i).toNat / 16 ≠ 3) : t.memUnit = s.memUnit := by
  cases h with
  | push | pop => simp [opcode] at hscu
  | binary _ op _ _ _ _ _ hi => exact (hscu (hi ▸ unit_instrOf op)).elim
  | readb | writeb | fill | search | inspect => simp [opcode] at hmem
  | _ => rfl

/-! ### What the FPC answers -/

/-- The response of FENC.S and FENC.D (R111, R116, R117). -/
def encodedResponse (fmt : Format) (cap value : Nat) : Response :=
  match encodeValue fmt cap value with
  | some (w, k) => .word w k
  | none => .error .encodeRange

theorem State.respondEncoded_eq (fmt : Format) (cap value : Nat) (s : State) :
    s.respondEncoded fmt cap value = s.respond (encodedResponse fmt cap value) := by
  unfold State.respondEncoded encodedResponse
  cases encodeValue fmt cap value <;> rfl

/-- The response of FDEC, at the index `k` of the free values (R118, R119, R125). -/
def decodedResponse (k word : Nat) (len : Int) : Response :=
  if len = 32 then
    let d := decodeValue Format.single deliverSingle (word % 2 ^ 32)
    .word d.1 d.2
  else if len = 64 then
    let d := decodeValue Format.double
      (fun f => deliverDouble f (Config.anyUpperNeighbour k (word % 2 ^ 64))) (word % 2 ^ 64)
    .word d.1 d.2
  else .error .formatError

theorem execFdec_eq (word : Nat) (len : Int) (s : State) :
    execFdec word len s = s.respond (decodedResponse s.draws word len) := by
  unfold execFdec decodedResponse
  split_ifs <;> rfl

/-- An FPC command answers, and what it answers is fixed by its operands, the two caps and the index of the free
values (R21). -/
theorem exec_fpc (h : (opcode i).toNat / 16 = 0) :
    ∃ answer : Nat → Nat → Nat → Response,
      ∀ s, exec i s = s.respond (answer s.params.FRAC_CAP_S s.params.FRAC_CAP_D s.draws) := by
  obtain ⟨value, rfl⟩ | ⟨value, rfl⟩ | ⟨word, len, rfl⟩ := fpc_cases h
  · exact ⟨fun capS _ _ => encodedResponse .single capS value, fun s => State.respondEncoded_eq _ _ _ s⟩
  · exact ⟨fun _ capD _ => encodedResponse .double capD value, fun s => State.respondEncoded_eq _ _ _ s⟩
  · exact ⟨fun _ _ k => decodedResponse k word len, execFdec_eq word len⟩

theorem exec_fpc_answers (hfpc : (opcode i).toNat / 16 = 0) (h : exec i s = .next t) :
    ∃ r, t = Claims.answered s r := by
  obtain ⟨answer, hexec⟩ := exec_fpc hfpc
  rw [hexec] at h
  exact ⟨_, (State.respond_next_iff _).1 h⟩

/-! ### What only grows -/

/-- A command that neither begins nor discards a multiplication keeps the history's records in place (R29). -/
theorem Effect.history_prefix (h : Effect s i t) (hbinit : ¬ ∃ m q w, i = .binit m q w) (hbreset : i ≠ .breset) :
    s.bmu.history <+: t.bmu.history := by
  cases h with
  | binit m q w => exact absurd ⟨m, q, w, rfl⟩ hbinit
  | breset => exact absurd rfl hbreset
  | bstep => exact List.prefix_append _ _
  | push _ _ _ _ h => rw [State.commitStack_bmu h]
  | pop _ _ _ _ h => rw [State.commitStack_bmu h]
  | binary _ _ _ _ _ _ _ _ _ _ _ h => rw [State.commitStack_bmu h]
  | _ => exact List.prefix_rfl

/-- Every command but SRESET keeps the lines of the trace in place (R36). -/
theorem Effect.trace_prefix (h : Effect s i t) (hsreset : i ≠ .sreset) :
    s.scu.instructionTrace <+: t.scu.instructionTrace := by
  cases h with
  | sreset => exact absurd rfl hsreset
  | push _ _ _ _ h => rw [State.commitStack_scu h]; exact List.prefix_append _ _
  | pop _ _ _ _ h => rw [State.commitStack_scu h]; exact List.prefix_append _ _
  | binary _ _ _ _ _ _ _ _ _ _ _ h => rw [State.commitStack_scu h]; exact List.prefix_append _ _
  | _ => exact List.prefix_rfl

/-! ### The obligations -/

/-- Settles O8: an empty history has no INIT record to speak of. -/
theorem resetHoldsPartialProduct : Obligations.ResetHoldsPartialProduct :=
  ⟨fun _ hr => (nomatch hr), rfl⟩

/-- Settles O15: each unit is written by its own commands only, but for the memory, which the projection writes too. -/
theorem unitsAreIsolated : Obligations.UnitsAreIsolated := by
  intro i s t h
  have heffect := exec_effect h
  refine ⟨fun hfpc => exec_fpc_answers hfpc h, fun hbmu => ?bmu, fun hscu => ?scu, fun hmem => ?mem⟩
  case bmu => exact ⟨heffect.scu_eq (by omega), heffect.memUnit_eq (by omega) (by omega)⟩
  case scu => exact heffect.bmu_eq (by omega)
  case mem => exact ⟨heffect.bmu_eq (by omega), heffect.scu_eq (by omega)⟩

/-- Settles O17: of the commands left, BSTEP appends to the history, and PUSH, POP and the binary operations to the
trace. -/
theorem historyAndTraceAppendOnly : Obligations.HistoryAndTraceAppendOnly := fun _ _ _ h =>
  ⟨(exec_effect h).history_prefix, (exec_effect h).trace_prefix⟩

/-- Settles O18: the response is a function of the command, the caps and the index of the free values. -/
theorem fpcAnswersFromOperands : Obligations.FpcAnswersFromOperands := by
  intro i s₁ s₂ t₁ t₂ hfpc hcapS hcapD hdraws h₁ h₂
  obtain ⟨answer, hexec⟩ := exec_fpc hfpc
  rw [hexec, State.respond_next_iff] at h₁ h₂
  rw [h₁, h₂, hcapS, hcapD, hdraws]

end Sys2Proof.Machine
end

section
/-! PROOFS. Which commands write a byte of the memory, and what the stack projection of a stack-changing command stores
(20_memory.md R53, R60, R61). -/

namespace Sys2Proof.Machine

variable {s t : State} {i : Instr} {u : MemUnit} {stack : List Int} {vacated : Bool}

/-! ### The commands that write no byte -/

theorem stackChanging_instrOf (op : BinOp) : Claims.stackChanging (Claims.instrOf op) = true := by
  cases op <;> rfl

/-- A command that neither stores nor projects keeps every byte; READB, SEARCH and INSPECT write the statistics of the
memory unit only. -/
theorem Effect.mem_eq (h : Effect s i t) (hstack : Claims.stackChanging i = false)
    (hwriteb : ¬ ∃ a v, i = .writeb a v) (hfill : ¬ ∃ a b v, i = .fill a b v) : t.memUnit.mem = s.memUnit.mem := by
  cases h with
  | push | pop => cases hstack
  | binary _ op _ _ _ _ _ hi =>
    rw [hi, stackChanging_instrOf] at hstack
    cases hstack
  | writeb a v => exact absurd ⟨a, v, rfl⟩ hwriteb
  | fill a b v => exact absurd ⟨a, b, v, rfl⟩ hfill
  | _ => rfl

/-! ### What the projection stores -/

theorem projectionFits_iff {ss : Word16} {slots : Nat} :
    projectionFits ss slots = true ↔ ss.toNat * 16 + 0xFFFF < memSize ∧ slots ≤ 32768 :=
  decide_eq_true_iff

theorem length_le_slotsTouched (stack : List Int) (vacated : Bool) : stack.length ≤ slotsTouched stack vacated :=
  Nat.le_add_right _ _

/-- The memory that the projection's loop starts from is canonical, whether a slot was vacated or not. -/
theorem wf_vacatedBytes {ss : Word16} {m : Memory} (hfit : ss.toNat * 16 + 0xFFFF < memSize) (h : m.wf = true)
    (k depth : Nat) (vacated : Bool) : (if vacated then vacateSlot k ss depth m else m).wf = true := by
  split
  · exact wf_vacateSlot hfit k depth h
  · exact h

/-- The two bytes of a value's low 16 bits, as integers (R54, R62). -/
theorem toNat_bytes_umod16 (v : Int) :
    ((BitVec.ofNat 8 (umod 16 v)).toNat : Int) = v % 256 ∧
      ((BitVec.ofNat 8 (umod 16 v / 256)).toNat : Int) = v / 256 % 256 := by
  have hlow := umod_cast 16 v
  simp only [BitVec.toNat_ofNat]
  omega

/-- After the projection a live element lies in its slot, little-endian (R60, R62). -/
theorem MemUnit.read_project_slot (hwf : u.mem.wf = true)
    (hfit : projectionFits u.SS (slotsTouched stack vacated) = true) (k : Nat) {d : Nat} {v : Int}
    (hv : stack[d]? = some v) :
    (((u.project k stack vacated).mem.read (slotAddress u.SS d)).toNat : Int) = v % 256 ∧
      (((u.project k stack vacated).mem.read (slotAddress u.SS d + 1)).toNat : Int) = v / 256 % 256 := by
  obtain ⟨hss, hslots⟩ := projectionFits_iff.1 hfit
  have hlen : 0 + stack.length ≤ 32768 := by
    rw [Nat.zero_add]
    exact (length_le_slotsTouched stack vacated).trans hslots
  obtain ⟨hlow, hhigh⟩ :=
    read_projectSlots_slot hss stack 0 (wf_vacatedBytes hss hwf k stack.length vacated) hlen d v hv
  rw [Nat.zero_add] at hlow hhigh
  rw [MemUnit.project_mem, hlow, hhigh]
  exact toNat_bytes_umod16 v

/-- The projection keeps every byte outside the slots it may touch (R61). -/
theorem MemUnit.read_project_frame (hwf : u.mem.wf = true)
    (hfit : projectionFits u.SS (slotsTouched stack vacated) = true) (k : Nat) {addr : Nat}
    (haddr : ∀ d < slotsTouched stack vacated, addr ≠ slotAddress u.SS d ∧ addr ≠ slotAddress u.SS d + 1) :
    (u.project k stack vacated).mem.read addr = u.mem.read addr := by
  obtain ⟨hss, -⟩ := projectionFits_iff.1 hfit
  have hlive : ∀ j < stack.length, addr ≠ slotAddress u.SS (0 + j) ∧ addr ≠ slotAddress u.SS (0 + j) + 1 := by
    intro j hj
    rw [Nat.zero_add]
    exact haddr j (hj.trans_le (length_le_slotsTouched stack vacated))
  rw [MemUnit.project_mem,
    read_projectSlots_frame hss stack 0 (wf_vacatedBytes hss hwf k stack.length vacated) addr hlive]
  split
  · next hvacated =>
    obtain ⟨hlow, hhigh⟩ := haddr stack.length (by simp [slotsTouched, hvacated])
    rw [read_vacateSlot hss k stack.length hwf, if_neg (not_or.2 ⟨hlow, hhigh⟩)]
  · rfl

/-! ### The stack-changing commands -/

theorem mayOnlyAnswer_of_stackChanging (h : Claims.stackChanging i = true) : mayOnlyAnswer i = false := by
  cases i with
  | push | pop | add | sub | mul | div | mod => rfl
  | _ => cases h

theorem slotCount_instrOf (op : BinOp) (t : State) :
    Claims.slotCount (Claims.instrOf op) t = t.scu.operandStack.length + 1 := by
  cases op <;> rfl

/-- A stack-changing command fails, or commits the stack it leaves; only PUSH vacates no slot. -/
theorem Effect.stackChanging_cases (h : Effect s i t) (hi : Claims.stackChanging i = true) :
    (∃ e, e ≠ .ok ∧ t = { s with response := some (Response.error e) }) ∨
      ∃ vacated r, s.commitStack t.scu vacated r = .next t ∧
        slotsTouched t.scu.operandStack vacated = Claims.slotCount i t := by
  cases h with
  | failed _ e he => exact .inl ⟨e, he, rfl⟩
  | answered _ _ hanswer =>
    rw [mayOnlyAnswer_of_stackChanging hi] at hanswer
    cases hanswer
  | push _ _ _ _ h => exact .inr ⟨false, _, State.commitStack_scu h ▸ h, rfl⟩
  | pop _ _ _ _ h => exact .inr ⟨true, _, State.commitStack_scu h ▸ h, rfl⟩
  | binary _ op _ _ _ _ _ hop _ _ _ h =>
    exact .inr ⟨true, _, State.commitStack_scu h ▸ h, by rw [hop, slotCount_instrOf]; rfl⟩
  | _ => cases hi

/-! ### The obligations -/

/-- Settles O16: the effects of the commands left do not touch the bytes. -/
theorem onlyStoringCommandsWriteMemory : Obligations.OnlyStoringCommandsWriteMemory := fun _ _ _ h =>
  (exec_effect h).mem_eq

/-- Settles O48: a stack-changing command that succeeds with a memory attached ends with the projection of the stack
it leaves. -/
theorem projectionMirrorsLiveElements : Obligations.ProjectionMirrorsLiveElements := by
  intro i s t d v hattached hwf hi h hok hv
  obtain ⟨e, he, rfl⟩ | ⟨vacated, r, hcommit, -⟩ := (exec_effect h).stackChanging_cases hi
  · exact absurd (Option.some.inj hok) he
  obtain ⟨-, hfit, ht⟩ | ⟨hdetached, -⟩ := State.commitStack_cases hcommit
  · have hdepth : d < 32768 := by
      obtain ⟨hlive, -⟩ := List.getElem?_eq_some_iff.1 hv
      have := length_le_slotsTouched t.scu.operandStack vacated
      have := (projectionFits_iff.1 hfit).2
      omega
    have hhigh : s.memUnit.SS.toNat * 16 + 0xFFFF - 2 * d = slotAddress s.memUnit.SS d + 1 := by
      have := slotAddress_eq (ss := s.memUnit.SS) hdepth
      omega
    rw [hhigh, ht]
    exact MemUnit.read_project_slot hwf hfit s.draws hv
  · rw [hattached] at hdetached
    cases hdetached

/-- Settles O49: a command that fails, or completes without a memory, stores nothing; else only the projection
stores. -/
theorem projectionKeepsOtherBytes : Obligations.ProjectionKeepsOtherBytes := by
  intro i s t addr hwf hi h haddr
  obtain ⟨e, -, rfl⟩ | ⟨vacated, r, hcommit, hcount⟩ := (exec_effect h).stackChanging_cases hi
  · rfl
  obtain ⟨-, hfit, ht⟩ | ⟨-, ht⟩ := State.commitStack_cases hcommit
  · have houtside : ∀ d < slotsTouched t.scu.operandStack vacated,
        addr ≠ slotAddress s.memUnit.SS d ∧ addr ≠ slotAddress s.memUnit.SS d + 1 := by
      intro d hd
      obtain ⟨hhigh, hlow⟩ := haddr d (hcount ▸ hd)
      have := slotAddress_eq (ss := s.memUnit.SS) (hd.trans_le (projectionFits_iff.1 hfit).2)
      exact ⟨hlow, by omega⟩
    rw [ht]
    exact MemUnit.read_project_frame hwf hfit s.draws houtside
  · rw [ht]

end Sys2Proof.Machine
end

section
/-! PROOFS. The operand stack is the master and the memory its mirror (20_memory.md R63): what a stack command leaves in
the stack machine and what it answers do not depend on any byte of the memory. -/

namespace Sys2Proof.Machine

variable {s s' : State}

/-- Two machines agree on all that a stack command reads: the stack machine, the configuration, SS (R59) and the index
of the free values. Of the memory's bytes it says nothing. -/
structure SameStackInputs (s s' : State) : Prop where
  scu : s'.scu = s.scu
  params : s'.params = s.params
  ss : s'.memUnit.SS = s.memUnit.SS
  draws : s'.draws = s.draws

/-- Where the first outcome is a next state, so is the second, with the same stack machine and the same response. -/
def AnswersAlike (o o' : Result) : Prop :=
  ∀ t, o = .next t → ∃ t', o' = .next t' ∧ t'.scu = t.scu ∧ t'.response = t.response

/-! ### The shared endings -/

theorem AnswersAlike.respond (hscu : s'.scu = s.scu) (r : Response) : AnswersAlike (s.respond r) (s'.respond r) := by
  rintro _ ⟨⟩
  exact ⟨_, rfl, hscu, rfl⟩

theorem AnswersAlike.raise (hscu : s'.scu = s.scu) (e : Status) : AnswersAlike (s.raise e) (s'.raise e) :=
  .respond hscu _

/-- Whether the projection is refused depends on SS and the number of slots, never on a byte. -/
theorem AnswersAlike.commitStack (h : SameStackInputs s s') (u : Scu) (vacated : Bool) (r : Response) :
    AnswersAlike (s.commitStack u vacated r) (s'.commitStack u vacated r) := by
  unfold State.commitStack
  rw [h.params, h.ss]
  split_ifs
  · exact .respond (by rfl) r
  · rintro _ ⟨⟩
  · exact .respond (by rfl) r

/-! ### The stack commands -/

theorem SameStackInputs.execPush (h : SameStackInputs s s') (value : Int) :
    AnswersAlike (execPush value s) (execPush value s') := by
  unfold Machine.execPush
  rw [h.scu, h.params, h.draws]
  split_ifs
  · exact .raise h.scu _
  · exact .commitStack h _ _ _
  · exact .raise h.scu _

theorem SameStackInputs.execPop (h : SameStackInputs s s') : AnswersAlike (execPop s) (execPop s') := by
  unfold Machine.execPop
  rw [h.scu, h.params, h.draws]
  split
  · exact .commitStack h _ _ _
  · exact .raise h.scu _

theorem SameStackInputs.execPeek (h : SameStackInputs s s') : AnswersAlike (execPeek s) (execPeek s') := by
  unfold Machine.execPeek
  rw [h.scu]
  split
  · exact .respond h.scu _
  · exact .raise h.scu _

theorem SameStackInputs.execSreset (h : SameStackInputs s s') : AnswersAlike (execSreset s) (execSreset s') := by
  unfold Machine.execSreset
  rw [h.params, h.draws]
  exact .respond (by rfl) _

theorem SameStackInputs.binaryOp (h : SameStackInputs s s') (op : BinOp) :
    AnswersAlike (s.binaryOp op) (s'.binaryOp op) := by
  unfold State.binaryOp
  rw [h.scu, h.params, h.draws]
  dsimp only
  split
  · split_ifs
    · exact .raise h.scu _
    · exact .commitStack h _ _ _
    · exact .raise h.scu _
  · exact .raise h.scu _

theorem SameStackInputs.exec (h : SameStackInputs s s') {i : Instr} (hi : (opcode i).toNat / 16 = 2) :
    AnswersAlike (exec i s) (exec i s') := by
  cases i with
  | push value => exact h.execPush value
  | pop => exact h.execPop
  | peek => exact h.execPeek
  | sreset => exact h.execSreset
  | add => exact h.binaryOp .add
  | sub => exact h.binaryOp .sub
  | mul => exact h.binaryOp .mul
  | div => exact h.binaryOp .div
  | mod => exact h.binaryOp .mod
  | _ => simp [opcode] at hi

/-- Settles O19: other bytes in the memory leave all that a stack command reads. -/
theorem stackIsMaster : Obligations.StackIsMaster := by
  intro i s t m hi h
  have hsame : SameStackInputs s { s with memUnit := { s.memUnit with mem := m } } := ⟨rfl, rfl, rfl, rfl⟩
  exact hsame.exec hi t h

end Sys2Proof.Machine
end

section
/-! PROOFS. The decoder and the encoder: a command word selects its command and the ports its operands
(30_encoding.md R77, R78, R80), and every other word fails (R81). -/

namespace Sys2Proof.Machine

variable {s : State} {i : Instr} {c : Command}

/-! ### The operands on the ports -/

/-- The command of `i` with its operands read from the ports its row names (R78). -/
def withOperands (c : Command) : Instr → Instr
  | .fencS _ => .fencS (argPattern64 c.arg0)
  | .fencD _ => .fencD (argPattern64 c.arg0)
  | .fdec _ _ => .fdec (argPattern64 c.arg0) c.arg1
  | .binit _ _ _ => .binit c.arg0 c.arg1 c.arg2
  | .bstep => .bstep
  | .bresult => .bresult
  | .bview _ => .bview c.arg0
  | .breset => .breset
  | .push _ => .push c.arg0
  | .pop => .pop
  | .peek => .peek
  | .sreset => .sreset
  | .add => .add
  | .sub => .sub
  | .mul => .mul
  | .div => .div
  | .mod => .mod
  | .readb _ => .readb c.arg0
  | .writeb _ _ => .writeb c.arg0 c.arg1
  | .fill _ _ _ => .fill c.arg0 c.arg1 c.arg2
  | .search _ => .search c.arg0
  | .inspect _ => .inspect c.arg0

/-- A pattern driven on its port is read back (R78). -/
theorem argPattern64_of_isPattern64 {v : Nat} (h : isPattern64 v = true) : argPattern64 v = v :=
  umod_of_lt (of_decide_eq_true h)

/-- The encoder drives every operand on the port its row names. -/
theorem withOperands_encode (h : i.wellFormed = true) : withOperands (encode i) i = i := by
  cases i with
  | fencS value => exact congrArg Instr.fencS (argPattern64_of_isPattern64 h)
  | fencD value => exact congrArg Instr.fencD (argPattern64_of_isPattern64 h)
  | fdec word len => exact congrArg (Instr.fdec · len) (argPattern64_of_isPattern64 h)
  | _ => rfl

/-! ### The decoder -/

/-- The word of a command decodes to it, whatever the ports carry (R80). -/
theorem decode_of_op (h : c.op = opcode i) : decode c = .ok (withOperands c i) := by
  obtain ⟨op, x, y, z⟩ := c
  obtain rfl : op = opcode i := h
  cases i <;> simp [decode, unitField, funcField, opcode, withOperands]

/-- A command word is `unit ‖ func` (R77). -/
theorem op_eq_of_fields {op : CommandWord} {unit func : Nat} (hunit : unitField op = unit)
    (hfunc : funcField op = func) : BitVec.ofNat 8 (16 * unit + func) = op := by
  subst hunit hfunc
  unfold unitField funcField
  rw [Nat.div_add_mod, BitVec.ofNat_toNat, BitVec.setWidth_eq]

/-- Only the word of a command decodes to it, and its pattern operands are patterns: row by row of each unit. -/
theorem op_eq_and_wellFormed_of_decode (h : decode c = .ok i) : opcode i = c.op ∧ i.wellFormed = true := by
  unfold decode at h
  split at h
  case h_1 hunit =>
    split at h <;> rename_i hfunc <;> cases h
    all_goals exact ⟨op_eq_of_fields hunit hfunc, Laws.WordNamesMnemonic.isPattern64_argPattern64 _⟩
  case h_2 hunit =>
    split at h <;> rename_i hfunc <;> cases h
    all_goals exact ⟨op_eq_of_fields hunit hfunc, rfl⟩
  case h_3 hunit =>
    split at h <;> rename_i hfunc <;> cases h
    all_goals exact ⟨op_eq_of_fields hunit hfunc, rfl⟩
  case h_4 hunit =>
    split at h <;> rename_i hfunc <;> cases h
    all_goals exact ⟨op_eq_of_fields hunit hfunc, rfl⟩
  case h_5 => cases h

/-- Settles O1: the encoder's word selects the command, and its ports give the operands back. -/
theorem decodeEncodeRoundTrip : Obligations.DecodeEncodeRoundTrip := fun i hwf => by
  rw [decode_of_op (c := encode i) rfl, withOperands_encode hwf]

/-- Settles O2. -/
theorem decodedCommandHasItsWord : Obligations.DecodedCommandHasItsWord := fun _ _ h =>
  op_eq_and_wellFormed_of_decode h

/-- Settles O3: each word is the `opcode` of its command. -/
theorem opcodeMapWords : Obligations.OpcodeMapWords := by
  intro x y z p hp
  obtain rfl : argPattern64 x = p := by rw [argPattern64, hp, Int.toNat_natCast]
  have row (i : Instr) : decode ⟨opcode i, x, y, z⟩ = .ok (withOperands ⟨opcode i, x, y, z⟩ i) := decode_of_op rfl
  exact ⟨row (.fencS 0), row (.fencD 0), row (.fdec 0 0), row (.binit 0 0 0), row .bstep, row .bresult, row (.bview 0),
    row .breset, row (.push 0), row .pop, row .peek, row .sreset, row .add, row .sub, row .mul, row .div, row .mod,
    row (.readb 0), row (.writeb 0 0), row (.fill 0 0 0), row (.search 0), row (.inspect 0)⟩

/-! ### Reserved words -/

/-- The six ranges of command words that stand for no command (R81). -/
def ReservedWord (w : Nat) : Prop :=
  (0x03 ≤ w ∧ w ≤ 0x0F) ∨ (0x15 ≤ w ∧ w ≤ 0x1F) ∨ (0x24 ≤ w ∧ w ≤ 0x27) ∨ (0x2D ≤ w ∧ w ≤ 0x2F) ∨
    (0x35 ≤ w ∧ w ≤ 0x3F) ∨ (0x40 ≤ w ∧ w ≤ 0xFF)

theorem not_reservedWord_opcode (i : Instr) : ¬ ReservedWord (opcode i).toNat := by
  cases i <;> simp [ReservedWord, opcode]

theorem State.ifAttached_of_detached (h : s.params.MEM_ATTACHED = false) (act : State → Result) :
    s.ifAttached act = s.raise .illegalCommand :=
  if_neg (by rw [h]; decide)

/-- Without a memory every MEM command fails as a reserved word does (R81, R250). -/
theorem exec_mem_of_detached (hunit : (opcode i).toNat / 16 = 3) (h : s.params.MEM_ATTACHED = false) :
    exec i s = s.raise .illegalCommand := by
  cases i with
  | readb | writeb | fill | search | inspect =>
    simp only [exec, execReadb, execWriteb, execFill, execSearch, execInspect, State.ifAttached_of_detached h]
  | _ => simp [opcode] at hunit

/-- A word that decodes to nothing fails, and so does one that decodes to a MEM command without a memory. -/
theorem step_illegal {rest : List HostInput} (hin : s.inputs = .command c :: rest)
    (h : ∀ i, decode c = .ok i → (opcode i).toNat / 16 = 3 ∧ s.params.MEM_ATTACHED = false) :
    step s = (s.accept rest).raise .illegalCommand := by
  cases hd : decode c with
  | error e => exact step_of_reserved hin hd
  | ok i =>
    obtain ⟨hunit, hdetached⟩ := h i hd
    exact (step_of_command hin hd).trans (exec_mem_of_detached hunit hdetached)

/-- Settles O5: no command has a reserved word, and the words 0x30 to 0x34 are those of MEM. -/
theorem reservedWordsAnswerIllegalCommand : Obligations.ReservedWordsAnswerIllegalCommand := by
  intro s c rest hin hword
  refine step_illegal hin fun i hd => ?_
  obtain ⟨hop, -⟩ := op_eq_and_wellFormed_of_decode hd
  have hfree := not_reservedWord_opcode i
  rw [hop, ReservedWord] at hfree
  obtain ⟨hdetached, hlow, hhigh⟩ : s.params.MEM_ATTACHED = false ∧ 0x30 ≤ c.op.toNat ∧ c.op.toNat ≤ 0x34 := by tauto
  exact ⟨by rw [hop]; omega, hdetached⟩

/-- Settles O4. -/
theorem stepRunsDecodedCommand : Obligations.StepRunsDecodedCommand := fun _ _ _ _ hin hd =>
  step_of_command hin hd

end Sys2Proof.Machine
end

section
/-! PROOFS. Booth's recurrence multiplies (41_booth_multiplier.md R143 to R147, R153): each step keeps the partial
product of the multiplier bits examined so far, so `W` steps after BINIT give the product. -/

namespace Sys2Proof.Machine

variable {s : State} {p : Params} {b : Bmu} {r : BoothRecord} {a m n q w k j : Nat}

/-! ### Signed readings -/

/-- A signed reading differs from its word by a multiple of `2^n`. -/
theorem sval_modEq (n w : Nat) : sval n w ≡ w [ZMOD 2 ^ n] := by
  unfold sval
  split
  · exact Int.sub_emod_right _ _
  · rfl

theorem umod_congr {v v' : Int} (h : v ≡ v' [ZMOD 2 ^ n]) : umod n v = umod n v' := congrArg Int.toNat h

/-- The signed reading of the word of an integer in range is the integer. -/
theorem sval_umod {v : Int} (hlow : -2 ^ n ≤ v) (hhigh : v < 2 ^ n) : sval (n + 1) (umod (n + 1) v) = v := by
  have hword := umod_cast (n + 1) v
  have hpow : (2 : Int) ^ (n + 1) = 2 * 2 ^ n := pow_succ' 2 n
  have hcast : ((2 ^ n : Nat) : Int) = 2 ^ n := by push_cast; rfl
  rw [sval_succ (umod_lt _ v)]
  rcases lt_or_ge v 0 with hneg | hpos
  · rw [← Int.add_emod_right, Int.emod_eq_of_lt (by omega) (by omega)] at hword
    rw [if_pos (by omega)]
    omega
  · rw [Int.emod_eq_of_lt hpos (by omega)] at hword
    rw [if_neg (by omega)]
    omega

/-- The signed reading of the low `k` bits: the top one of them, if there is one, weighs `-2^k` beside its weight in the
word. -/
theorem sval_mod (k q : Nat) :
    sval k (q % 2 ^ k) = ((q % 2 ^ k : Nat) : Int) - (decide (0 < k) && q.testBit (k - 1)).toNat * 2 ^ k := by
  unfold sval
  rw [Nat.testBit_mod_two_pow]
  cases k with
  | zero => simp
  | succ k => cases hbit : q.testBit k <;> simp [hbit]

/-- One more bit of the multiplier: the bit below it turns from a sign into a digit, and it becomes the sign. -/
theorem sval_mod_succ (k q : Nat) :
    sval (k + 1) (q % 2 ^ (k + 1)) = sval k (q % 2 ^ k) +
      (((decide (0 < k) && q.testBit (k - 1)).toNat : Int) - (q.testBit k).toNat) * 2 ^ k := by
  rw [sval_mod, sval_mod, Nat.mod_pow_succ, ← Nat.toNat_testBit]
  simp only [Nat.zero_lt_succ, decide_true, Bool.true_and, Nat.add_sub_cancel]
  push_cast
  ring

/-- The signed reading of two words joined. -/
theorem sval_join (ha : a < 2 ^ (n + 1)) (hq : q < 2 ^ (n + 1)) :
    sval (2 * (n + 1)) (a * 2 ^ (n + 1) + q) = sval (n + 1) a * 2 ^ (n + 1) + q := by
  have hwide : 2 * (n + 1) = n + (n + 1) + 1 := by ring
  have hlt : a * 2 ^ (n + 1) + q < 2 ^ (n + (n + 1) + 1) := by
    calc a * 2 ^ (n + 1) + q < (a + 1) * 2 ^ (n + 1) := by rw [Nat.add_one_mul]; omega
      _ ≤ 2 ^ (n + 1) * 2 ^ (n + 1) := Nat.mul_le_mul_right _ ha
      _ = 2 ^ (n + (n + 1) + 1) := by rw [← Nat.pow_add, Nat.add_right_comm]
  have hsign : 2 ^ (n + (n + 1)) ≤ a * 2 ^ (n + 1) + q ↔ 2 ^ n ≤ a := by
    rw [Nat.pow_add, ← Nat.le_div_iff_mul_le (Nat.two_pow_pos _), Nat.mul_comm a, Nat.mul_add_div (Nat.two_pow_pos _),
      Nat.div_eq_of_lt hq, Nat.add_zero]
  rw [hwide, sval_succ hlt, sval_succ ha]
  simp only [hsign]
  split
  · push_cast
    ring
  · push_cast
    ring

/-! ### The sum -/

/-- The pair read as a digit: "10" subtracts, "01" adds, "00" and "11" do nothing (R143). -/
theorem boothOpOf_boothPair (q : Nat) (q1 : Bool) :
    boothOpOf (boothPair q q1) =
      if q.testBit 0 = q1 then .nop else if q1 then .add else .sub := by
  unfold boothPair
  cases q.testBit 0 <;> cases q1 <;> rfl

/-- The sum adds the pair's digit times the multiplicand, whichever integer the word `m` stands for (R144). -/
theorem boothSum_eq_umod {e : Int} (q1 : Bool) (ha : a < 2 ^ w) (he : e ≡ m [ZMOD 2 ^ w]) :
    boothSum w (boothOpOf (boothPair q q1)) a m =
      umod w (sval w a + ((q1.toNat : Int) - (q.testBit 0).toNat) * e) := by
  rw [boothOpOf_boothPair]
  cases q.testBit 0 <;> cases q1
  · simpa [boothSum] using (umod_sval ha).symm
  · simpa [boothSum] using umod_congr ((sval_modEq w a).symm.add he.symm)
  · simpa [boothSum, ← sub_eq_add_neg] using umod_congr ((sval_modEq w a).symm.sub he.symm)
  · simpa [boothSum] using (umod_sval ha).symm

/-- A sum that stands for a partial product is in the range of its width: `|e| ≤ 2^n`, `|v| ≤ 2^k`, and not both
extremes of one sign. -/
theorem sum_in_range {e v x top : Int} (helow : -2 ^ n < e) (hehigh : e ≤ 2 ^ n) (hvlow : -2 ^ k ≤ v)
    (hvhigh : v < 2 ^ k) (htop : 0 ≤ top) (htop' : top < 2 ^ k) (h : x * 2 ^ k + top = e * v) :
    -2 ^ n ≤ x ∧ x < 2 ^ n := by
  have hk : (0 : Int) < 2 ^ k := Int.pow_pos (by decide)
  have hn : (0 : Int) < 2 ^ n := Int.pow_pos (by decide)
  have hbounds : -2 ^ n * 2 ^ k ≤ e * v ∧ e * v < 2 ^ n * 2 ^ k := by
    rcases lt_or_ge e 0 with hneg | hpos
    · constructor <;> nlinarith
    · constructor <;> nlinarith
  constructor <;> nlinarith

/-! ### The shift -/

/-- The arithmetic shift of `A'` halves its signed reading, and the bit shifted out is the remainder (R145). -/
theorem sval_shiftedA (h : a < 2 ^ (n + 1)) :
    2 * sval (n + 1) (shiftedA (n + 1) a) + (a.testBit 0).toNat = sval (n + 1) a := by
  have hlt : shiftedA (n + 1) a < 2 ^ (n + 1) := shifted_lt _ (Nat.le_add_left 1 n) h
  have hpow : (2 : Int) ^ (n + 1) = 2 * 2 ^ n := pow_succ' 2 n
  rw [sval_succ hlt, sval_succ h, shiftedA, Nat.add_sub_cancel, testBit_sign h, Nat.toNat_testBit, Nat.pow_zero,
    Nat.div_one]
  have hcast : ((2 ^ n : Nat) : Int) = 2 ^ n := by push_cast; rfl
  rw [Nat.pow_succ'] at h
  by_cases hsign : 2 ^ n ≤ a
  · simp only [hsign, decide_true, Bool.toNat_true, Nat.one_mul, Nat.le_add_right, if_true]
    omega
  · simp only [hsign, decide_false, Bool.toNat_false, Nat.zero_mul, Nat.zero_add, if_false]
    rw [if_neg (by omega)]
    omega

theorem shiftedQ_eq (a q k j : Nat) : shiftedQ (k + j + 1) a q = 2 ^ j * ((a.testBit 0).toNat * 2 ^ k) + q / 2 := by
  rw [shiftedQ, Nat.add_sub_cancel, Nat.pow_add]
  ring

/-- The product's bits in `Q` move down by one, below the bit shifted out of `A'` (R145). -/
theorem shiftedQ_div (a q k j : Nat) :
    shiftedQ (k + j + 1) a q / 2 ^ j = (a.testBit 0).toNat * 2 ^ k + q / 2 ^ (j + 1) := by
  rw [shiftedQ_eq, Nat.mul_add_div (Nat.two_pow_pos j), Nat.div_div_eq_div_mul, Nat.pow_succ']

/-- The multiplier's bits in `Q` move down by one, past the bit examined (R145). -/
theorem shiftedQ_mod (a q k j : Nat) : shiftedQ (k + j + 1) a q % 2 ^ j = q % 2 ^ (j + 1) / 2 := by
  rw [shiftedQ_eq, Nat.mul_add_mod, Nat.pow_succ', Nat.mod_mul_right_div_self]

/-! ### The multiplicand -/

theorem Bmu.effectiveMultiplicand_modEq (b : Bmu) : b.effectiveMultiplicand ≡ b.M [ZMOD 2 ^ b.W] := by
  unfold Bmu.effectiveMultiplicand
  split
  · next h =>
    rw [h]
    push_cast
    rfl
  · exact sval_modEq _ _

/-- The effective multiplicand is `-2^(W-1)` for no `M` (R153). -/
theorem Bmu.effectiveMultiplicand_range (hW : b.W = n + 1) (hM : b.M < 2 ^ b.W) :
    -2 ^ n < b.effectiveMultiplicand ∧ b.effectiveMultiplicand ≤ 2 ^ n := by
  have hn : (0 : Int) < 2 ^ n := Int.pow_pos (by decide)
  have hpow : (2 : Int) ^ (n + 1) = 2 * 2 ^ n := pow_succ' 2 n
  have hcast : ((2 ^ n : Nat) : Int) = 2 ^ n := by push_cast; rfl
  rw [hW] at hM
  rw [Bmu.effectiveMultiplicand, hW, Nat.add_sub_cancel, sval_succ hM]
  rw [Nat.pow_succ'] at hM
  split_ifs <;> constructor <;> omega

/-! ### The partial product -/

/-- The word `A'` of a step (R144). -/
def Bmu.sum (b : Bmu) : Nat := boothSum b.W (boothOpOf (boothPair b.Q b.Q1)) b.A b.M

theorem Bmu.nextRecord_A (b : Bmu) : b.nextRecord.A = shiftedA b.W b.sum := rfl

theorem Bmu.nextRecord_Q (b : Bmu) : b.nextRecord.Q = shiftedQ b.W b.sum b.Q := rfl

theorem Bmu.nextRecord_Q1 (b : Bmu) : b.nextRecord.Q1 = b.Q.testBit 0 := rfl

/-- The bit a step examines is the next bit of the multiplier. -/
theorem testBit_zero_of_mod_eq_div (h : a % 2 ^ (j + 1) = q / 2 ^ k) : a.testBit 0 = q.testBit k := by
  calc a.testBit 0 = (a % 2 ^ (j + 1)).testBit 0 := by rw [Nat.testBit_mod_two_pow]; simp
    _ = (q / 2 ^ k).testBit 0 := by rw [h]
    _ = q.testBit k := by rw [Nat.testBit_div_two_pow, Nat.zero_add]

/-- Before its shift a step holds the partial product of one more bit: the sum does not overflow. -/
theorem Bmu.PartialProduct.sval_sum (hpp : b.PartialProduct) (h : BoothRunning p b)
    (hW : b.W = b.currentStep + j + 1) (hr : b.history.head? = some r) :
    sval b.W b.sum * 2 ^ b.currentStep + ((b.Q / 2 ^ (j + 1) : Nat) : Int) =
      b.effectiveMultiplicand * sval (b.currentStep + 1) (r.Q % 2 ^ (b.currentStep + 1)) := by
  obtain ⟨hproduct, hrest, hlast⟩ := hpp r hr
  have hleft : b.W - b.currentStep = j + 1 := by omega
  rw [hleft] at hproduct hrest
  have hx : (sval b.W b.A + ((b.Q1.toNat : Int) - (b.Q.testBit 0).toNat) * b.effectiveMultiplicand) *
        2 ^ b.currentStep + ((b.Q / 2 ^ (j + 1) : Nat) : Int) =
      b.effectiveMultiplicand * sval (b.currentStep + 1) (r.Q % 2 ^ (b.currentStep + 1)) := by
    rw [sval_mod_succ, ← hlast, ← testBit_zero_of_mod_eq_div hrest, mul_add, ← hproduct]
    ring
  have htop : b.Q / 2 ^ (j + 1) < 2 ^ b.currentStep := by
    apply Nat.div_lt_of_lt_mul
    rw [← Nat.pow_add, show j + 1 + b.currentStep = b.W by omega]
    exact h.word_Q
  obtain ⟨helow, hehigh⟩ := b.effectiveMultiplicand_range hW h.word_M
  have hv := of_decide_eq_true (inSignedRange_sval (Nat.mod_lt r.Q (Nat.two_pow_pos (b.currentStep + 1))))
  rw [Nat.add_sub_cancel] at hv
  obtain ⟨hlow, hhigh⟩ := sum_in_range helow hehigh hv.1 (by omega) (Int.natCast_nonneg _) (by exact_mod_cast htop) hx
  have hsum : sval b.W b.sum =
      sval b.W b.A + ((b.Q1.toNat : Int) - (b.Q.testBit 0).toNat) * b.effectiveMultiplicand := by
    rw [Bmu.sum, boothSum_eq_umod b.Q1 h.word_A b.effectiveMultiplicand_modEq]
    rw [hW] at hlow hhigh ⊢
    exact sval_umod hlow hhigh
  rw [hsum, hx]

/-- BINIT begins with no bit examined. -/
theorem Bmu.initialised_partialProduct (k w : Nat) (m q : Int) : (Bmu.initialised k w m q).PartialProduct := by
  intro r hr
  obtain rfl : initRecord k w q = r := Option.some_inj.1 hr
  have hQ := umod_lt w q
  refine ⟨?product, ?rest, rfl⟩
  case product => simp [sval, Nat.div_eq_of_lt hQ, Nat.mod_one]
  case rest => simp [Nat.mod_eq_of_lt hQ, initRecord]

/-- A step leaves the INIT record at the head of the history. -/
theorem Bmu.stepped_head? (h : BoothRunning p b) : b.stepped.history.head? = b.history.head? := by
  obtain ⟨r, hr, -⟩ := h.first_record
  rw [Bmu.stepped_history, List.head?_append, hr]
  rfl

theorem BoothRunning.step_lt (h : BoothRunning p b) (hphase : b.phase = .stepping) : b.currentStep < b.W := by
  refine Nat.lt_of_le_of_ne h.step_le fun heq => ?_
  have := h.complete_iff.2 heq
  rw [hphase] at this
  cases this

/-- A progressing step keeps the partial product (R143 to R147). -/
theorem Bmu.PartialProduct.stepped (hpp : b.PartialProduct) (h : BoothRunning p b) (hphase : b.phase = .stepping) :
    b.stepped.PartialProduct := by
  intro r hr
  rw [Bmu.stepped_head? h] at hr
  obtain ⟨j, hW⟩ : ∃ j, b.W = b.currentStep + j + 1 := ⟨b.W - b.currentStep - 1, by have := h.step_lt hphase; omega⟩
  obtain ⟨-, hrest, -⟩ := hpp r hr
  rw [show b.W - b.currentStep = j + 1 by omega] at hrest
  have hsum := hpp.sval_sum h hW hr
  have hsumlt : b.sum < 2 ^ b.W := boothSum_lt _ b.M h.word_A
  rw [Bmu.stepped_W, Bmu.stepped_currentStep, Bmu.stepped_A, Bmu.stepped_Q, Bmu.stepped_Q1, Bmu.nextRecord_A,
    Bmu.nextRecord_Q, Bmu.nextRecord_Q1, show b.W - (b.currentStep + 1) = j by omega]
  refine ⟨?product, ?rest, ?last⟩
  case product =>
    show _ = b.effectiveMultiplicand * _
    rw [← hsum]
    rw [hW] at hsumlt ⊢
    rw [shiftedQ_div, ← sval_shiftedA hsumlt]
    push_cast
    ring
  case rest => rw [hW, shiftedQ_mod, hrest, Nat.div_div_eq_div_mul, Nat.pow_succ]
  case last => simp [testBit_zero_of_mod_eq_div hrest]

/-- When every bit is examined `A ‖ Q` is the product of the effective multiplicand with the multiplier (R153). -/
theorem Bmu.PartialProduct.product_eq (hpp : b.PartialProduct) (h : BoothRunning p b) (hphase : b.phase = .complete)
    (hr : b.history.head? = some r) : b.product = b.effectiveMultiplicand * sval b.W r.Q := by
  obtain ⟨n, hW⟩ := Nat.exists_eq_add_of_le' h.width_pos
  have hend := h.complete_iff.1 hphase
  obtain ⟨r', hr', -, -, -, -, hrQ⟩ := h.first_record
  obtain rfl : r' = r := Option.some_inj.1 (hr'.symm.trans hr)
  obtain ⟨hproduct, -, -⟩ := hpp r' hr
  rw [hend, Nat.sub_self, Nat.pow_zero, Nat.div_one, Nat.mod_eq_of_lt hrQ] at hproduct
  rw [← hproduct, Bmu.product]
  have hA := h.word_A
  have hQ := h.word_Q
  rw [hW] at hA hQ ⊢
  exact sval_join hA hQ

/-- The effective multiplicand of an operand in range is the operand, or its negation for the least one (R153). -/
theorem Bmu.initialised_effectiveMultiplicand (k : Nat) {m : Int} (q : Int) (hlow : -2 ^ n ≤ m) (hhigh : m < 2 ^ n) :
    (Bmu.initialised k (n + 1) m q).effectiveMultiplicand = if m = -2 ^ n then -m else m := by
  have hsval := sval_umod hlow hhigh
  have hpow : (2 : Int) ^ (n + 1) = 2 * 2 ^ n := pow_succ' 2 n
  have hcast : ((2 ^ n : Nat) : Int) = 2 ^ n := by push_cast; rfl
  rw [Bmu.effectiveMultiplicand, Bmu.initialised_W, Bmu.initialised_M, Nat.add_sub_cancel, hsval]
  rw [sval_succ (umod_lt _ m)] at hsval
  have hn : (0 : Int) < 2 ^ n := Int.pow_pos (by decide)
  split_ifs at hsval ⊢ <;> omega

/-! ### A whole multiplication -/

theorem exec_binit_of_inSignedRange {m q width : Int} (hpos : 1 ≤ width) (hmax : width ≤ s.params.W_MAX)
    (hm : inSignedRange width.toNat m = true) (hq : inSignedRange width.toNat q = true) :
    exec (.binit m q width) s =
      .next { s with
        bmu := Bmu.initialised s.draws width.toNat m q
        response := some (.record (.booth (initRecord s.draws width.toNat q))) } := by
  show execBinit m q width s = _
  unfold execBinit
  rw [if_neg (by omega), if_neg (by simpa using hm), if_neg (by simpa using hq)]
  rfl

theorem exec_bstep_of_stepping (hphase : s.bmu.phase = .stepping) :
    exec .bstep s =
      .next { s with bmu := s.bmu.stepped, response := some (.valueRecord 1 (.booth s.bmu.nextRecord)) } := by
  show execBstep s = _
  unfold execBstep
  rw [hphase]
  rfl

theorem exec_bresult_of_complete (hphase : s.bmu.phase = .complete) :
    exec .bresult s = .next { s with response := some (.value s.bmu.product) } := by
  show execBresult s = _
  unfold execBresult
  rw [hphase]
  rfl

/-- `b` multiplies by `e` the multiplier `q` that its INIT record shows, in words of `w` bits. -/
structure Multiplying (p : Params) (w : Nat) (e : Int) (q : Nat) (b : Bmu) : Prop where
  begun : b.phase ≠ .idle
  running : BoothRunning p b
  partialProduct : b.PartialProduct
  width : b.W = w
  multiplicand : b.effectiveMultiplicand = e
  multiplier : ∃ r, b.history.head? = some r ∧ r.Q = q

variable {e : Int}

theorem Multiplying.initialised (hw : 1 ≤ w) (hmax : w ≤ p.W_MAX) (k : Nat) (m q : Int) :
    Multiplying p w (Bmu.initialised k w m q).effectiveMultiplicand (umod w q) (Bmu.initialised k w m q) where
  begun := by
    rw [Bmu.initialised_phase]
    decide
  running := BoothRunning.initialised (width := w) (by omega) (by omega) k m q
  partialProduct := Bmu.initialised_partialProduct k w m q
  width := rfl
  multiplicand := rfl
  multiplier := ⟨_, rfl, rfl⟩

theorem Multiplying.stepped (h : Multiplying p w e q b) (hphase : b.phase = .stepping) :
    Multiplying p w e q b.stepped where
  begun := by
    rw [Bmu.stepped_phase, hphase]
    split_ifs <;> decide
  running := h.running.stepped hphase
  partialProduct := h.partialProduct.stepped h.running hphase
  width := h.width
  multiplicand := h.multiplicand
  multiplier := by
    rw [Bmu.stepped_head? h.running]
    exact h.multiplier

theorem Multiplying.phase_of_lt (h : Multiplying p w e q b) (hlt : b.currentStep < w) : b.phase = .stepping := by
  have hend := h.running.complete_iff
  rw [h.width] at hend
  cases hphase : b.phase with
  | idle => exact absurd hphase h.begun
  | stepping => rfl
  | complete => exact absurd (hend.1 hphase) hlt.ne

theorem Multiplying.product_eq (h : Multiplying p w e q b) (hphase : b.phase = .complete) :
    b.product = e * sval w q := by
  obtain ⟨r, hr, hrQ⟩ := h.multiplier
  rw [h.partialProduct.product_eq h.running hphase hr, h.multiplicand, h.width, hrQ]

/-- As many BSTEP as there are bits left all answer and complete the multiplication. -/
theorem repeated_bstep_completes (d : Nat) :
    ∀ s : State, Multiplying p w e q s.bmu → s.bmu.currentStep + d = w →
      ∃ u, Claims.repeated .bstep d s = .next u ∧ u.bmu.phase = .complete ∧ Multiplying p w e q u.bmu := by
  induction d with
  | zero => exact fun s h hleft => ⟨s, rfl, h.running.complete_iff.2 (hleft.trans h.width.symm), h⟩
  | succ d ih =>
    intro s h hleft
    have hphase := h.phase_of_lt (by omega)
    obtain ⟨t, ht, hbmu⟩ : ∃ t, exec .bstep s = .next t ∧ t.bmu = s.bmu.stepped :=
      ⟨_, exec_bstep_of_stepping hphase, rfl⟩
    have hend := ih t (hbmu ▸ h.stepped hphase) (by rw [hbmu, Bmu.stepped_currentStep]; omega)
    rw [Claims.repeated, ht]
    exact hend

/-- Settles O39: BINIT begins with the partial product of no bit, each BSTEP adds one bit to it, and BRESULT reads the
product of all of them. -/
theorem boothMultiplies : Obligations.BoothMultiplies := by
  intro s w m q hw hmax hmlow hmhigh hqlow hqhigh
  obtain ⟨n, rfl⟩ := Nat.exists_eq_add_of_le' hw
  obtain ⟨t, ht, hbmu⟩ : ∃ t, exec (.binit m q (n + 1 : Nat)) s = .next t ∧
      t.bmu = Bmu.initialised s.draws (n + 1) m q :=
    ⟨_, exec_binit_of_inSignedRange (by omega) (by omega) (decide_eq_true ⟨hmlow, hmhigh⟩)
      (decide_eq_true ⟨hqlow, hqhigh⟩), rfl⟩
  rw [Nat.add_sub_cancel] at *
  have hstart := Multiplying.initialised hw hmax s.draws m q
  rw [Bmu.initialised_effectiveMultiplicand s.draws q hmlow (by omega), ← hbmu] at hstart
  obtain ⟨u, hu, hcomplete, hend⟩ := repeated_bstep_completes (n + 1) t hstart (by rw [hbmu]; exact Nat.zero_add _)
  refine ⟨t, u, ht, hu, hcomplete, ?_⟩
  rw [exec_bresult_of_complete hcomplete, hend.product_eq hcomplete, sval_umod hqlow (by omega), ite_mul, neg_mul]
  rfl

end Sys2Proof.Machine
end

section
/-! PROOFS. What the encoder's expansion by repeated doubling, its normalisation and its truncation compute
(40_ieee754_codec.md R107 to R114): the expansion is the binary numeral of the magnitude shifted by the cap, so the
leading 1 stands at the magnitude's own leading 1, and the mantissa field is the bits after it. -/

namespace Sys2Proof.Machine

variable {p cap n r k j e f mag : Nat} {x : Int} {sign : Bool} {fmt : Format} {l tail ibits fbits : List Bool}

/-! ### Bit strings -/

theorem bitStringValue_cons (b : Bool) (l : List Bool) :
    bitStringValue (b :: l) = b.toNat * 2 ^ l.length + bitStringValue l := by
  rw [← List.singleton_append, bitStringValue_append]
  simp [bitStringValue]

/-- The first `p` bits of a string, as a word. -/
theorem bitStringValue_take (p : Nat) (l : List Bool) :
    bitStringValue (l.take p) = bitStringValue l / 2 ^ (l.length - p) := by
  have hsplit := bitStringValue_append (l.take p) (l.drop p)
  have hlow := bitStringValue_lt (l.drop p)
  rw [List.take_append_drop, List.length_drop] at hsplit
  rw [List.length_drop] at hlow
  rw [hsplit, mul_comm, Nat.mul_add_div (Nat.two_pow_pos _), Nat.div_eq_of_lt hlow, Nat.add_zero]

/-- A tail at least as long as the mantissa field is truncated (R110, R114). -/
theorem mantissaField_of_le (h : p ≤ tail.length) :
    mantissaField p tail = bitStringValue tail / 2 ^ (tail.length - p) := by
  rw [mantissaField, List.take_append_of_le_length h, bitStringValue_take]

/-! ### The expansion -/

theorem bitStringValue_integerBits (n : Nat) : bitStringValue (integerBits n) = n := by
  unfold integerBits
  split_ifs with hn
  · exact hn.symm
  · rw [bitStringValue_bitString, Nat.mod_eq_of_lt Nat.lt_log2_self]

/-- The binary numeral of an integer has no leading zero (R108). -/
theorem integerBits_head (n : Nat) : (integerBits n).head? ≠ some false := by
  unfold integerBits
  split_ifs with hn
  · simp
  · rw [bitString_succ, Nat.testBit_log2 hn]
    simp

theorem fractionBits_length (cap r : Nat) : (fractionBits cap r).length = cap := by
  induction cap generalizing r with
  | zero => rfl
  | succ cap ih =>
    rw [fractionBits]
    split_ifs <;> rw [List.length_cons, ih]

/-- Repeated doubling with carry extraction gives the fraction's first `cap` bits (R108). -/
theorem bitStringValue_fractionBits (h : r < 2 ^ 1074) :
    bitStringValue (fractionBits cap r) = r * 2 ^ cap / 2 ^ 1074 := by
  induction cap generalizing r with
  | zero => rw [Nat.pow_zero, Nat.mul_one, Nat.div_eq_of_lt h]; rfl
  | succ cap ih =>
    rw [fractionBits]
    generalize (2 ^ 1074 : Nat) = u at *
    split_ifs with hcarry
    · have hshift : r * 2 ^ (cap + 1) = (2 * r - u) * 2 ^ cap + u * 2 ^ cap := by
        rw [← Nat.add_mul, Nat.sub_add_cancel hcarry]
        ring
      rw [bitStringValue_cons, fractionBits_length, ih (by omega), hshift, Nat.add_mul_div_left _ _ (by omega),
        Bool.toNat_true]
      ring
    · have hshift : r * 2 ^ (cap + 1) = 2 * r * 2 ^ cap := by ring
      rw [bitStringValue_cons, fractionBits_length, ih (by omega), hshift, Bool.toNat_false]
      ring

/-- Integer and fraction bits together are the numeral of the magnitude, in units of `2^-cap` and truncated. -/
theorem bitStringValue_expansion (cap mag : Nat) :
    bitStringValue (integerBits (mag / 2 ^ 1074) ++ fractionBits cap (mag % 2 ^ 1074)) =
      mag * 2 ^ cap / 2 ^ 1074 := by
  have hpos : 0 < 2 ^ 1074 := pow_pos Nat.two_pos 1074
  rw [bitStringValue_append, bitStringValue_integerBits, fractionBits_length,
    bitStringValue_fractionBits (Nat.mod_lt mag hpos)]
  generalize (2 ^ 1074 : Nat) = u at *
  have hmag : mag * 2 ^ cap = mag % u * 2 ^ cap + u * (mag / u * 2 ^ cap) := by
    conv_lhs => rw [← Nat.mod_add_div mag u]
    ring
  rw [hmag, Nat.add_mul_div_left _ _ hpos, Nat.add_comm]

/-! ### Normalisation -/

theorem leadingOne_eq_none (h : leadingOne k l = none) : bitStringValue l = 0 := by
  induction l generalizing k with
  | nil => rfl
  | cons b l ih =>
    cases b with
    | true => simp [leadingOne] at h
    | false => rw [bitStringValue_cons, ih h, Bool.toNat_false, Nat.zero_mul]

/-- The first 1 and what follows it: its position and its weight are fixed by the length of the tail (R109). -/
theorem leadingOne_eq_some (h : leadingOne k l = some (j, tail)) :
    j + 1 + tail.length = k + l.length ∧ bitStringValue l = 2 ^ tail.length + bitStringValue tail := by
  induction l generalizing k with
  | nil => simp [leadingOne] at h
  | cons b l ih =>
    cases b with
    | true =>
      obtain ⟨rfl, rfl⟩ : k = j ∧ l = tail := by simpa [leadingOne] using h
      rw [bitStringValue_cons, Bool.toNat_true, Nat.one_mul, List.length_cons]
      exact ⟨by omega, rfl⟩
    | false =>
      obtain ⟨hpos, hvalue⟩ := ih h
      rw [bitStringValue_cons, Bool.toNat_false, Nat.zero_mul, Nat.zero_add, List.length_cons]
      exact ⟨by omega, hvalue⟩

theorem normalise_eq_none (h : normalise ibits fbits = none) : bitStringValue (ibits ++ fbits) = 0 := by
  cases ibits with
  | nil => exact leadingOne_eq_none (Option.map_eq_none_iff.1 h)
  | cons b rest => simp [normalise] at h

/-- The exponent counts the tail's bits before the point, in both branches of R109. -/
theorem normalise_eq_some (hhead : ibits.head? ≠ some false) (h : normalise ibits fbits = some (x, tail)) :
    (tail.length : Int) = x + fbits.length ∧
      bitStringValue (ibits ++ fbits) = 2 ^ tail.length + bitStringValue tail := by
  cases ibits with
  | nil =>
    obtain ⟨⟨j, t⟩, hone, heq⟩ := Option.map_eq_some_iff.1 h
    obtain ⟨rfl, rfl⟩ := Prod.mk.inj heq
    obtain ⟨hpos, hvalue⟩ := leadingOne_eq_some hone
    exact ⟨by omega, hvalue⟩
  | cons b rest =>
    obtain rfl : b = true := by simpa using hhead
    obtain ⟨rfl, rfl⟩ : (rest.length : Int) = x ∧ rest ++ fbits = tail := by simpa [normalise] using h
    rw [List.cons_append, bitStringValue_cons, Bool.toNat_true, Nat.one_mul]
    exact ⟨by rw [List.length_append]; push_cast; rfl, rfl⟩

/-! ### The encoding of a magnitude -/

/-- The normalised tail of a magnitude whose leading 1 is bit `n`. -/
theorem normalise_expansion (hlow : 2 ^ n ≤ mag) (hhigh : mag < 2 ^ (n + 1))
    (h : normalise (integerBits (mag / 2 ^ 1074)) (fractionBits cap (mag % 2 ^ 1074)) = some (x, tail)) :
    x = (n : Int) - 1074 ∧ tail.length + 1074 = n + cap ∧
      mag * 2 ^ cap / 2 ^ 1074 = 2 ^ tail.length + bitStringValue tail := by
  obtain ⟨hexp, hvalue⟩ := normalise_eq_some (integerBits_head _) h
  rw [fractionBits_length] at hexp
  rw [bitStringValue_expansion] at hvalue
  have htail := bitStringValue_lt tail
  have hpos : 0 < 2 ^ 1074 := pow_pos Nat.two_pos 1074
  have hle : 2 ^ (tail.length + 1074) ≤ mag * 2 ^ cap := by
    rw [pow_add, ← Nat.le_div_iff_mul_le hpos]
    omega
  have hlt : mag * 2 ^ cap < 2 ^ (tail.length + 1 + 1074) := by
    rw [pow_add, ← Nat.div_lt_iff_lt_mul hpos, pow_succ 2 tail.length]
    omega
  have hlow' : 2 ^ (n + cap) ≤ mag * 2 ^ cap := Nat.pow_add 2 n cap ▸ Nat.mul_le_mul_right _ hlow
  have hhigh' : mag * 2 ^ cap < 2 ^ (n + 1 + cap) :=
    Nat.pow_add 2 (n + 1) cap ▸ Nat.mul_lt_mul_of_pos_right hhigh (Nat.two_pow_pos cap)
  have hup := (Nat.pow_lt_pow_iff_right Nat.one_lt_two).1 (hle.trans_lt hhigh')
  have hdown := (Nat.pow_lt_pow_iff_right Nat.one_lt_two).1 (hlow'.trans_lt hlt)
  exact ⟨by omega, by omega, hvalue⟩

/-- Truncating the capped numeral to its first `p + 1` bits is truncating the magnitude itself. -/
theorem mantissaField_expansion (hlen : tail.length + 1074 = n + cap)
    (hvalue : mag * 2 ^ cap / 2 ^ 1074 = 2 ^ tail.length + bitStringValue tail) (hp : p ≤ tail.length) :
    mantissaField p tail = mag * 2 ^ p / 2 ^ n - 2 ^ p := by
  obtain ⟨d, hd⟩ := Nat.exists_eq_add_of_le hp
  have hdrop : tail.length - p = d := by omega
  have hsum : mag * 2 ^ p / 2 ^ n = 2 ^ p + mantissaField p tail := by
    calc mag * 2 ^ p / 2 ^ n
        = mag * 2 ^ p * 2 ^ cap / (2 ^ n * 2 ^ cap) := (Nat.mul_div_mul_right _ _ (Nat.two_pow_pos cap)).symm
      _ = mag * 2 ^ cap * 2 ^ p / (2 ^ 1074 * 2 ^ d * 2 ^ p) := by
        rw [← Nat.pow_add, ← hlen, hd, ← Nat.pow_add, ← Nat.pow_add, Nat.mul_right_comm]
        congr 2
        omega
      _ = mag * 2 ^ cap / 2 ^ 1074 / 2 ^ d := by
        rw [Nat.mul_div_mul_right _ _ (Nat.two_pow_pos p), Nat.div_div_eq_div_mul]
      _ = 2 ^ p + mantissaField p tail := by
        rw [hvalue, mantissaField_of_le hp, hdrop, hd, Nat.pow_add, Nat.mul_comm, Nat.mul_add_div (Nat.two_pow_pos d)]
  omega

/-- A magnitude whose leading 1 is bit `n`, in units of `2^-1074`: its exponent field is `n + bias - 1074` and its
mantissa field the first bits below the leading 1 (R109 to R111, R114). The cap reaches the last mantissa bit of every
exponent the format has. -/
theorem encodeFinite_eq (hlow : 2 ^ n ≤ mag) (hhigh : mag < 2 ^ (n + 1))
    (hcap : fmt.mantWidth + fmt.bias ≤ cap + 1) :
    encodeFinite fmt cap sign mag =
      if 1075 ≤ n + fmt.bias ∧ n + fmt.bias < fmt.expMax + 1074 then
        some (fmt.pack
          { sign := sign
            exponent := n + fmt.bias - 1074
            mantissa := mag * 2 ^ fmt.mantWidth / 2 ^ n - 2 ^ fmt.mantWidth })
      else none := by
  unfold encodeFinite
  cases hnorm : normalise (integerBits (mag / 2 ^ 1074)) (fractionBits cap (mag % 2 ^ 1074)) with
  | none =>
    have hzero := normalise_eq_none hnorm
    rw [bitStringValue_expansion] at hzero
    have hsmall : 2 ^ (n + cap) < 2 ^ 1074 :=
      (Nat.pow_add 2 n cap ▸ Nat.mul_le_mul_right _ hlow).trans_lt
        (Nat.lt_of_div_eq_zero (pow_pos Nat.two_pos 1074) hzero)
    have hn := (Nat.pow_lt_pow_iff_right Nat.one_lt_two).1 hsmall
    exact (if_neg (by omega)).symm
  | some found =>
    obtain ⟨x, tail⟩ := found
    obtain ⟨rfl, hlen, hvalue⟩ := normalise_expansion hlow hhigh hnorm
    by_cases hrange : 1075 ≤ n + fmt.bias ∧ n + fmt.bias < fmt.expMax + 1074
    · have hexp : ((n : Int) - 1074 + fmt.bias).toNat = n + fmt.bias - 1074 := by omega
      simp only [if_pos hrange, hexp, mantissaField_expansion hlen hvalue (p := fmt.mantWidth) (by omega)]
      exact if_neg (by omega)
    · simp only [if_neg hrange]
      exact if_pos (by omega)

/-- The leading 1 of a normal binary64 magnitude is the hidden 1 (R107). -/
theorem magnitude_bounds (he : 1 ≤ e) (hf : f < 2 ^ 52) :
    2 ^ (51 + e) ≤ magnitude e f ∧ magnitude e f < 2 ^ (51 + e + 1) := by
  obtain ⟨e, rfl⟩ := Nat.exists_eq_add_of_le' he
  rw [magnitude, if_neg (Nat.succ_ne_zero e), Nat.add_sub_cancel, show 51 + (e + 1) = 52 + e by omega,
    show 52 + e + 1 = 53 + e by omega, Nat.pow_add 2 52, Nat.pow_add 2 53]
  exact ⟨Nat.mul_le_mul_right _ (by omega), Nat.mul_lt_mul_of_pos_right (by omega) (Nat.two_pow_pos e)⟩

/-- The bits below the hidden 1 are the fraction's. -/
theorem magnitude_mantissa (p : Nat) (he : 1 ≤ e) :
    magnitude e f * 2 ^ p / 2 ^ (51 + e) - 2 ^ p = f * 2 ^ p / 2 ^ 52 := by
  obtain ⟨e, rfl⟩ := Nat.exists_eq_add_of_le' he
  have hshift : (2 ^ 52 + f) * 2 ^ e * 2 ^ p = (2 ^ 52 * 2 ^ p + f * 2 ^ p) * 2 ^ e := by ring
  rw [magnitude, if_neg (Nat.succ_ne_zero e), Nat.add_sub_cancel, hshift, show 51 + (e + 1) = 52 + e by omega,
    Nat.pow_add 2 52 e, Nat.mul_div_mul_right _ _ (Nat.two_pow_pos e), Nat.mul_add_div (Nat.two_pow_pos 52),
    Nat.add_sub_cancel_left]

/-- The closed form of R113 for every finite non-zero binary64; a subnormal is below the exponents of both formats. -/
theorem encodeFinite_magnitude (hf : f < 2 ^ 52) (hne : ¬ (e = 0 ∧ f = 0)) (hbias : fmt.bias ≤ 1023)
    (hcap : fmt.mantWidth + fmt.bias ≤ cap + 1) :
    encodeFinite fmt cap sign (magnitude e f) =
      if 1024 ≤ e + fmt.bias ∧ e + fmt.bias < fmt.expMax + 1023 then
        some (fmt.pack
          { sign := sign, exponent := e + fmt.bias - 1023, mantissa := f * 2 ^ fmt.mantWidth / 2 ^ 52 })
      else none := by
  obtain rfl | he := Nat.eq_zero_or_pos e
  · have hf0 : f ≠ 0 := fun h => hne ⟨rfl, h⟩
    have hlog : f.log2 < 52 := (Nat.log2_lt hf0).2 hf
    rw [show magnitude 0 f = f from rfl, encodeFinite_eq (Nat.log2_self_le hf0) Nat.lt_log2_self hcap,
      if_neg (by omega), if_neg (by omega)]
  · obtain ⟨hlow, hhigh⟩ := magnitude_bounds he hf
    rw [encodeFinite_eq hlow hhigh hcap, magnitude_mantissa _ he, show 51 + e + fmt.bias - 1074 = e + fmt.bias - 1023 by
      omega]
    exact if_congr (by omega) rfl rfl

end Sys2Proof.Machine
end

section
/-! PROOFS. The IEEE-754 codec (40_ieee754_codec.md): what the encoder and the decoder answer on the word of a field
triple, kind by kind, and from it the statements about FENC.S, FENC.D and FDEC. -/

namespace Sys2Proof.Machine

variable {fmt : Format} {cap e f m : Nat}

/-! ### Words and their fields -/

/-- A field triple lies in its format's ranges. -/
def Format.Admits (fmt : Format) (x : Fields) : Prop := x.exponent < 2 ^ fmt.expWidth ∧ x.mantissa < 2 ^ fmt.mantWidth

theorem Format.exponent_mantissa_lt {x : Fields} (h : fmt.Admits x) :
    x.exponent * 2 ^ fmt.mantWidth + x.mantissa < 2 ^ (fmt.expWidth + fmt.mantWidth) := by
  obtain ⟨hexp, hmant⟩ := h
  have hmul := Nat.mul_le_mul_right (2 ^ fmt.mantWidth) (Nat.succ_le_of_lt hexp)
  rw [Nat.pow_add]
  rw [Nat.succ_mul] at hmul
  omega

theorem Format.pack_lt {x : Fields} (h : fmt.Admits x) : fmt.pack x < 2 ^ (fmt.expWidth + fmt.mantWidth + 1) := by
  have hlow := Format.exponent_mantissa_lt h
  have hsign := Nat.mul_le_mul_right (2 ^ (fmt.expWidth + fmt.mantWidth)) (Bool.toNat_le x.sign)
  rw [Format.pack, Nat.pow_succ]
  omega

/-- The fields of a packed triple are the triple (R101, R119). -/
theorem Format.split_pack {x : Fields} (h : fmt.Admits x) : fmt.split (fmt.pack x) = x := by
  have hlow := Format.exponent_mantissa_lt h
  have htop := Nat.two_pow_pos (fmt.expWidth + fmt.mantWidth)
  obtain ⟨sign, exponent, mantissa⟩ := x
  obtain ⟨hexp, hmant⟩ := h
  have hword : fmt.pack ⟨sign, exponent, mantissa⟩ =
      2 ^ fmt.mantWidth * (sign.toNat * 2 ^ fmt.expWidth + exponent) + mantissa := by
    rw [Format.pack, Nat.pow_add]
    ring
  have hsign : fmt.pack ⟨sign, exponent, mantissa⟩ / 2 ^ (fmt.expWidth + fmt.mantWidth) = sign.toNat := by
    rw [Format.pack, Nat.add_assoc, Nat.mul_comm sign.toNat, Nat.mul_add_div htop, Nat.div_eq_of_lt hlow, Nat.add_zero]
  rw [Format.split, Fields.mk.injEq]
  refine ⟨?signBit, ?exponentField, ?mantissaField⟩
  case signBit =>
    rw [Nat.testBit_eq_decide_div_mod_eq, hsign]
    cases sign <;> rfl
  case exponentField =>
    rw [hword, Nat.mul_add_div (Nat.two_pow_pos _), Nat.div_eq_of_lt hmant, Nat.add_zero, Nat.mul_comm,
      Nat.mul_add_mod, Nat.mod_eq_of_lt hexp]
  case mantissaField => rw [hword, Nat.mul_add_mod, Nat.mod_eq_of_lt hmant]

/-- Bits above the word's length drop out (R119). -/
theorem Format.low_bits_pack {x : Fields} (h : fmt.Admits x) (high : Nat) :
    (high * 2 ^ (fmt.expWidth + fmt.mantWidth + 1) + fmt.pack x) % 2 ^ (fmt.expWidth + fmt.mantWidth + 1) =
      fmt.pack x := by
  rw [Nat.mul_comm, Nat.mul_add_mod, Nat.mod_eq_of_lt (Format.pack_lt h)]

theorem Format.admits_single (sign : Bool) (he : e < 256) (hm : m < 2 ^ 23) : Format.single.Admits ⟨sign, e, m⟩ :=
  ⟨he, hm⟩

theorem Format.admits_double (sign : Bool) (he : e < 2048) (hf : f < 2 ^ 52) : Format.double.Admits ⟨sign, e, f⟩ :=
  ⟨he, hf⟩

theorem binary64_eq_pack (sign : Bool) (e f : Nat) : Claims.binary64 sign e f = Format.double.pack ⟨sign, e, f⟩ := rfl

/-! ### The codec on a field triple -/

/-- `encode` of a binary64 pattern, by its fields: the three special kinds, and else the finite encoder (R103 to
R111). -/
theorem encodeValue_binary64 (fmt : Format) (cap : Nat) (sign : Bool) (he : e < 2048) (hf : f < 2 ^ 52) :
    encodeValue fmt cap (Claims.binary64 sign e f) =
      if e = 2047 ∧ f = 0 then some (fmt.pack ⟨sign, fmt.expMax, 0⟩, .infinity)
      else if e = 2047 then some (fmt.pack ⟨false, fmt.expMax, 2 ^ (fmt.mantWidth - 1)⟩, .nan)
      else if e = 0 ∧ f = 0 then some (fmt.pack ⟨sign, 0, 0⟩, .zero)
      else (encodeFinite fmt cap sign (magnitude e f)).map fun w => (w, .normal) := by
  rw [encodeValue, binary64_eq_pack, Format.split_pack (Format.admits_double sign he hf)]
  simp only [Format.kind, show Format.double.expMax = 2047 from rfl]
  split_ifs <;> rfl

/-- `decode` of a packed word, by its fields: the three special kinds, and else what `deliver` gives (R119 to R123). -/
theorem decodeValue_pack (deliver : Fields → Nat) {x : Fields} (h : fmt.Admits x) :
    decodeValue fmt deliver (fmt.pack x) =
      if x.exponent = fmt.expMax ∧ x.mantissa = 0 then (Claims.binary64 x.sign 2047 0, .infinity)
      else if x.exponent = fmt.expMax then (nanPattern, .nan)
      else if x.exponent = 0 ∧ x.mantissa = 0 then (Claims.binary64 x.sign 0 0, .zero)
      else (deliver x, .normal) := by
  rw [decodeValue, Format.split_pack h]
  simp only [Format.kind]
  split_ifs <;> rfl

/-! ### The commands' answers -/

theorem exec_fencS (value : Nat) (s : State) :
    exec (.fencS value) s = s.respond (encodedResponse .single s.params.FRAC_CAP_S value) :=
  State.respondEncoded_eq _ _ _ s

theorem exec_fencD (value : Nat) (s : State) :
    exec (.fencD value) s = s.respond (encodedResponse .double s.params.FRAC_CAP_D value) :=
  State.respondEncoded_eq _ _ _ s

theorem exec_fdec (word : Nat) (len : Int) (s : State) :
    exec (.fdec word len) s = s.respond (decodedResponse s.draws word len) := execFdec_eq word len s

theorem encodedResponse_zero (fmt : Format) (cap : Nat) (sign : Bool) :
    encodedResponse fmt cap (Claims.binary64 sign 0 0) = .word (fmt.pack ⟨sign, 0, 0⟩) .zero := by
  rw [encodedResponse, encodeValue_binary64 fmt cap sign (by decide) (by decide)]
  rfl

theorem encodedResponse_infinity (fmt : Format) (cap : Nat) (sign : Bool) :
    encodedResponse fmt cap (Claims.binary64 sign 2047 0) = .word (fmt.pack ⟨sign, fmt.expMax, 0⟩) .infinity := by
  rw [encodedResponse, encodeValue_binary64 fmt cap sign (by decide) (by decide)]
  rfl

theorem encodedResponse_nan (fmt : Format) (cap : Nat) (sign : Bool) (hf0 : 0 < f) (hf : f < 2 ^ 52) :
    encodedResponse fmt cap (Claims.binary64 sign 2047 f) =
      .word (fmt.pack ⟨false, fmt.expMax, 2 ^ (fmt.mantWidth - 1)⟩) .nan := by
  rw [encodedResponse, encodeValue_binary64 fmt cap sign (by decide) hf, if_neg (by omega), if_pos rfl]

/-- A finite non-zero value with enough fraction bits expanded: R113's closed form, or EncodeRange (R111). -/
theorem encodedResponse_finite (sign : Bool) (he : e < 2047) (hf : f < 2 ^ 52) (hne : ¬ (e = 0 ∧ f = 0))
    (hbias : fmt.bias ≤ 1023) (hcap : fmt.mantWidth + fmt.bias ≤ cap + 1) :
    encodedResponse fmt cap (Claims.binary64 sign e f) =
      if 1024 ≤ e + fmt.bias ∧ e + fmt.bias < fmt.expMax + 1023 then
        .word (fmt.pack ⟨sign, e + fmt.bias - 1023, f * 2 ^ fmt.mantWidth / 2 ^ 52⟩) .normal
      else .error .encodeRange := by
  rw [encodedResponse, encodeValue_binary64 fmt cap sign (by omega) hf, if_neg (by omega), if_neg (by omega),
    if_neg hne, encodeFinite_magnitude hf hne hbias hcap]
  split_ifs <;> rfl

/-- The exponents that SINGLE has; 149 bits of expansion reach the last mantissa bit of the least of them. -/
theorem encodedResponse_single (sign : Bool) (he : e < 2047) (hf : f < 2 ^ 52) (hne : ¬ (e = 0 ∧ f = 0))
    (hcap : 149 ≤ cap) :
    encodedResponse .single cap (Claims.binary64 sign e f) =
      if 897 ≤ e ∧ e ≤ 1150 then .word (Claims.binary32 sign (e - 896) (f / 2 ^ 29)) .normal
      else .error .encodeRange := by
  have hrange : 1024 ≤ e + 127 ∧ e + 127 < 255 + 1023 ↔ 897 ≤ e ∧ e ≤ 1150 := by omega
  have hexp : e + 127 - 1023 = e - 896 := by omega
  have hmant : f * 2 ^ 23 / 2 ^ 52 = f / 2 ^ 29 := by omega
  rw [encodedResponse_finite sign he hf hne (by decide) (Nat.succ_le_succ hcap), ← hexp, ← hmant]
  exact if_congr hrange rfl rfl

/-- DOUBLE has the exponent of every normal input and a mantissa bit for every bit of its fraction. -/
theorem encodedResponse_double (sign : Bool) (he : e < 2047) (hf : f < 2 ^ 52) (hne : ¬ (e = 0 ∧ f = 0))
    (hcap : 1074 ≤ cap) :
    encodedResponse .double cap (Claims.binary64 sign e f) =
      if 1 ≤ e then .word (Claims.binary64 sign e f) .normal else .error .encodeRange := by
  have hrange : 1024 ≤ e + 1023 ∧ e + 1023 < 2047 + 1023 ↔ 1 ≤ e := by omega
  have hexp : e + 1023 - 1023 = e := Nat.add_sub_cancel e 1023
  have hmant : f * 2 ^ 52 / 2 ^ 52 = f := Nat.mul_div_cancel f (Nat.two_pow_pos 52)
  rw [encodedResponse_finite sign he hf hne (by decide) (Nat.succ_le_succ hcap)]
  refine if_congr hrange ?_ rfl
  rw [binary64_eq_pack]
  exact congrArg₂ (fun x y => Response.word (Format.double.pack ⟨sign, x, y⟩) .normal) hexp hmant

/-- FDEC 32 looks at the low 32 bits of its word only (R119). -/
theorem exec_fdec_single (s : State) (sign : Bool) (high : Nat) (he : e < 256) (hm : m < 2 ^ 23) :
    exec (.fdec (high * 2 ^ 32 + Claims.binary32 sign e m) 32) s =
      s.respondDecoded (decodeValue .single deliverSingle (Format.single.pack ⟨sign, e, m⟩)) := by
  have hlow : (high * 2 ^ 32 + Claims.binary32 sign e m) % 2 ^ 32 = Format.single.pack ⟨sign, e, m⟩ :=
    Format.low_bits_pack (Format.admits_single sign he hm) high
  rw [exec_fdec, decodedResponse, if_pos rfl, hlow]
  rfl

/-- FDEC 64 looks at the low 64 bits of its word only (R119). -/
theorem exec_fdec_double (s : State) (sign : Bool) (high : Nat) (he : e < 2048) (hm : m < 2 ^ 52) :
    exec (.fdec (high * 2 ^ 64 + Claims.binary64 sign e m) 64) s =
      s.respondDecoded
        (decodeValue .double
          (fun x => deliverDouble x (Config.anyUpperNeighbour s.draws (Claims.binary64 sign e m)))
          (Format.double.pack ⟨sign, e, m⟩)) := by
  have hlow : (high * 2 ^ 64 + Claims.binary64 sign e m) % 2 ^ 64 = Claims.binary64 sign e m :=
    Format.low_bits_pack (Format.admits_double sign he hm) high
  rw [exec_fdec, decodedResponse, if_neg (by decide), if_pos rfl, hlow]
  rfl

/-- The pattern of a NORMAL double triple, row by row of R123. -/
theorem deliverDouble_eq (sign up : Bool) (e m : Nat) :
    deliverDouble ⟨sign, e, m⟩ up =
      if 1 ≤ e then Claims.binary64 sign e m
      else if m % 2 = 0 then Claims.binary64 sign 0 (2 ^ 51 + m / 2)
      else Claims.binary64 sign 0 (2 ^ 51 + (m - 1) / 2 + up.toNat) := by
  have hpattern : ∀ rest, signedPattern sign rest = Claims.binary64 sign 0 rest := fun rest => by
    rw [signedPattern, Claims.binary64, Nat.zero_mul, Nat.add_zero]
  rw [deliverDouble, hpattern, hpattern]
  by_cases he : 1 ≤ e
  · rw [if_pos he, if_neg (show e ≠ 0 by omega), binary64_eq_pack]
  · rw [if_neg he, if_pos (show e = 0 by omega)]
    by_cases heven : m % 2 = 0
    · rw [if_pos heven, if_pos heven]
    · rw [if_neg heven, if_neg heven, show m / 2 = (m - 1) / 2 by omega]

/-! ### The obligations -/

/-- Settles O25: the closed form of the finite encoder at SINGLE. -/
theorem encodeSingleTruncates : Obligations.EncodeSingleTruncates := by
  intro s sign e f he hf hne hcap
  rw [exec_fencS, encodedResponse_single sign he hf hne hcap]
  split_ifs <;> rfl

/-- Settles O26: the closed form of the finite encoder at DOUBLE. -/
theorem encodeDoubleKeepsPattern : Obligations.EncodeDoubleKeepsPattern := by
  intro s sign e f he hf hne hcap
  rw [exec_fencD, encodedResponse_double sign he hf hne hcap]
  split_ifs <;> rfl

/-- Settles O23: signed zeros and NaNs do not reach the finite encoder. -/
theorem encodeZeroAndNaN : Obligations.EncodeZeroAndNaN := by
  intro s sign
  refine ⟨?_, ?_, fun f hf0 hf => ⟨?_, ?_⟩⟩
  · rw [exec_fencS, encodedResponse_zero]
    rfl
  · rw [exec_fencD, encodedResponse_zero]
    rfl
  · rw [exec_fencS, encodedResponse_nan _ _ sign hf0 hf]
    rfl
  · rw [exec_fencD, encodedResponse_nan _ _ sign hf0 hf]
    rfl

/-- Settles O24: infinities do not reach the finite encoder. -/
theorem encodeInfinity : Obligations.EncodeInfinity := by
  intro s sign
  refine ⟨?_, ?_⟩
  · rw [exec_fencS, encodedResponse_infinity]
    rfl
  · rw [exec_fencD, encodedResponse_infinity]
    rfl

/-- Settles O27: one row of R123's table for each kind of the word's fields. -/
theorem decodeSingleDelivery : Obligations.DecodeSingleDelivery := by
  intro s sign e m high he hm
  rw [exec_fdec_single s sign high he hm, decodeValue_pack _ (Format.admits_single sign he hm)]
  simp only [show Format.single.expMax = 255 from rfl]
  split_ifs <;> rfl

/-- Settles O28: one row of R123's table for each kind of the word's fields; the free neighbour is the model's draw. -/
theorem decodeDoubleDelivery : Obligations.DecodeDoubleDelivery := by
  intro s sign e m high he hm
  refine ⟨_, Bool.toNat_le (Config.anyUpperNeighbour s.draws (Claims.binary64 sign e m)), ?_⟩
  rw [exec_fdec_double s sign high he hm, decodeValue_pack _ (Format.admits_double sign he hm)]
  simp only [show Format.double.expMax = 2047 from rfl, deliverDouble_eq]
  split_ifs <;> rfl

/-- Settles O29: the length is checked before the word is read. -/
theorem decodeLengthCheck : Obligations.DecodeLengthCheck := by
  intro s word len h32 h64
  rw [exec_fdec, decodedResponse, if_neg h32, if_neg h64]
  rfl

/-- FDEC 32 of a word of kind NORMAL (R122). -/
theorem exec_fdec_single_normal (s : State) (sign : Bool) (he : e ≤ 254) (hm : m < 2 ^ 23)
    (hne : ¬ (e = 0 ∧ m = 0)) :
    exec (.fdec (Claims.binary32 sign e m) 32) s =
      .next (Claims.answered s (Claims.ok (some (Claims.binary64 sign (e + 896) (m * 2 ^ 29))) (some 0) none)) := by
  have hdec := decodeSingleDelivery s sign e m 0 (by omega) hm
  rwa [Nat.zero_mul, Nat.zero_add, if_neg (by omega), if_neg (by omega), if_neg hne] at hdec

/-- Settles O30: FENC.S subtracts the 896 that FDEC adds to the exponent field, and cuts off the 29 bits that FDEC
appends to the mantissa. -/
theorem singleRoundTrips : Obligations.SingleRoundTrips := by
  intro s sign hcap
  refine ⟨fun e f hlow hhigh hf => ⟨Claims.binary32 sign (e - 896) (f / 2 ^ 29), ?_, ?_⟩,
    fun e m he hm hne => ⟨_, exec_fdec_single_normal s sign he hm hne, ?_⟩⟩
  · rw [encodeSingleTruncates s sign e f (by omega) hf (by omega) hcap, if_pos ⟨hlow, hhigh⟩]
  · rw [exec_fdec_single_normal s sign (by omega) (by omega) (by omega), Nat.sub_add_cancel (by omega)]
  · have hrange : 897 ≤ e + 896 ∧ e + 896 ≤ 1150 ↔ 1 ≤ e := by omega
    rw [encodeSingleTruncates s sign (e + 896) (m * 2 ^ 29) (by omega) (by omega) (by omega) hcap, Nat.add_sub_cancel,
      Nat.mul_div_cancel m (Nat.two_pow_pos 29), if_congr hrange rfl rfl]

end Sys2Proof.Machine
end

section
/-! PROOFS. The Booth multiplier's commands (41_booth_multiplier.md R142 to R154): what each answers in each phase, and
the partial product along every step of the machine. -/

namespace Sys2Proof.Machine

variable {s t : State} {i : Instr} {b : Bmu} {r : BoothRecord} {a n q w : Nat}

/-! ### The partial product along a step -/

/-- Without a history there is no multiplication to speak of. -/
theorem Bmu.discarded_partialProduct (k : Nat) : (Bmu.discarded k).PartialProduct := fun _ hr => nomatch hr

/-- BINIT and BRESET begin anew, BSTEP examines one more bit, and no other command writes the multiplier. -/
theorem Effect.partialProduct (h : Effect s i t) (hb : s.bmu.Consistent s.params) (hpp : s.bmu.PartialProduct) :
    t.bmu.PartialProduct := by
  cases h with
  | binit m q => exact Bmu.initialised_partialProduct _ _ m q
  | bstep hphase => exact hpp.stepped (hb.running hphase) hphase
  | breset => exact Bmu.discarded_partialProduct _
  | push _ _ _ _ h => rwa [State.commitStack_bmu h]
  | pop _ _ _ _ h => rwa [State.commitStack_bmu h]
  | binary _ _ _ _ _ _ _ _ _ _ _ h => rwa [State.commitStack_bmu h]
  | _ => exact hpp

/-- Settles O37: a step waits, resets, or has the effect of a command or a failure, and each keeps the partial
product. -/
theorem stepKeepsPartialProduct : Obligations.StepKeepsPartialProduct := by
  intro s t hs hpp h
  obtain ⟨-, rfl⟩ | ⟨rest, -, rfl⟩ | ⟨c, rest, -, ⟨i, -, heffect⟩ | ⟨e, -, rfl⟩⟩ := step_cases h
  · exact hpp
  · exact Bmu.discarded_partialProduct _
  · exact heffect.partialProduct hs.bmu hpp
  · exact hpp

/-! ### The product -/

/-- The effective multiplicand differs from `M` only where `M` is the least word: there its sign is lost (R153). -/
theorem Bmu.effectiveMultiplicand_eq (hpos : 1 ≤ b.W) (hM : b.M < 2 ^ b.W) :
    b.effectiveMultiplicand = if b.M = 2 ^ (b.W - 1) then -sval b.W b.M else sval b.W b.M := by
  obtain ⟨n, hW⟩ := Nat.exists_eq_add_of_le' hpos
  rw [hW] at hM
  rw [Bmu.effectiveMultiplicand, hW, Nat.add_sub_cancel]
  split
  · next hleast =>
    rw [sval_succ hM, if_pos hleast.ge, hleast]
    push_cast
    ring
  · rfl

/-- Settles O38: BRESULT reads the product with the effective multiplicand. -/
theorem completedProduct : Obligations.CompletedProduct := by
  intro s r hs hpp hphase hr
  have hrun : BoothRunning s.params s.bmu := hs.bmu.2 (by rw [hphase]; decide)
  rw [exec_bresult_of_complete hphase, hpp.product_eq hrun hphase hr,
    Bmu.effectiveMultiplicand_eq hrun.width_pos hrun.word_M, ite_mul, neg_mul]
  rfl

/-! ### BINIT -/

theorem exec_binit_of_refused {m q width : Int}
    (h : ¬ (1 ≤ width ∧ width ≤ s.params.W_MAX ∧ inSignedRange width.toNat m = true ∧
      inSignedRange width.toNat q = true)) :
    exec (.binit m q width) s = s.raise .invalidInputError := by
  show execBinit m q width s = _
  unfold execBinit
  split_ifs with hwidth hm hq
  · rfl
  · exact absurd ⟨by omega, by omega, hm, hq⟩ h
  · rfl
  · rfl

theorem inSignedRange_iff (n : Nat) (v : Int) :
    inSignedRange n v = true ↔ -2 ^ (n - 1) ≤ v ∧ v ≤ 2 ^ (n - 1) - 1 := decide_eq_true_iff

/-- Settles O31: with every operand in range BINIT begins, else it is refused. -/
theorem binitStartsMultiplication : Obligations.BinitStartsMultiplication := by
  refine ⟨rfl, fun s m q w => ?_⟩
  split
  case isTrue h =>
    obtain ⟨hpos, hmax, hmlow, hmhigh, hqlow, hqhigh⟩ := h
    exact ⟨initRecord s.draws w.toNat q, rfl, rfl, rfl, rfl, umod_cast _ q,
      exec_binit_of_inSignedRange hpos hmax ((inSignedRange_iff _ m).2 ⟨hmlow, hmhigh⟩)
        ((inSignedRange_iff _ q).2 ⟨hqlow, hqhigh⟩)⟩
  case isFalse h =>
    refine exec_binit_of_refused fun hall => h ?_
    rwa [inSignedRange_iff, inSignedRange_iff, and_assoc] at hall

/-! ### BSTEP -/

theorem boothPair_of_parity (bit q1 : Bool) (h : q % 2 = bit.toNat) :
    boothPair q q1 = BitVec.ofBool bit ++ BitVec.ofBool q1 := by
  have hbit : q.testBit 0 = bit := by cases bit <;> simp_all
  rw [boothPair, hbit]

theorem umod_eq_of_cast {v : Int} (h : (a : Int) = v % 2 ^ n) : umod n v = a := by
  rw [umod, ← h, Int.toNat_natCast]

/-- The arithmetic shift of a word: its half, with the sign bit in front (R145). -/
theorem shiftedA_eq (hw : 1 ≤ w) (ha : a < 2 ^ w) :
    shiftedA w a = a / 2 + if 2 ^ (w - 1) ≤ a then 2 ^ (w - 1) else 0 := by
  obtain ⟨n, rfl⟩ := Nat.exists_eq_add_of_le' hw
  rw [shiftedA, Nat.add_sub_cancel, testBit_sign ha, Nat.add_comm]
  split_ifs with hsign <;> simp [hsign]

theorem shiftedQ_eq_mod (w a q : Nat) : shiftedQ w a q = a % 2 * 2 ^ (w - 1) + q / 2 := by
  rw [shiftedQ, Nat.toNat_testBit, Nat.pow_zero, Nat.div_one]

/-- The record of a step is the one with the pair's bits and operation, the shifted sum, and the bit examined
(R146). -/
theorem Bmu.nextRecord_eq (hpair : boothPair b.Q b.Q1 = r.bits) (hop : boothOpOf r.bits = r.operation)
    (hstep : r.step = b.currentStep + 1) (hA : r.A = shiftedA b.W (boothSum b.W r.operation b.A b.M))
    (hQ : r.Q = shiftedQ b.W (boothSum b.W r.operation b.A b.M) b.Q) (hQ1 : r.Q1 = b.Q.testBit 0) :
    b.nextRecord = r := by
  rw [Bmu.nextRecord, hpair, hop, ← hstep, ← hA, ← hQ, ← hQ1]

/-- Settles O32: the pair gives the operation and the sum, and with them the record of the step and the registers,
which show it. -/
theorem bstepMakesOneStep : Obligations.BstepMakesOneStep := by
  refine ⟨rfl, fun s a' op r hphase hpos hword hpair hstep hop hA hQ hQ1 => ?_⟩
  obtain ⟨hbits, hopOf, hsum⟩ : boothPair s.bmu.Q s.bmu.Q1 = r.bits ∧ boothOpOf r.bits = op ∧
      boothSum s.bmu.W op s.bmu.A s.bmu.M = a' := by
    obtain ⟨hq, hq1, rfl, hsum, hbits⟩ | ⟨hq, hq1, rfl, hsum, hbits⟩ | ⟨hq, hq1, rfl, hsum, hbits⟩ |
      ⟨hq, hq1, rfl, hsum, hbits⟩ := hpair
    · rw [hbits, hq1, boothPair_of_parity true false hq]
      exact ⟨rfl, rfl, umod_eq_of_cast hsum⟩
    · rw [hbits, hq1, boothPair_of_parity false true hq]
      exact ⟨rfl, rfl, umod_eq_of_cast hsum⟩
    · rw [hbits, hq1, boothPair_of_parity false false hq]
      exact ⟨rfl, rfl, hsum.symm⟩
    · rw [hbits, hq1, boothPair_of_parity true true hq]
      exact ⟨rfl, rfl, hsum.symm⟩
  have hlt : a' < 2 ^ s.bmu.W := hsum ▸ boothSum_lt op s.bmu.M hword
  have hrecord : s.bmu.nextRecord = r := by
    refine Bmu.nextRecord_eq hbits (hopOf.trans hop.symm) hstep ?A ?Q (hQ1.trans (Nat.testBit_zero _).symm)
    case A => rw [hop, hsum, hA, shiftedA_eq hpos hlt]
    case Q => rw [hop, hsum, hQ, shiftedQ_eq_mod]
  rw [exec_bstep_of_stepping hphase, Bmu.stepped, hrecord, hphase]
  rfl

theorem exec_bstep_of_complete (hphase : s.bmu.phase = .complete) : exec .bstep s = s.respond (.value 0) := by
  show execBstep s = _
  rw [execBstep, hphase]

theorem exec_bstep_of_idle (hphase : s.bmu.phase = .idle) : exec .bstep s = s.raise .notReady := by
  show execBstep s = _
  rw [execBstep, hphase]

/-- Settles O33: a completed multiplication makes no progress, and without one BSTEP fails. -/
theorem bstepOutsideStepping : Obligations.BstepOutsideStepping := fun _ =>
  ⟨exec_bstep_of_complete, exec_bstep_of_idle⟩

/-! ### BRESULT -/

/-- The sign of the word `A ‖ Q` is the sign of `A` (R150). -/
theorem Bmu.product_eq_ite (hpos : 1 ≤ b.W) (hA : b.A < 2 ^ b.W) (hQ : b.Q < 2 ^ b.W) :
    b.product = if b.A < 2 ^ (b.W - 1) then ((b.A * 2 ^ b.W + b.Q : Nat) : Int)
      else ((b.A * 2 ^ b.W + b.Q : Nat) : Int) - 2 ^ (2 * b.W) := by
  obtain ⟨n, hW⟩ := Nat.exists_eq_add_of_le' hpos
  rw [hW] at hA hQ
  rw [Bmu.product, hW, sval_join hA hQ, sval_succ hA, Nat.add_sub_cancel]
  simp only [← not_lt, ite_not]
  split
  · push_cast
    rfl
  · push_cast
    ring

theorem exec_bresult_of_not_complete (hphase : s.bmu.phase ≠ .complete) : exec .bresult s = s.raise .notReady := by
  show execBresult s = _
  unfold execBresult
  split
  · next hcomplete => exact absurd hcomplete hphase
  · rfl
  · rfl

/-- Settles O34: BRESULT reads `A ‖ Q` when COMPLETE, and fails in the other phases. -/
theorem bresultReadsProduct : Obligations.BresultReadsProduct := by
  refine ⟨rfl, fun s v => ⟨fun hphase hpos hA hQ hv => ?_, exec_bresult_of_not_complete⟩⟩
  rw [exec_bresult_of_complete hphase, Bmu.product_eq_ite hpos hA hQ, ← hv]
  rfl

/-! ### BVIEW and BRESET -/

theorem exec_bview_of_idle (index : Int) (hphase : s.bmu.phase = .idle) :
    exec (.bview index) s = s.raise .notReady := if_pos hphase

theorem exec_bview_of_record {index : Int} (hphase : s.bmu.phase ≠ .idle) (hr : s.bmu.record? index = some r) :
    exec (.bview index) s = s.respond (.record (.booth r)) := by
  show execBview index s = _
  rw [execBview, if_neg hphase, hr]

theorem exec_bview_of_no_record {index : Int} (hphase : s.bmu.phase ≠ .idle) (hr : s.bmu.record? index = none) :
    exec (.bview index) s = s.raise .invalidInputError := by
  show execBview index s = _
  rw [execBview, if_neg hphase, hr]

theorem Bmu.record?_of_nonneg {index : Int} (h : 0 ≤ index) : b.record? index = b.history[index.toNat]? :=
  if_neg (not_lt.2 h)

theorem Bmu.record?_eq_none {index : Int} (h : index < 0 ∨ (b.history.length : Int) ≤ index) :
    b.record? index = none := by
  rcases h with hneg | hlen
  · exact if_pos hneg
  · rw [Bmu.record?_of_nonneg (by omega), List.getElem?_eq_none (by omega)]

/-- Settles O35: BVIEW fails in IDLE, answers the record of an index of the history, and refuses any other. -/
theorem bviewReadsHistory : Obligations.BviewReadsHistory := by
  refine ⟨rfl, fun s i => ⟨exec_bview_of_idle i, fun hphase r hi hr => ?_, fun hphase hi => ?_⟩⟩
  · exact exec_bview_of_record hphase ((Bmu.record?_of_nonneg hi).trans hr)
  · exact exec_bview_of_no_record hphase (Bmu.record?_eq_none hi)

/-- Settles O36: the multiplier that BRESET leaves is the discarded one, in every phase. -/
theorem bresetDiscardsHistory : Obligations.BresetDiscardsHistory :=
  ⟨rfl, fun s => ⟨Bmu.discarded s.draws, rfl, rfl, rfl⟩⟩

end Sys2Proof.Machine
end

section
/-! PROOFS. The stack machine's commands (42_stack_machine.md R171 to R192): how each ends, on which stack, with the
bookkeeping of SP and the flags along every step, and the quotient and remainder under both roundings. -/

namespace Sys2Proof.Machine

variable {s t : State} {i : Instr} {p : Params} {u : Scu} {below : List Int} {a b v : Int} {k : Nat}

/-! ### SP and the length of the stack -/

/-- `SP + len == MAX_STACK_SIZE` (R194). -/
def Scu.Balanced (p : Params) (u : Scu) : Prop := u.SP + u.operandStack.length = p.MAX_STACK_SIZE

theorem Scu.cleared_balanced (p : Params) (k : Nat) : (Scu.cleared p k).Balanced p := Int.add_zero _

theorem Scu.Balanced.pushed (h : u.Balanced p) (k : Nat) (v : Int) : (u.pushed p k v).Balanced p := by
  unfold Scu.Balanced at *
  rw [Scu.pushed_SP, Scu.pushed_operandStack, List.length_append, List.length_singleton]
  omega

theorem Scu.Balanced.popped (h : u.Balanced p) (k : Nat) (hstack : u.operandStack = below ++ [v]) :
    (u.popped p k below).Balanced p := by
  unfold Scu.Balanced at *
  rw [hstack, List.length_append, List.length_singleton] at h
  rw [Scu.popped_SP, Scu.popped_operandStack]
  omega

theorem Scu.Balanced.computed (h : u.Balanced p) (k : Nat) (r : Int) (flags : Flags)
    (hstack : u.operandStack = below ++ [a, b]) : (u.computed p k below r flags).Balanced p := by
  unfold Scu.Balanced at *
  rw [hstack, List.length_append, List.length_cons, List.length_singleton] at h
  rw [Scu.computed_SP, Scu.computed_operandStack, List.length_append, List.length_singleton]
  omega

/-- No command, successful or failing, unbalances SP and the stack. -/
theorem Effect.balanced (h : Effect s i t) (hs : s.scu.Balanced s.params) : t.scu.Balanced s.params := by
  cases h with
  | push v _ _ _ h => exact State.commitStack_scu h ▸ hs.pushed _ v
  | pop _ _ _ hstack h => exact State.commitStack_scu h ▸ hs.popped _ hstack
  | sreset => exact Scu.cleared_balanced _ _
  | binary _ _ _ _ _ _ _ _ hstack _ _ h => exact State.commitStack_scu h ▸ hs.computed _ _ _ hstack
  | _ => exact hs

/-- Settles O11: a step waits, resets, or has the effect of a command or a failure; each keeps the parameters and the
balance. -/
theorem stepKeepsStackPointer : Obligations.StepKeepsStackPointer := by
  intro s t hs h
  obtain ⟨hparams, -⟩ := noCommandWritesSegmentRegisters s t h
  rw [hparams]
  obtain ⟨-, rfl⟩ | ⟨rest, -, rfl⟩ | ⟨c, rest, -, ⟨i, -, heffect⟩ | ⟨e, -, rfl⟩⟩ := step_cases h
  · exact hs
  · exact Scu.cleared_balanced _ _
  · exact heffect.balanced hs
  · exact hs

/-! ### The flags -/

theorem instrOf_mem (op : BinOp) : Claims.instrOf op ∈ [Instr.add, .sub, .mul, .div, .mod] := by
  cases op <;> simp [Claims.instrOf]

theorem statusOf_commitStack {vacated : Bool} {r : Response} (h : s.commitStack u vacated r = .next t) :
    Claims.statusOf t = some r.status := by
  obtain ⟨-, hr, -⟩ := State.commitStack_frame h
  rw [Claims.statusOf, hr]
  rfl

/-- Settles O13: of the commands that write the stack machine, PUSH and POP keep the flags. -/
theorem onlyArithmeticWritesFlags : Obligations.OnlyArithmeticWritesFlags := by
  intro i s t h
  cases exec_effect h with
  | push _ _ _ _ h => exact .inl (by rw [State.commitStack_scu h, Scu.pushed_flags])
  | pop _ _ _ _ h => exact .inl (by rw [State.commitStack_scu h, Scu.popped_flags])
  | sreset => exact .inr (.inl rfl)
  | binary _ op _ _ _ _ _ hi _ _ _ h => exact .inr (.inr ⟨hi ▸ instrOf_mem op, statusOf_commitStack h⟩)
  | _ => exact .inl rfl

/-! ### The quotient and the remainder -/

/-- Where the exact quotient is not negative or the division is exact, truncation and floor agree (R181). -/
theorem tdiv_eq_fdiv_of_agree (h : b ∣ a ∨ 0 ≤ a * b) : a.tdiv b = a.fdiv b := by
  rw [mul_nonneg_iff] at h
  obtain hdvd | ⟨ha, hb⟩ | ⟨ha, hb⟩ := h
  · rw [Int.tdiv_eq_ediv_of_dvd hdvd, Int.fdiv_eq_ediv_of_dvd hdvd]
  · exact (Int.fdiv_eq_tdiv_of_nonneg ha hb).symm
  · rw [← Int.neg_tdiv_neg, ← Int.neg_fdiv_neg,
      Int.fdiv_eq_tdiv_of_nonneg (Int.neg_nonneg_of_nonpos ha) (Int.neg_nonneg_of_nonpos hb)]

theorem quot_trunc (hb : b ≠ 0) : quot .trunc a b = a.tdiv b := by
  rw [quot_eq_quotient _ hb, Claims.quotient, if_pos (.inr (.inr rfl))]

theorem quot_floor (hb : b ≠ 0) : quot .floor a b = a.fdiv b := by
  rw [quot_eq_quotient _ hb, Claims.quotient]
  split
  · next h => exact tdiv_eq_fdiv_of_agree (by simpa using h)
  · rfl

theorem remainder_trunc (hb : b ≠ 0) : remainder .trunc a b = a.tmod b := by
  rw [remainder, quot_trunc hb, Int.tmod_def]

theorem remainder_floor (hb : b ≠ 0) : remainder .floor a b = a.fmod b := by
  rw [remainder, quot_floor hb, Int.fmod_def]

/-- The remainder of the truncated quotient is smaller than the divisor and has the sign of the dividend (R182). -/
theorem tmod_bounds (a : Int) (hb : b ≠ 0) :
    (a.tmod b).natAbs < b.natAbs ∧ (a.tmod b ≠ 0 → (a.tmod b < 0 ↔ a < 0)) := by
  refine ⟨?_, fun hr => ?_⟩
  · rw [Int.natAbs_tmod]
    exact Nat.mod_lt _ (Int.natAbs_pos.2 hb)
  · have hsign := Int.sign_tmod a b
    rw [if_neg fun hdvd => hr (Int.tmod_eq_zero_of_dvd hdvd)] at hsign
    rw [← Int.sign_eq_neg_one_iff_neg, hsign, Int.sign_eq_neg_one_iff_neg]

/-- The remainder of the floored quotient is smaller than the divisor and has the divisor's sign (R182). -/
theorem fmod_bounds (a : Int) (hb : b ≠ 0) :
    (a.fmod b).natAbs < b.natAbs ∧ (a.fmod b ≠ 0 → (a.fmod b < 0 ↔ b < 0)) := by
  rcases lt_or_gt_of_ne hb with hneg | hpos
  · have hlow := Int.fmod_nonneg_of_pos (-a) (neg_pos.2 hneg)
    have hhigh := Int.fmod_lt_of_pos (-a) (neg_pos.2 hneg)
    rw [Int.neg_fmod_neg] at hlow hhigh
    omega
  · have hlow := Int.fmod_nonneg_of_pos a hpos
    have hhigh := Int.fmod_lt_of_pos a hpos
    omega

/-- Settles O47: TRUNC is `tdiv` and `tmod`, FLOOR is `fdiv` and `fmod`, and for `a ≥ 0` and `b > 0` both are the
ordinary quotient and remainder. -/
theorem quotientAndRemainder : Obligations.QuotientAndRemainder := by
  intro round a b q r hb (hq : q = quot round a b) (hr : r = remainder round a b)
  have hsum : a = b * q + r := by rw [hq, hr, remainder, add_sub_cancel]
  refine ⟨hsum, ?_⟩
  cases round with
  | trunc =>
    rw [quot_trunc hb] at hq
    rw [remainder_trunc hb] at hr
    subst hq hr
    obtain ⟨hsize, hsign⟩ := tmod_bounds a hb
    exact ⟨hsize, fun _ => ⟨rfl, hsign⟩, nofun, tdiv_eq_fdiv_of_agree, fun ha _ =>
      ⟨Int.tdiv_eq_ediv_of_nonneg ha, Int.tmod_eq_emod_of_nonneg ha⟩⟩
  | floor =>
    rw [quot_floor hb] at hq
    rw [remainder_floor hb] at hr
    subst hq hr
    obtain ⟨hsize, hsign⟩ := fmod_bounds a hb
    exact ⟨hsize, nofun, fun _ => ⟨rfl, hsign⟩, tdiv_eq_fdiv_of_agree, fun _ hpos =>
      ⟨Int.fdiv_eq_ediv_of_nonneg a hpos.le, Int.fmod_eq_emod_of_nonneg a hpos.le⟩⟩

/-! ### The end of a stack command -/

theorem cellFits_iff_fits : cellFits s.params v = true ↔ Claims.fits s v := by
  unfold cellFits Claims.fits
  cases s.params.CELL_BITS with
  | none => simp
  | some n => simp [inSignedRange_iff]

/-- A stack command that completes writes the stack machine and the memory unit only, and the memory unit only when a
memory is attached (R60, R64). -/
theorem State.commitStack_stackFrame {vacated : Bool} {r : Response} (h : s.commitStack u vacated r = .next t) :
    Claims.stackFrame s t := by
  obtain ⟨-, -, hbmu, hparams, hinputs, hdraws, hcs, hds, hss, hes⟩ := State.commitStack_frame h
  refine ⟨hbmu, hparams, hinputs, hdraws, hcs, hds, hss, hes, fun hdetached => ?_⟩
  obtain ⟨hattached, -⟩ | ⟨-, rfl⟩ := State.commitStack_cases h
  · rw [hattached] at hdetached
    cases hdetached
  · rfl

/-- A stack command whose projection stays in the memory completes (R59). -/
theorem State.commitStack_of_projectable {vacated : Bool} (r : Response)
    (h : Claims.projectable s (slotsTouched u.operandStack vacated)) :
    ∃ t, s.commitStack u vacated r = .next t ∧ t.scu = u ∧ t.response = some r ∧ Claims.stackFrame s t := by
  obtain ⟨t, ht⟩ : ∃ t, s.commitStack u vacated r = .next t := by
    unfold State.commitStack
    split_ifs with hattached hfit
    · exact ⟨_, rfl⟩
    · exact absurd (projectionFits_iff.2 (h hattached)) hfit
    · exact ⟨_, rfl⟩
  obtain ⟨hscu, hr, -⟩ := State.commitStack_frame ht
  exact ⟨t, ht, hscu, hr, State.commitStack_stackFrame ht⟩

/-! ### PUSH -/

theorem exec_push_of_full (hfull : s.scu.operandStack.length = s.params.MAX_STACK_SIZE) :
    exec (.push v) s = s.raise .stackOverflow := if_pos hfull

theorem exec_push_of_fits (hroom : s.scu.operandStack.length ≠ s.params.MAX_STACK_SIZE) (hfit : Claims.fits s v) :
    exec (.push v) s = s.commitStack (s.scu.pushed s.params s.draws v) false .done :=
  (if_neg hroom).trans (if_pos (cellFits_iff_fits.2 hfit))

theorem exec_push_of_not_fits (hroom : s.scu.operandStack.length ≠ s.params.MAX_STACK_SIZE)
    (hfit : ¬ Claims.fits s v) : exec (.push v) s = s.raise .cellRange :=
  (if_neg hroom).trans (if_neg (mt cellFits_iff_fits.1 hfit))

/-- Settles O40: with room and a value that fits PUSH commits, else it fails, on a full stack before all else. -/
theorem pushAppends : Obligations.PushAppends := by
  refine fun s v => ⟨fun hroom hfit hproj => ?_, exec_push_of_full, exec_push_of_not_fits⟩
  rw [exec_push_of_fits hroom hfit]
  obtain ⟨t, ht, hscu, hr, hframe⟩ :=
    State.commitStack_of_projectable (u := s.scu.pushed s.params s.draws v) (vacated := false) .done
      (by simpa [slotsTouched] using hproj)
  refine ⟨t, ht, ?_, ?_, ?_, ⟨Config.anyLine s.draws, ?_⟩, hr, hframe⟩
  · rw [hscu, Scu.pushed_operandStack]
  · rw [hscu, Scu.pushed_SP]
  · rw [hscu, Scu.pushed_flags]
  · rw [hscu, Scu.pushed_instructionTrace]

/-! ### POP and PEEK -/

theorem exec_pop_of_top (hstack : s.scu.operandStack = below ++ [v]) :
    exec .pop s = s.commitStack (s.scu.popped s.params s.draws below) true (.value v) := by
  show execPop s = _
  simp [execPop, hstack]

theorem exec_pop_of_empty (hstack : s.scu.operandStack = []) : exec .pop s = s.raise .stackUnderflow := by
  show execPop s = _
  rw [execPop, hstack]
  rfl

theorem exec_peek_of_top (hstack : s.scu.operandStack = below ++ [v]) : exec .peek s = s.respond (.value v) := by
  show execPeek s = _
  simp [execPeek, hstack]

theorem exec_peek_of_empty (hstack : s.scu.operandStack = []) : exec .peek s = s.raise .stackUnderflow := by
  show execPeek s = _
  rw [execPeek, hstack]
  rfl

/-- Settles O41: POP commits the stack below the top, which vacates one slot, and fails on an empty stack. -/
theorem popRemovesTop : Obligations.PopRemovesTop := by
  refine fun s => ⟨fun below v hstack hproj => ?_, exec_pop_of_empty⟩
  rw [exec_pop_of_top hstack]
  obtain ⟨t, ht, hscu, hr, hframe⟩ :=
    State.commitStack_of_projectable (u := s.scu.popped s.params s.draws below) (vacated := true) (.value v) hproj
  refine ⟨t, ht, ?_, ?_, ?_, ⟨Config.anyMoreLines s.draws, ?_⟩, hr, hframe⟩
  · rw [hscu, Scu.popped_operandStack]
  · rw [hscu, Scu.popped_SP]
  · rw [hscu, Scu.popped_flags]
  · rw [hscu, Scu.popped_instructionTrace]

/-- Settles O42: PEEK answers the top, and fails on an empty stack. -/
theorem peekReadsTop : Obligations.PeekReadsTop :=
  ⟨rfl, fun _ => ⟨fun _ _ => exec_peek_of_top, exec_peek_of_empty⟩⟩

/-! ### SRESET -/

/-- Settles O43: the stack machine that SRESET leaves is the cleared one, with its free header. -/
theorem sresetClearsStackMachine : Obligations.SresetClearsStackMachine :=
  ⟨rfl, fun s => ⟨Config.anyHeader s.draws, rfl⟩⟩

/-! ### The binary operations -/

theorem divides_iff (op : BinOp) : op.divides = true ↔ op ∈ [BinOp.div, .mod] := by
  cases op <;> decide

theorem State.binaryOp_of_short (op : BinOp) (h : s.scu.operandStack.length < 2) :
    s.binaryOp op = s.raise .stackUnderflow := by
  unfold State.binaryOp
  split
  · next hstack =>
    have hlen := congrArg List.length hstack
    simp only [List.length_reverse, List.length_cons] at hlen
    omega
  · rfl

/-- A binary operation that has a result commits it, or fails with CellRange where it does not fit (R174, R197). -/
theorem State.binaryOp_eq_of_result {op : BinOp} {r : Int} (hstack : s.scu.operandStack = below ++ [a, b])
    (hzero : op ∈ [BinOp.div, .mod] → b ≠ 0) (hr : r = Claims.resultOf s.params.DIV_ROUND a b op) :
    s.binaryOp op =
      if cellFits s.params r then
        s.commitStack (s.scu.computed s.params s.draws below r (flagsOf op a b r)) true (.value r)
      else s.raise .cellRange := by
  have hdiv : ¬ (op.divides = true ∧ b = 0) := fun ⟨hop, hb⟩ => hzero ((divides_iff op).1 hop) hb
  rw [State.binaryOp_eq hstack, if_neg hdiv, result_eq_resultOf op _ hdiv, ← hr]

/-- Settles O44: with two elements and a divisor that is not 0, a result that fits is committed in their place, which
vacates one slot, and one that does not fit fails. -/
theorem binaryOperationReplacesTopTwo : Obligations.BinaryOperationReplacesTopTwo := by
  intro op s
  rw [exec_instrOf]
  refine ⟨fun below a b r hstack hzero hr => ?_, State.binaryOp_of_short op⟩
  rw [State.binaryOp_eq_of_result hstack hzero hr]
  refine ⟨fun hfit hproj => ?_, fun hfit => if_neg (mt cellFits_iff_fits.1 hfit)⟩
  rw [if_pos (cellFits_iff_fits.2 hfit)]
  obtain ⟨t, ht, hscu, hr, hframe⟩ :=
    State.commitStack_of_projectable (u := s.scu.computed s.params s.draws below r (flagsOf op a b r))
      (vacated := true) (.value r) (by simpa [slotsTouched] using hproj)
  refine ⟨t, ht, ?_, ?_, ⟨Config.anyLine s.draws, Config.anyMoreLines s.draws, ?_⟩, hr, hframe⟩
  · rw [hscu, Scu.computed_operandStack]
  · rw [hscu, Scu.computed_SP]
  · rw [hscu, Scu.computed_instructionTrace]

end Sys2Proof.Machine
end

section
/-! PROOFS. The memory unit's commands (43_memory_port.md R210 to R222): how each ends with a memory attached, and what
the log and the scan hold. -/

namespace Sys2Proof.Machine

variable {s : State} {addr v first last : Int}

/-! ### The operands and the attached memory -/

theorem validAddress_iff : validAddress addr = true ↔ 0 ≤ addr ∧ addr < 0x100000 := decide_eq_true_iff

theorem isByteValue_iff : isByteValue v = true ↔ 0 ≤ v ∧ v ≤ 255 := decide_eq_true_iff

theorem not_validAddress (h : addr < 0 ∨ 0x100000 ≤ addr) : ¬ validAddress addr = true := by
  rw [validAddress_iff]
  omega

theorem not_isByteValue (h : v < 0 ∨ 255 < v) : ¬ isByteValue v = true := by
  rw [isByteValue_iff]
  omega

/-- The byte of a value in `[0, 255]` is the one whose unsigned reading is the value. -/
theorem eq_byteOf_iff (hv : isByteValue v = true) (b : Byte) : b = byteOf v ↔ (b.toNat : Int) = v := by
  obtain ⟨h0, h255⟩ := isByteValue_iff.1 hv
  rw [byteOf, ← BitVec.toNat_inj, BitVec.toNat_ofInt]
  omega

/-- One entry more in the capped log is the statement's (R42). -/
theorem appendLog_singleton (log : List LogEntry) (e : LogEntry) : appendLog log [e] = Claims.logged log e := by
  rw [appendLog_eq_drop, List.length_append, List.length_singleton]
  rfl

/-- A command that stores to the memory unit, and in it to no segment register, keeps the rest. -/
theorem memFrame_of_segments {u : MemUnit} (r : Response) (hcs : u.CS = s.memUnit.CS) (hds : u.DS = s.memUnit.DS)
    (hss : u.SS = s.memUnit.SS) (hes : u.ES = s.memUnit.ES) :
    Claims.memFrame s { s with memUnit := u, response := some r } :=
  ⟨rfl, rfl, rfl, rfl, rfl, hcs, hds, hss, hes⟩

/-! ### READB -/

theorem exec_readb_of_attached (hm : s.params.MEM_ATTACHED = true) :
    exec (.readb addr) s =
      if validAddress addr then
        State.respond (.value (s.memUnit.mem.read addr.toNat).toNat)
          { s with memUnit := s.memUnit.afterRead s.draws addr.toNat }
      else s.raise .addressOutOfRange :=
  if_pos hm

/-- READB counts one read and logs it, with no old value (R210). -/
theorem MemUnit.afterRead_eq (k a : Nat) (u : MemUnit) :
    u.afterRead k a =
      { u with
        readCount := u.readCount + 1
        opLog :=
          Claims.logged u.opLog
            { type := .read, address := a, oldValue := none, newValue := u.mem.read a
              timestamp := Config.anyTimestamp k } } := by
  rw [MemUnit.afterRead, appendLog_singleton]

/-- Settles O50: a valid address is read and logged, any other fails. -/
theorem readbAnswersByte : Obligations.ReadbAnswersByte := by
  refine ⟨rfl, fun s addr hm => ?_⟩
  rw [exec_readb_of_attached hm]
  refine ⟨fun h0 hlt => ⟨Config.anyTimestamp s.draws, ?_⟩, fun hout => if_neg (not_validAddress hout)⟩
  rw [if_pos (validAddress_iff.2 ⟨h0, hlt⟩), MemUnit.afterRead_eq]
  rfl

/-! ### WRITEB -/

theorem exec_writeb_of_attached (hm : s.params.MEM_ATTACHED = true) :
    exec (.writeb addr v) s =
      if ¬ validAddress addr then s.raise .addressOutOfRange
      else if ¬ isByteValue v then s.raise .invalidByteValue
      else State.respond .done { s with memUnit := s.memUnit.afterWrite s.draws addr.toNat (byteOf v) } :=
  if_pos hm

/-- WRITEB logs one write, with the byte that the address held before (R211). -/
theorem MemUnit.afterWrite_opLog (k a : Nat) (b : Byte) (u : MemUnit) :
    (u.afterWrite k a b).opLog =
      Claims.logged u.opLog
        { type := .write, address := a, oldValue := some (u.mem.read a), newValue := b
          timestamp := Config.anyTimestamp k } :=
  appendLog_singleton _ _

/-- Settles O51: a valid address takes a byte value, in the memory as in `written`; an invalid address fails before an
invalid value does. -/
theorem writebStoresByte : Obligations.WritebStoresByte := by
  refine ⟨rfl, fun s addr v hm hwf => ?_⟩
  rw [exec_writeb_of_attached hm]
  refine ⟨fun h0 hlt hv0 hv255 => ?_, fun hout => if_pos (not_validAddress hout), fun h0 hlt hout => ?_⟩
  · have haddr : ∀ a : Nat, a = addr.toNat ↔ (a : Int) = addr := by omega
    rw [if_neg (not_not_intro (validAddress_iff.2 ⟨h0, hlt⟩)),
      if_neg (not_not_intro (isByteValue_iff.2 ⟨hv0, hv255⟩))]
    refine ⟨_, Config.anyTimestamp s.draws, rfl, fun a => ?_, fun a => ?_, rfl, rfl,
      MemUnit.afterWrite_opLog _ _ _ _, rfl, memFrame_of_segments _ rfl rfl rfl rfl⟩
    · simp only [MemUnit.afterWrite_mem, Memory.read_write hwf, haddr, byteOf]
    · simp only [MemUnit.afterWrite_written, mem_addAddress, haddr]
  · rw [if_neg (not_not_intro (validAddress_iff.2 ⟨h0, hlt⟩))]
    exact if_pos (not_isByteValue hout)

/-! ### FILL -/

theorem exec_fill_of_attached (hm : s.params.MEM_ATTACHED = true) :
    exec (.fill first last v) s =
      if first > last then s.raise .invalidInputError
      else if first < 0 ∨ (memSize : Int) ≤ last then s.raise .addressOutOfRange
      else if ¬ isByteValue v then s.raise .invalidByteValue
      else
        State.respond (.value (last - first + 1))
          { s with
            memUnit := s.memUnit.afterFill s.draws first.toNat (last - first + 1).toNat (byteOf v) } :=
  if_pos hm

/-- FILL leaves the membership of the addresses outside its interval (R40). -/
theorem MemUnit.mem_afterFill_written (k start count : Nat) (b : Byte) (u : MemUnit) {a : Nat}
    (ha : ¬ (start ≤ a ∧ a < start + count)) :
    a ∈ (u.afterFill k start count b).written ↔ a ∈ u.written :=
  mem_anyMembership k start count (u.anyStatistics k) a ha

/-- Settles O52: the `last - first + 1` addresses from `first` on are those of the interval; the checks fail in their
order. -/
theorem fillStoresInterval : Obligations.FillStoresInterval := by
  refine ⟨rfl, fun s first last v hm => ?_⟩
  have hin (hfirst : 0 ≤ first) (hlast : last < 0x100000) : ¬ (first < 0 ∨ (memSize : Int) ≤ last) :=
    not_or.2 ⟨not_lt.2 hfirst, not_le.2 hlast⟩
  rw [exec_fill_of_attached hm]
  refine ⟨fun hle hfirst hlast hv0 hv255 => ?_, fun hlt => if_pos hlt,
    fun hle hends => (if_neg (not_lt.2 hle)).trans (if_pos hends), fun hle hfirst hlast hout => ?_⟩
  · have hinterval : ∀ a : Nat, (first.toNat ≤ a ∧ a < first.toNat + (last - first + 1).toNat) ↔
        (first ≤ a ∧ (a : Int) ≤ last) := by omega
    rw [if_neg (not_lt.2 hle), if_neg (hin hfirst hlast), if_neg (not_not_intro (isByteValue_iff.2 ⟨hv0, hv255⟩))]
    refine ⟨_, rfl, fun a => ?_, fun a ha => ?_, Nat.le_add_right _ _, Nat.le_add_right _ _, rfl,
      memFrame_of_segments _ rfl rfl rfl rfl⟩
    · simp only [MemUnit.afterFill_mem, Memory.read_fill, hinterval, byteOf]
    · exact MemUnit.mem_afterFill_written _ _ _ _ _ (mt (hinterval a).1 ha)
  · rw [if_neg (not_lt.2 hle), if_neg (hin hfirst hlast)]
    exact if_pos (not_isByteValue hout)

/-! ### SEARCH -/

theorem exec_search_of_attached (hm : s.params.MEM_ATTACHED = true) :
    exec (.search v) s =
      if isByteValue v then
        State.respond
          (.valueRecord (s.memUnit.mem.search (byteOf v)).length (.addresses (s.memUnit.mem.search (byteOf v))))
          { s with memUnit := s.memUnit.scanned s.draws }
      else s.raise .formatError :=
  if_pos hm

/-- The scan answers its hits in rising order: those before a listed address, that address, and those above it. -/
theorem Memory.searchFrom_pairwise {m : Memory} {start : Nat} (b : Byte) (h : Memory.wfFrom start m = true) :
    (Memory.searchFrom b start m).Pairwise (· < ·) := by
  induction m generalizing start with
  | nil =>
    unfold Memory.searchFrom
    split_ifs
    · exact List.pairwise_lt_range'
    · exact .nil
  | cons c rest ih =>
    obtain ⟨a, x⟩ := c
    obtain ⟨-, hrest⟩ := (Memory.wfFrom_cons _ _ _ _).1 h
    have hgap : ∀ y ∈ (if b = unlistedByte then List.range' start (a - start) else []), y < a := by
      intro y hy
      split_ifs at hy
      · have := List.mem_range'_1.1 hy
        omega
      · cases hy
    have hhit : ∀ y ∈ (if x = b then [a] else []), y = a := by
      intro y hy
      split_ifs at hy
      · exact List.mem_singleton.1 hy
      · cases hy
    have habove : ∀ y ∈ Memory.searchFrom b (a + 1) rest, a < y := fun y hy =>
      ((Memory.mem_searchFrom hrest).1 hy).1
    simp only [Memory.searchFrom, List.pairwise_append, List.mem_append]
    refine ⟨⟨?_, ?_, fun y hy z hz => hhit z hz ▸ hgap y hy⟩, ih hrest, fun y hy z hz => ?_⟩
    · split_ifs
      · exact List.pairwise_lt_range'
      · exact .nil
    · split_ifs
      · exact List.pairwise_singleton _ _
      · exact .nil
    · have := habove z hz
      rcases hy with hy | hy
      · exact (hgap y hy).trans this
      · exact hhit y hy ▸ this

/-- The scan of the entire memory finds the addresses that hold the byte, in rising order (R213). -/
theorem Memory.search_eq_filter {m : Memory} (b : Byte) (h : m.wf = true) :
    m.search b = (List.range memSize).filter fun a => decide (m.read a = b) := by
  refine (Memory.searchFrom_pairwise b h).eq_of_mem_iff (List.pairwise_lt_range.filter _) fun a => ?_
  rw [Memory.mem_searchFrom h, List.mem_filter, List.mem_range, decide_eq_true_iff]
  exact and_iff_right (Nat.zero_le a)

/-- Settles O53: the scan's hits are the addresses of the memory that hold the value's byte. -/
theorem searchFindsEveryAddress : Obligations.SearchFindsEveryAddress := by
  refine ⟨rfl, fun s v hm hwf => ?_⟩
  rw [exec_search_of_attached hm]
  refine ⟨fun hv0 hv255 => ?_, fun hout => if_neg (not_isByteValue hout)⟩
  have hv := isByteValue_iff.2 ⟨hv0, hv255⟩
  rw [if_pos hv]
  refine ⟨_, _, rfl, ?_, rfl, rfl, memFrame_of_segments _ rfl rfl rfl rfl⟩
  simp only [Memory.search_eq_filter _ hwf, eq_byteOf_iff hv, memSize]

end Sys2Proof.Machine
end

section
/-! PROOFS. The seven fields of INSPECT (43_memory_port.md R215 to R222): what the model's readings of consecutive bytes
are, byte by byte, and where the preview ends. -/

namespace Sys2Proof.Machine

variable {s : State} {m : Memory}

/-! ### Readings of consecutive bytes -/

theorem Memory.readBytes_zero (m : Memory) (addr : Nat) : m.readBytes addr 0 = [] := rfl

theorem Memory.readBytes_succ (m : Memory) (addr n : Nat) :
    m.readBytes addr (n + 1) = m.read addr :: m.readBytes (addr + 1) n := by
  rw [Memory.readBytes, List.range'_succ, List.map_cons, Memory.readBytes]

theorem Memory.getElem?_readBytes {n k : Nat} (addr : Nat) (hk : k < n) :
    (m.readBytes addr n)[k]? = some (m.read (addr + k)) := by
  simp [Memory.readBytes, hk]

/-- The signed reading of a word's value (R13) is the word's own. -/
theorem sval_toNat {n : Nat} (b : BitVec n) : sval n b.toNat = b.toInt := by
  rw [BitVec.toInt_eq_msb_cond, BitVec.msb_eq_getLsbD_last, sval, BitVec.getLsbD]
  push_cast
  rfl

/-- The little-endian reading is a word of eight bits per byte. -/
theorem littleEndian_lt (bytes : List Byte) : littleEndian bytes < 256 ^ bytes.length := by
  induction bytes with
  | nil => exact Nat.one_pos
  | cons b rest ih =>
    have := b.isLt
    rw [littleEndian, List.length_cons, Nat.pow_succ']
    omega

theorem Memory.field_word_LE (m : Memory) (addr : Nat) :
    m.field addr 2 littleEndian =
      if addr + 1 < 0x100000 then some ((m.read addr).toNat + 256 * (m.read (addr + 1)).toNat) else none := by
  simp only [Memory.field, Memory.readBytes_succ, Memory.readBytes_zero, littleEndian, Nat.mul_zero, Nat.add_zero]
  rfl

theorem Memory.field_word_BE (m : Memory) (addr : Nat) :
    m.field addr 2 bigEndian =
      if addr + 1 < 0x100000 then some (256 * (m.read addr).toNat + (m.read (addr + 1)).toNat) else none := by
  simp only [Memory.field, Memory.readBytes_succ, Memory.readBytes_zero, bigEndian, List.reverse_cons, List.reverse_nil,
    List.nil_append, List.cons_append, littleEndian, Nat.mul_zero, Nat.add_zero, Nat.add_comm (m.read (addr + 1)).toNat]
  rfl

theorem Memory.field_dword (m : Memory) (addr : Nat) :
    m.field addr 4 littleEndian =
      if addr + 3 < 0x100000 then
        some ((m.read addr).toNat + 2 ^ 8 * (m.read (addr + 1)).toNat + 2 ^ 16 * (m.read (addr + 2)).toNat +
          2 ^ 24 * (m.read (addr + 3)).toNat)
      else none := by
  have hfits : addr + 4 ≤ memSize ↔ addr + 3 < 0x100000 := Iff.rfl
  simp only [Memory.field, Memory.readBytes_succ, Memory.readBytes_zero, littleEndian, hfits, Nat.add_assoc,
    Nat.reduceAdd]
  congr 2
  omega

/-- The float pattern has the dword's value: the dword has 32 bits (R220). -/
theorem Memory.field_float32 (m : Memory) (addr : Nat) :
    ((m.field addr 4 littleEndian).map fun v => BitVec.ofNat 32 v).map BitVec.toNat =
      m.field addr 4 littleEndian := by
  unfold Memory.field
  split_ifs
  · have hlt := littleEndian_lt (m.readBytes addr 4)
    rw [Memory.readBytes_length] at hlt
    simp only [Option.map_some, BitVec.toNat_ofNat, Nat.mod_eq_of_lt (show _ < 2 ^ 32 from hlt)]
  · rfl

/-! ### The preview -/

/-- Within the list, the elements taken while `p` holds end exactly at one that fails `p`. -/
theorem getElem?_takeWhile_eq_none_iff {α : Type} (p : α → Bool) {l : List α} {k : Nat} {x : α}
    (hk : k ≤ (l.takeWhile p).length) (hx : l[k]? = some x) : (l.takeWhile p)[k]? = none ↔ p x = false := by
  induction l generalizing k with
  | nil => cases hx
  | cons a rest ih =>
    by_cases ha : p a = true
    · rw [List.takeWhile_cons_of_pos ha] at hk ⊢
      cases k with
      | zero =>
        cases hx
        simp [ha]
      | succ k =>
        rw [List.getElem?_cons_succ] at hx ⊢
        exact ih (Nat.le_of_succ_le_succ hk) hx
    · rw [List.takeWhile_cons_of_neg ha, List.length_nil, Nat.le_zero] at hk
      subst hk
      cases hx
      simpa [List.takeWhile_cons_of_neg ha] using ha

/-- The character of a previewed byte (R221). -/
theorem previewChar_spec (b : Byte) :
    if 0x20 ≤ b.toNat ∧ b.toNat ≤ 0x7E then (previewChar b).toNat = b.toNat else previewChar b = '.' := by
  unfold previewChar
  split_ifs with h
  · have hvalid : b.toNat.isValidChar := Or.inl (by omega)
    rw [Char.toNat_ofNat, if_pos hvalid]
  · rfl

theorem Memory.preview_length_le (m : Memory) (addr : Nat) :
    (m.preview addr).length ≤ min 16 (memSize - addr) := by
  have hle := (List.takeWhile_prefix (fun b : Byte => b ≠ 0)
    (l := m.readBytes addr (min 16 (memSize - addr)))).length_le
  rwa [Memory.readBytes_length, ← List.length_map (f := previewChar)] at hle

/-- Within its 16 bytes and the memory, the preview ends exactly at a zero byte. -/
theorem Memory.getElem?_preview_eq_none_iff {addr k : Nat} (hk : k ≤ (m.preview addr).length)
    (hlt : k < min 16 (memSize - addr)) : (m.preview addr)[k]? = none ↔ m.read (addr + k) = 0 := by
  rw [Memory.preview, List.length_map] at hk
  rw [Memory.preview, List.getElem?_map, Option.map_eq_none_iff,
    getElem?_takeWhile_eq_none_iff _ hk (Memory.getElem?_readBytes addr hlt)]
  simp

/-- Each character of the preview is that of its byte. -/
theorem Memory.eq_previewChar_of_getElem? {addr k : Nat} {c : Char} (hc : (m.preview addr)[k]? = some c) :
    c = previewChar (m.read (addr + k)) := by
  have hlt : k < min 16 (memSize - addr) :=
    (List.getElem?_eq_some_iff.1 hc).1.trans_le (Memory.preview_length_le m addr)
  rw [Memory.preview, List.getElem?_map, Option.map_eq_some_iff] at hc
  obtain ⟨b, hb, rfl⟩ := hc
  obtain ⟨hk, rfl⟩ := List.getElem?_eq_some_iff.1 hb
  have hread := List.prefix_iff_getElem?.1 (List.takeWhile_prefix _) k hk
  rw [Memory.getElem?_readBytes addr hlt] at hread
  rw [Option.some.inj hread]

/-! ### INSPECT -/

theorem exec_inspect_of_attached {addr : Int} (hm : s.params.MEM_ATTACHED = true) :
    exec (.inspect addr) s =
      if validAddress addr then
        State.respond (.record (.inspection (s.memUnit.mem.inspect addr.toNat)))
          { s with memUnit := s.memUnit.scanned s.draws }
      else s.raise .addressOutOfRange :=
  if_pos hm

/-- Settles O54: the record of a valid address, field by field; any other address fails. -/
theorem inspectShowsFields : Obligations.InspectShowsFields := by
  refine ⟨rfl, fun s addr hm => ⟨fun hlt => ?_, fun a hout => ?_⟩⟩
  · rw [exec_inspect_of_attached hm, if_pos (validAddress_iff.2 ⟨Int.natCast_nonneg addr, by omega⟩)]
    refine ⟨_, _, rfl, rfl, rfl, sval_toNat _, Memory.field_word_LE _ _, Memory.field_word_BE _ _,
      Memory.field_dword _ _, Memory.field_float32 _ _, fun k => Memory.getElem?_preview_eq_none_iff,
      Memory.preview_length_le _ _, fun k c hc => ?_, rfl, memFrame_of_segments _ rfl rfl rfl rfl⟩
    rw [Memory.eq_previewChar_of_getElem? hc]
    exact previewChar_spec _
  · rw [exec_inspect_of_attached hm]
    exact if_neg (not_validAddress hout)

end Sys2Proof.Machine
end

section
/-! PROOFS. The errors (60_exceptions.md R242 to R253): the relation `Raises` lists every cause of every error, and
`exec_ends` says that a command raises one of its errors, or succeeds, or ends with a stack to commit. -/

namespace Sys2Proof.Machine

variable {s t : State} {i : Instr} {e : Status} {o : Result}

/-! ### The causes -/

/-- The causes of the errors, one constructor for each cause that 60_exceptions.md lists, in the order of R256 where
a command has several. -/
inductive Raises (s : State) : Instr → Status → Prop
  /-- FENC.S of a value that the encoder refuses (R249). -/
  | encodeSingle (value : Nat) (h : encodeValue .single s.params.FRAC_CAP_S value = none) :
      Raises s (.fencS value) .encodeRange
  /-- FENC.D of a value that the encoder refuses (R249). -/
  | encodeDouble (value : Nat) (h : encodeValue .double s.params.FRAC_CAP_D value = none) :
      Raises s (.fencD value) .encodeRange
  /-- FDEC of another length (R243). -/
  | decodeLength (word : Nat) (len : Int) (h32 : len ≠ 32) (h64 : len ≠ 64) : Raises s (.fdec word len) .formatError
  /-- BINIT of a width or an operand out of range (R242). -/
  | binitOperands (m q width : Int)
      (h : ¬ (1 ≤ width ∧ width ≤ s.params.W_MAX ∧ inSignedRange width.toNat m = true ∧
        inSignedRange width.toNat q = true)) : Raises s (.binit m q width) .invalidInputError
  /-- BSTEP without a multiplication (R252). -/
  | bstepIdle (h : s.bmu.phase = .idle) : Raises s .bstep .notReady
  /-- BRESULT before the multiplication is complete (R252). -/
  | bresultEarly (h : s.bmu.phase ≠ .complete) : Raises s .bresult .notReady
  /-- BVIEW without a multiplication (R252). -/
  | bviewIdle (index : Int) (h : s.bmu.phase = .idle) : Raises s (.bview index) .notReady
  /-- BVIEW of no record of the history (R242). -/
  | bviewIndex (index : Int) (hphase : s.bmu.phase ≠ .idle)
      (h : index < 0 ∨ (s.bmu.history.length : Int) ≤ index) : Raises s (.bview index) .invalidInputError
  /-- PUSH on a full stack (R244). -/
  | pushFull (v : Int) (h : s.scu.operandStack.length = s.params.MAX_STACK_SIZE) : Raises s (.push v) .stackOverflow
  /-- PUSH of a value that no element holds (R251). -/
  | pushRange (v : Int) (hroom : s.scu.operandStack.length ≠ s.params.MAX_STACK_SIZE) (h : ¬ Claims.fits s v) :
      Raises s (.push v) .cellRange
  /-- POP on an empty stack (R245). -/
  | popEmpty (h : s.scu.operandStack = []) : Raises s .pop .stackUnderflow
  /-- PEEK on an empty stack (R245). -/
  | peekEmpty (h : s.scu.operandStack = []) : Raises s .peek .stackUnderflow
  /-- A binary operation on fewer than two elements (R245). -/
  | binaryShort (op : BinOp) (h : s.scu.operandStack.length < 2) : Raises s (Claims.instrOf op) .stackUnderflow
  /-- DIV and MOD with a right operand 0 (R246). -/
  | divideByZero (op : BinOp) (below : List Int) (a : Int) (hop : op ∈ [BinOp.div, .mod])
      (hstack : s.scu.operandStack = below ++ [a, 0]) : Raises s (Claims.instrOf op) .divisionByZero
  /-- A binary operation whose result no element holds (R251). -/
  | resultRange (op : BinOp) (below : List Int) (a b : Int) (hstack : s.scu.operandStack = below ++ [a, b])
      (hzero : ¬ (op ∈ [BinOp.div, .mod] ∧ b = 0))
      (h : ¬ Claims.fits s (Claims.resultOf s.params.DIV_ROUND a b op)) : Raises s (Claims.instrOf op) .cellRange
  /-- A MEM command without a memory (R250). -/
  | detached (i : Instr) (hunit : (opcode i).toNat / 16 = 3) (h : s.params.MEM_ATTACHED = false) :
      Raises s i .illegalCommand
  /-- READB of no address (R247). -/
  | readbAddress (a : Int) (hm : s.params.MEM_ATTACHED = true) (h : a < 0 ∨ 0x100000 ≤ a) :
      Raises s (.readb a) .addressOutOfRange
  /-- WRITEB to no address (R247). -/
  | writebAddress (a v : Int) (hm : s.params.MEM_ATTACHED = true) (h : a < 0 ∨ 0x100000 ≤ a) :
      Raises s (.writeb a v) .addressOutOfRange
  /-- WRITEB of no byte (R248). -/
  | writebValue (a v : Int) (hm : s.params.MEM_ATTACHED = true) (h0 : 0 ≤ a) (hlt : a < 0x100000)
      (h : v < 0 ∨ 255 < v) : Raises s (.writeb a v) .invalidByteValue
  /-- FILL from an address beyond the last one to fill (R242). -/
  | fillOrder (a b v : Int) (hm : s.params.MEM_ATTACHED = true) (h : b < a) :
      Raises s (.fill a b v) .invalidInputError
  /-- FILL of an interval with an end outside the memory (R247). -/
  | fillEnds (a b v : Int) (hm : s.params.MEM_ATTACHED = true) (hle : a ≤ b) (h : a < 0 ∨ 0x100000 ≤ b) :
      Raises s (.fill a b v) .addressOutOfRange
  /-- FILL with no byte (R248). -/
  | fillValue (a b v : Int) (hm : s.params.MEM_ATTACHED = true) (hle : a ≤ b) (h0 : 0 ≤ a) (hlt : b < 0x100000)
      (h : v < 0 ∨ 255 < v) : Raises s (.fill a b v) .invalidByteValue
  /-- SEARCH for no byte (R243). -/
  | searchValue (v : Int) (hm : s.params.MEM_ATTACHED = true) (h : v < 0 ∨ 255 < v) :
      Raises s (.search v) .formatError
  /-- INSPECT of no address (R247). -/
  | inspectAddress (a : Int) (hm : s.params.MEM_ATTACHED = true) (h : a < 0 ∨ 0x100000 ≤ a) :
      Raises s (.inspect a) .addressOutOfRange

/-! ### The checks as the causes say them -/

theorem not_validAddress_iff {a : Int} : ¬ validAddress a = true ↔ a < 0 ∨ 0x100000 ≤ a := by
  rw [validAddress_iff]
  omega

theorem not_isByteValue_iff {v : Int} : ¬ isByteValue v = true ↔ v < 0 ∨ 255 < v := by
  rw [isByteValue_iff]
  omega

theorem Bmu.record?_isSome {b : Bmu} {index : Int} (h : ¬ (index < 0 ∨ (b.history.length : Int) ≤ index)) :
    ∃ r, b.record? index = some r := by
  rw [Bmu.record?_of_nonneg (by omega)]
  exact ⟨_, List.getElem?_eq_getElem (by omega)⟩

/-- A stack of two elements or more has a left and a right operand on top (R175). -/
theorem exists_operands_iff {l : List Int} : 2 ≤ l.length ↔ ∃ below a b, l = below ++ [a, b] := by
  constructor
  · intro h
    obtain rfl | ⟨l, b, rfl⟩ := l.eq_nil_or_concat'
    · simp at h
    obtain rfl | ⟨below, a, rfl⟩ := l.eq_nil_or_concat'
    · simp at h
    · exact ⟨below, a, b, by simp⟩
  · rintro ⟨below, a, b, rfl⟩
    simp

theorem mem_arithmetic_iff : i ∈ [Instr.add, .sub, .mul, .div, .mod] ↔ ∃ op, i = Claims.instrOf op := by
  constructor
  · simp only [List.mem_cons, List.not_mem_nil, or_false]
    rintro (rfl | rfl | rfl | rfl | rfl)
    · exact ⟨.add, rfl⟩
    · exact ⟨.sub, rfl⟩
    · exact ⟨.mul, rfl⟩
    · exact ⟨.div, rfl⟩
    · exact ⟨.mod, rfl⟩
  · rintro ⟨op, rfl⟩
    exact instrOf_mem op

theorem mem_divisions_iff :
    i ∈ [Instr.div, .mod] ↔ ∃ op ∈ [BinOp.div, .mod], i = Claims.instrOf op := by
  simp [Claims.instrOf]

/-- DIV and MOD with 0 on top of another element fail (R246). -/
theorem exec_instrOf_of_zero {op : BinOp} {below : List Int} {a : Int} (hop : op ∈ [BinOp.div, .mod])
    (hstack : s.scu.operandStack = below ++ [a, 0]) : exec (Claims.instrOf op) s = s.raise .divisionByZero := by
  rw [exec_instrOf, State.binaryOp_eq hstack]
  exact if_pos ⟨(divides_iff op).2 hop, rfl⟩

/-! ### Each cause raises its error -/

theorem Raises.exec_eq (h : Raises s i e) : exec i s = s.raise e := by
  cases h with
  | encodeSingle value h =>
    rw [exec_fencS, encodedResponse, h]
    rfl
  | encodeDouble value h =>
    rw [exec_fencD, encodedResponse, h]
    rfl
  | decodeLength word len h32 h64 =>
    rw [exec_fdec, decodedResponse, if_neg h32, if_neg h64]
    rfl
  | binitOperands m q width h => exact exec_binit_of_refused h
  | bstepIdle h => exact exec_bstep_of_idle h
  | bresultEarly h => exact exec_bresult_of_not_complete h
  | bviewIdle index h => exact exec_bview_of_idle index h
  | bviewIndex index hphase h => exact exec_bview_of_no_record hphase (Bmu.record?_eq_none h)
  | pushFull v h => exact exec_push_of_full h
  | pushRange v hroom h => exact exec_push_of_not_fits hroom h
  | popEmpty h => exact exec_pop_of_empty h
  | peekEmpty h => exact exec_peek_of_empty h
  | binaryShort op h => rw [exec_instrOf, State.binaryOp_of_short op h]
  | divideByZero op below a hop hstack => exact exec_instrOf_of_zero hop hstack
  | resultRange op below a b hstack hzero h =>
    rw [exec_instrOf, State.binaryOp_eq_of_result hstack (fun hop hb => hzero ⟨hop, hb⟩) rfl]
    exact if_neg (mt cellFits_iff_fits.1 h)
  | detached _ hunit h => exact exec_mem_of_detached hunit h
  | readbAddress a hm h => exact (exec_readb_of_attached hm).trans (if_neg (not_validAddress h))
  | writebAddress a v hm h => exact (exec_writeb_of_attached hm).trans (if_pos (not_validAddress h))
  | writebValue a v hm h0 hlt h =>
    rw [exec_writeb_of_attached hm, if_neg (not_not_intro (validAddress_iff.2 ⟨h0, hlt⟩))]
    exact if_pos (not_isByteValue h)
  | fillOrder a b v hm h => exact (exec_fill_of_attached hm).trans (if_pos h)
  | fillEnds a b v hm hle h =>
    rw [exec_fill_of_attached hm, if_neg (not_lt.2 hle)]
    exact if_pos h
  | fillValue a b v hm hle h0 hlt h =>
    have hin : ¬ (a < 0 ∨ (memSize : Int) ≤ b) := not_or.2 ⟨not_lt.2 h0, not_le.2 hlt⟩
    rw [exec_fill_of_attached hm, if_neg (not_lt.2 hle), if_neg hin]
    exact if_pos (not_isByteValue h)
  | searchValue v hm h => exact (exec_search_of_attached hm).trans (if_neg (not_isByteValue h))
  | inspectAddress a hm h => exact (exec_inspect_of_attached hm).trans (if_neg (not_validAddress h))

/-! ### There is no other way to end -/

/-- The ways in which a command ends: with an error that has a cause, with a success, or with a stack to commit whose
slots a stack within `MAX_STACK_SIZE` does not exceed. -/
inductive Ends (s : State) (i : Instr) : Result → Prop
  | raises {e : Status} (h : Raises s i e) : Ends s i (s.raise e)
  | succeeds {t : State} (h : Claims.statusOf t = some .ok) : Ends s i (.next t)
  | commits {u : Scu} {vacated : Bool} {r : Response} (hr : r.status = .ok)
      (hslots : s.scu.operandStack.length ≤ s.params.MAX_STACK_SIZE →
        slotsTouched u.operandStack vacated ≤ s.params.MAX_STACK_SIZE) : Ends s i (s.commitStack u vacated r)

theorem exec_fencS_ends (value : Nat) : Ends s (.fencS value) (exec (.fencS value) s) := by
  rw [exec_fencS, encodedResponse]
  cases h : encodeValue .single s.params.FRAC_CAP_S value with
  | none => exact .raises (.encodeSingle value h)
  | some d => exact .succeeds rfl

theorem exec_fencD_ends (value : Nat) : Ends s (.fencD value) (exec (.fencD value) s) := by
  rw [exec_fencD, encodedResponse]
  cases h : encodeValue .double s.params.FRAC_CAP_D value with
  | none => exact .raises (.encodeDouble value h)
  | some d => exact .succeeds rfl

theorem exec_fdec_ends (word : Nat) (len : Int) : Ends s (.fdec word len) (exec (.fdec word len) s) := by
  rw [exec_fdec, decodedResponse]
  split_ifs with h32 h64
  · exact .succeeds rfl
  · exact .succeeds rfl
  · exact .raises (.decodeLength word len h32 h64)

theorem exec_binit_ends (m q width : Int) : Ends s (.binit m q width) (exec (.binit m q width) s) := by
  by_cases h : 1 ≤ width ∧ width ≤ s.params.W_MAX ∧ inSignedRange width.toNat m = true ∧
    inSignedRange width.toNat q = true
  · obtain ⟨hpos, hmax, hm, hq⟩ := h
    rw [exec_binit_of_inSignedRange hpos hmax hm hq]
    exact .succeeds rfl
  · rw [exec_binit_of_refused h]
    exact .raises (.binitOperands m q width h)

theorem exec_bstep_ends : Ends s .bstep (exec .bstep s) := by
  cases h : s.bmu.phase with
  | idle =>
    rw [exec_bstep_of_idle h]
    exact .raises (.bstepIdle h)
  | stepping =>
    rw [exec_bstep_of_stepping h]
    exact .succeeds rfl
  | complete =>
    rw [exec_bstep_of_complete h]
    exact .succeeds rfl

theorem exec_bresult_ends : Ends s .bresult (exec .bresult s) := by
  by_cases h : s.bmu.phase = .complete
  · rw [exec_bresult_of_complete h]
    exact .succeeds rfl
  · rw [exec_bresult_of_not_complete h]
    exact .raises (.bresultEarly h)

theorem exec_bview_ends (index : Int) : Ends s (.bview index) (exec (.bview index) s) := by
  by_cases hphase : s.bmu.phase = .idle
  · rw [exec_bview_of_idle index hphase]
    exact .raises (.bviewIdle index hphase)
  by_cases h : index < 0 ∨ (s.bmu.history.length : Int) ≤ index
  · rw [exec_bview_of_no_record hphase (Bmu.record?_eq_none h)]
    exact .raises (.bviewIndex index hphase h)
  · obtain ⟨r, hr⟩ := Bmu.record?_isSome h
    rw [exec_bview_of_record hphase hr]
    exact .succeeds rfl

theorem exec_push_ends (v : Int) : Ends s (.push v) (exec (.push v) s) := by
  by_cases hfull : s.scu.operandStack.length = s.params.MAX_STACK_SIZE
  · rw [exec_push_of_full hfull]
    exact .raises (.pushFull v hfull)
  by_cases hfit : Claims.fits s v
  · rw [exec_push_of_fits hfull hfit]
    refine .commits rfl fun hle => ?_
    rw [slotsTouched, Scu.pushed_operandStack, List.length_append]
    exact Nat.lt_of_le_of_ne hle hfull
  · rw [exec_push_of_not_fits hfull hfit]
    exact .raises (.pushRange v hfull hfit)

theorem exec_pop_ends : Ends s .pop (exec .pop s) := by
  obtain hstack | ⟨below, v, hstack⟩ := s.scu.operandStack.eq_nil_or_concat'
  · rw [exec_pop_of_empty hstack]
    exact .raises (.popEmpty hstack)
  · rw [exec_pop_of_top hstack]
    refine .commits rfl fun hle => ?_
    rw [hstack, List.length_append] at hle
    exact hle

theorem exec_peek_ends : Ends s .peek (exec .peek s) := by
  obtain hstack | ⟨below, v, hstack⟩ := s.scu.operandStack.eq_nil_or_concat'
  · rw [exec_peek_of_empty hstack]
    exact .raises (.peekEmpty hstack)
  · rw [exec_peek_of_top hstack]
    exact .succeeds rfl

theorem exec_instrOf_ends (op : BinOp) : Ends s (Claims.instrOf op) (exec (Claims.instrOf op) s) := by
  by_cases hshort : s.scu.operandStack.length < 2
  · rw [exec_instrOf, State.binaryOp_of_short op hshort]
    exact .raises (.binaryShort op hshort)
  obtain ⟨below, a, b, hstack⟩ := exists_operands_iff.1 (not_lt.1 hshort)
  by_cases hzero : op ∈ [BinOp.div, .mod] ∧ b = 0
  · obtain ⟨hop, rfl⟩ := hzero
    rw [exec_instrOf_of_zero hop hstack]
    exact .raises (.divideByZero op below a hop hstack)
  rw [exec_instrOf, State.binaryOp_eq_of_result hstack (fun hop hb => hzero ⟨hop, hb⟩) rfl]
  split_ifs with hfit
  · refine .commits rfl fun hle => ?_
    rw [hstack, List.length_append] at hle
    rw [slotsTouched, Scu.computed_operandStack, List.length_append]
    exact hle
  · exact .raises (.resultRange op below a b hstack hzero (mt cellFits_iff_fits.2 hfit))

/-- Without a memory a MEM command has no other end than IllegalCommand. -/
theorem Ends.of_attached (hunit : (opcode i).toNat / 16 = 3)
    (h : s.params.MEM_ATTACHED = true → Ends s i (exec i s)) : Ends s i (exec i s) := by
  cases hm : s.params.MEM_ATTACHED with
  | true => exact h hm
  | false =>
    rw [exec_mem_of_detached hunit hm]
    exact .raises (.detached i hunit hm)

theorem exec_readb_ends (a : Int) : Ends s (.readb a) (exec (.readb a) s) := by
  refine .of_attached (by simp [opcode]) fun hm => ?_
  rw [exec_readb_of_attached hm]
  split_ifs with ha
  · exact .succeeds rfl
  · exact .raises (.readbAddress a hm (not_validAddress_iff.1 ha))

theorem exec_writeb_ends (a v : Int) : Ends s (.writeb a v) (exec (.writeb a v) s) := by
  refine .of_attached (by simp [opcode]) fun hm => ?_
  rw [exec_writeb_of_attached hm]
  split_ifs with ha hv
  · exact .succeeds rfl
  · obtain ⟨h0, hlt⟩ := validAddress_iff.1 ha
    exact .raises (.writebValue a v hm h0 hlt (not_isByteValue_iff.1 hv))
  · exact .raises (.writebAddress a v hm (not_validAddress_iff.1 ha))

theorem exec_fill_ends (a b v : Int) : Ends s (.fill a b v) (exec (.fill a b v) s) := by
  refine .of_attached (by simp [opcode]) fun hm => ?_
  rw [exec_fill_of_attached hm]
  split_ifs with horder hends hv
  · exact .raises (.fillOrder a b v hm horder)
  · exact .raises (.fillEnds a b v hm (not_lt.1 horder) hends)
  · exact .succeeds rfl
  · obtain ⟨h0, hlt⟩ := not_or.1 hends
    exact .raises (.fillValue a b v hm (not_lt.1 horder) (not_lt.1 h0) (not_le.1 hlt) (not_isByteValue_iff.1 hv))

theorem exec_search_ends (v : Int) : Ends s (.search v) (exec (.search v) s) := by
  refine .of_attached (by simp [opcode]) fun hm => ?_
  rw [exec_search_of_attached hm]
  split_ifs with hv
  · exact .succeeds rfl
  · exact .raises (.searchValue v hm (not_isByteValue_iff.1 hv))

theorem exec_inspect_ends (a : Int) : Ends s (.inspect a) (exec (.inspect a) s) := by
  refine .of_attached (by simp [opcode]) fun hm => ?_
  rw [exec_inspect_of_attached hm]
  split_ifs with ha
  · exact .succeeds rfl
  · exact .raises (.inspectAddress a hm (not_validAddress_iff.1 ha))

/-- Every command ends in one of the ways listed, in every state. -/
theorem exec_ends (i : Instr) (s : State) : Ends s i (exec i s) := by
  cases i with
  | fencS value => exact exec_fencS_ends value
  | fencD value => exact exec_fencD_ends value
  | fdec word len => exact exec_fdec_ends word len
  | binit m q width => exact exec_binit_ends m q width
  | bstep => exact exec_bstep_ends
  | bresult => exact exec_bresult_ends
  | bview index => exact exec_bview_ends index
  | breset => exact .succeeds rfl
  | push v => exact exec_push_ends v
  | pop => exact exec_pop_ends
  | peek => exact exec_peek_ends
  | sreset => exact .succeeds rfl
  | add => exact exec_instrOf_ends .add
  | sub => exact exec_instrOf_ends .sub
  | mul => exact exec_instrOf_ends .mul
  | div => exact exec_instrOf_ends .div
  | mod => exact exec_instrOf_ends .mod
  | readb a => exact exec_readb_ends a
  | writeb a v => exact exec_writeb_ends a v
  | fill a b v => exact exec_fill_ends a b v
  | search v => exact exec_search_ends v
  | inspect a => exact exec_inspect_ends a

/-! ### The hardware never stops -/

/-- In a consistent state the projection of a stack within `MAX_STACK_SIZE` stays in the memory (R6, R59). -/
theorem State.Consistent.projectable (hs : s.Consistent) {slots : Nat} (h : slots ≤ s.params.MAX_STACK_SIZE) :
    Claims.projectable s slots := by
  obtain ⟨-, hmax, -⟩ := of_decide_eq_true hs.params_admitted
  exact fun _ => ⟨hs.memUnit.stack_segment, h.trans hmax⟩

theorem Ends.safe (h : Ends s i o) (hs : s.Consistent) : Safe o := by
  cases h with
  | raises h => exact ⟨_, rfl⟩
  | succeeds h => exact ⟨_, rfl⟩
  | commits hr hslots =>
    obtain ⟨t, ht, -⟩ := State.commitStack_of_projectable _ (hs.projectable (hslots hs.scu.length_le))
    exact ⟨t, ht⟩

/-- Settles O10: waiting, a reset and a reserved word answer outright; a command raises, succeeds, or commits a stack
that a consistent state has room for. -/
theorem stepAlwaysAnswers : Obligations.StepAlwaysAnswers := by
  intro s hs
  rcases hin : s.inputs with _ | ⟨_ | c, rest⟩
  · exact ⟨_, step_of_no_input hin⟩
  · exact ⟨_, step_of_rst hin⟩
  · cases hd : decode c with
    | ok i =>
      rw [step_of_command hin hd]
      exact (exec_ends i _).safe (hs.of_accept rest)
    | error e => exact ⟨_, step_of_reserved hin hd⟩

/-! ### A failing command -/

/-- A command that answers raises an error that has a cause, or succeeds. -/
theorem exec_raises_or_ok (h : exec i s = .next t) :
    (∃ e, Raises s i e ∧ t = Claims.answered s (Claims.failed e)) ∨ Claims.statusOf t = some .ok := by
  have hends := exec_ends i s
  rw [h] at hends
  generalize ho : Host.Outcome.next t = o at hends
  cases hends with
  | raises hraises => exact .inl ⟨_, hraises, (State.raise_next_iff _).1 ho.symm⟩
  | succeeds hok => cases ho; exact .inr hok
  | commits hr hslots => exact .inr (by rw [statusOf_commitStack ho.symm, hr])

/-- The error a command answers is the one that has a cause. -/
theorem statusOf_eq_iff_raises (h : exec i s = .next t) (he : e ≠ .ok) :
    Claims.statusOf t = some e ↔ Raises s i e := by
  constructor
  · intro hstatus
    obtain ⟨e', hraises, rfl⟩ | hok := exec_raises_or_ok h
    · cases hstatus; exact hraises
    · rw [hstatus] at hok
      exact absurd (Option.some.inj hok) he
  · intro hraises
    rw [hraises.exec_eq] at h
    obtain rfl := (State.raise_next_iff e).1 h
    rfl

/-- Of the statuses in a list without OK each leaves the units as they are (R253). -/
theorem unitsUnchanged_of_mem {l : List (Option Status)} (h : exec i s = .next t) (hl : some .ok ∉ l)
    (hmem : Claims.statusOf t ∈ l) : Claims.unitsUnchanged s t := by
  obtain ⟨e, -, rfl⟩ | hok := exec_raises_or_ok h
  · exact ⟨rfl, rfl, rfl⟩
  · rw [hok] at hmem
    exact absurd hmem hl

theorem toNat_code (e : Status) : e.code.toNat = Claims.statusCode e := by
  cases e <;> rfl

/-- Settles O12: a status that is not OK was raised, and the mechanism that raises stores the response only. -/
theorem failingCommandChangesNothing : Obligations.FailingCommandChangesNothing := by
  intro i s t e h hstatus he
  rw [((statusOf_eq_iff_raises h he).1 hstatus).exec_eq] at h
  obtain rfl := (State.raise_next_iff e).1 h
  exact ⟨rfl, congrArg some (toNat_code e)⟩

/-! ### The stack errors -/

theorem raises_stackOverflow_iff :
    Raises s i .stackOverflow ↔ ∃ v, i = .push v ∧ s.scu.operandStack.length = s.params.MAX_STACK_SIZE := by
  constructor
  · rintro ⟨⟩
    case pushFull v h => exact ⟨v, rfl, h⟩
  · rintro ⟨v, rfl, h⟩
    exact .pushFull v h

theorem raises_stackUnderflow_iff :
    Raises s i .stackUnderflow ↔
      (i ∈ [Instr.pop, .peek] ∧ s.scu.operandStack = []) ∨
        (i ∈ [Instr.add, .sub, .mul, .div, .mod] ∧ s.scu.operandStack.length < 2) := by
  rw [mem_arithmetic_iff, List.mem_pair]
  constructor
  · rintro ⟨⟩
    case popEmpty h => exact .inl ⟨.inl rfl, h⟩
    case peekEmpty h => exact .inl ⟨.inr rfl, h⟩
    case binaryShort op h => exact .inr ⟨⟨op, rfl⟩, h⟩
  · rintro (⟨rfl | rfl, h⟩ | ⟨⟨op, rfl⟩, h⟩)
    · exact .popEmpty h
    · exact .peekEmpty h
    · exact .binaryShort op h

theorem raises_divisionByZero_iff :
    Raises s i .divisionByZero ↔
      i ∈ [Instr.div, .mod] ∧ 2 ≤ s.scu.operandStack.length ∧ s.scu.operandStack.getLast? = some 0 := by
  rw [mem_divisions_iff, exists_operands_iff]
  constructor
  · rintro ⟨⟩
    case divideByZero op below a hop hstack => exact ⟨⟨op, hop, rfl⟩, ⟨below, a, 0, hstack⟩, by simp [hstack]⟩
  · rintro ⟨⟨op, hop, rfl⟩, ⟨below, a, b, hstack⟩, hlast⟩
    obtain rfl : b = 0 := by simpa [hstack] using hlast
    exact .divideByZero op below a hop hstack

theorem raises_cellRange_iff :
    Raises s i .cellRange ↔
      (∃ v, i = .push v ∧ s.scu.operandStack.length ≠ s.params.MAX_STACK_SIZE ∧ ¬ Claims.fits s v) ∨
        ∃ op below a b, i = Claims.instrOf op ∧ s.scu.operandStack = below ++ [a, b] ∧
          ¬ (op ∈ [BinOp.div, .mod] ∧ b = 0) ∧
          ¬ Claims.fits s (Claims.resultOf s.params.DIV_ROUND a b op) := by
  constructor
  · rintro ⟨⟩
    case pushRange v hroom h => exact .inl ⟨v, rfl, hroom, h⟩
    case resultRange op below a b hstack hzero h => exact .inr ⟨op, below, a, b, rfl, hstack, hzero, h⟩
  · rintro (⟨v, rfl, hroom, h⟩ | ⟨op, below, a, b, rfl, hstack, hzero, h⟩)
    · exact .pushRange v hroom h
    · exact .resultRange op below a b hstack hzero h

/-- Settles O20: the stack errors have the causes listed, and no other. -/
theorem stackErrorsExactlyWhen : Obligations.StackErrorsExactlyWhen := fun _ _ _ h =>
  ⟨(statusOf_eq_iff_raises h (by decide)).trans raises_stackOverflow_iff,
    (statusOf_eq_iff_raises h (by decide)).trans raises_stackUnderflow_iff,
    (statusOf_eq_iff_raises h (by decide)).trans raises_divisionByZero_iff,
    (statusOf_eq_iff_raises h (by decide)).trans raises_cellRange_iff,
    unitsUnchanged_of_mem h (by decide)⟩

/-- Settles O46: 0 on top of another element is a cause of DivisionByZero for both operations. -/
theorem divisionByZeroRestores : Obligations.DivisionByZeroRestores := fun _ _ _ hstack =>
  ⟨exec_instrOf_of_zero (op := .div) (by decide) hstack, exec_instrOf_of_zero (op := .mod) (by decide) hstack⟩

/-! ### The address and byte errors -/

theorem raises_addressOutOfRange_iff :
    Raises s i .addressOutOfRange ↔
      s.params.MEM_ATTACHED = true ∧
        ((∃ a, (i = .readb a ∨ (∃ v, i = .writeb a v) ∨ i = .inspect a) ∧ (a < 0 ∨ 0x100000 ≤ a)) ∨
          ∃ a b v, i = .fill a b v ∧ a ≤ b ∧ (a < 0 ∨ 0x100000 ≤ b)) := by
  constructor
  · rintro ⟨⟩
    case readbAddress a hm h => exact ⟨hm, .inl ⟨a, .inl rfl, h⟩⟩
    case writebAddress a v hm h => exact ⟨hm, .inl ⟨a, .inr (.inl ⟨v, rfl⟩), h⟩⟩
    case fillEnds a b v hm hle h => exact ⟨hm, .inr ⟨a, b, v, rfl, hle, h⟩⟩
    case inspectAddress a hm h => exact ⟨hm, .inl ⟨a, .inr (.inr rfl), h⟩⟩
  · rintro ⟨hm, ⟨a, rfl | ⟨v, rfl⟩ | rfl, h⟩ | ⟨a, b, v, rfl, hle, h⟩⟩
    · exact .readbAddress a hm h
    · exact .writebAddress a v hm h
    · exact .inspectAddress a hm h
    · exact .fillEnds a b v hm hle h

theorem raises_invalidByteValue_iff :
    Raises s i .invalidByteValue ↔
      s.params.MEM_ATTACHED = true ∧
        ((∃ a v, i = .writeb a v ∧ 0 ≤ a ∧ a < 0x100000 ∧ (v < 0 ∨ 255 < v)) ∨
          ∃ a b v, i = .fill a b v ∧ a ≤ b ∧ 0 ≤ a ∧ b < 0x100000 ∧ (v < 0 ∨ 255 < v)) := by
  constructor
  · rintro ⟨⟩
    case writebValue a v hm h0 hlt h => exact ⟨hm, .inl ⟨a, v, rfl, h0, hlt, h⟩⟩
    case fillValue a b v hm hle h0 hlt h => exact ⟨hm, .inr ⟨a, b, v, rfl, hle, h0, hlt, h⟩⟩
  · rintro ⟨hm, ⟨a, v, rfl, h0, hlt, h⟩ | ⟨a, b, v, rfl, hle, h0, hlt, h⟩⟩
    · exact .writebValue a v hm h0 hlt h
    · exact .fillValue a b v hm hle h0 hlt h

/-- Settles O21: the address and byte errors have the causes listed, and no other. -/
theorem memoryErrorsExactlyWhen : Obligations.MemoryErrorsExactlyWhen := fun _ _ _ h =>
  ⟨(statusOf_eq_iff_raises h (by decide)).trans raises_addressOutOfRange_iff,
    (statusOf_eq_iff_raises h (by decide)).trans raises_invalidByteValue_iff,
    unitsUnchanged_of_mem h (by decide)⟩

/-! ### The operand errors, NotReady, IllegalCommand and EncodeRange -/

/-- The operands BINIT refuses, one inequality for each end of a range (R142). -/
theorem binit_refused_iff {m q w : Int} {wMax : Nat} :
    ¬ (1 ≤ w ∧ w ≤ wMax ∧ inSignedRange w.toNat m = true ∧ inSignedRange w.toNat q = true) ↔
      w < 1 ∨ wMax < w ∨ m < -2 ^ (w.toNat - 1) ∨ 2 ^ (w.toNat - 1) - 1 < m ∨
        q < -2 ^ (w.toNat - 1) ∨ 2 ^ (w.toNat - 1) - 1 < q := by
  simp only [inSignedRange_iff, not_and_or, not_le, or_assoc]

theorem raises_invalidInputError_iff :
    Raises s i .invalidInputError ↔
      (∃ m q w, i = .binit m q w ∧
        (w < 1 ∨ s.params.W_MAX < w ∨ m < -2 ^ (w.toNat - 1) ∨ 2 ^ (w.toNat - 1) - 1 < m ∨
          q < -2 ^ (w.toNat - 1) ∨ 2 ^ (w.toNat - 1) - 1 < q)) ∨
      (∃ k, i = .bview k ∧ s.bmu.phase ≠ .idle ∧ (k < 0 ∨ (s.bmu.history.length : Int) - 1 < k)) ∨
      ∃ a b v, i = .fill a b v ∧ s.params.MEM_ATTACHED = true ∧ b < a := by
  constructor
  · rintro ⟨⟩
    case binitOperands m q w h => exact .inl ⟨m, q, w, rfl, binit_refused_iff.1 h⟩
    case bviewIndex k hphase h => exact .inr (.inl ⟨k, rfl, hphase, h.imp_right Int.sub_one_lt_iff.2⟩)
    case fillOrder a b v hm h => exact .inr (.inr ⟨a, b, v, rfl, hm, h⟩)
  · rintro (⟨m, q, w, rfl, h⟩ | ⟨k, rfl, hphase, h⟩ | ⟨a, b, v, rfl, hm, h⟩)
    · exact .binitOperands m q w (binit_refused_iff.2 h)
    · exact .bviewIndex k hphase (h.imp_right Int.sub_one_lt_iff.1)
    · exact .fillOrder a b v hm h

theorem raises_formatError_iff :
    Raises s i .formatError ↔
      (∃ w len, i = .fdec w len ∧ len ≠ 32 ∧ len ≠ 64) ∨
        ∃ v, i = .search v ∧ s.params.MEM_ATTACHED = true ∧ (v < 0 ∨ 255 < v) := by
  constructor
  · rintro ⟨⟩
    case decodeLength w len h32 h64 => exact .inl ⟨w, len, rfl, h32, h64⟩
    case searchValue v hm h => exact .inr ⟨v, rfl, hm, h⟩
  · rintro (⟨w, len, rfl, h32, h64⟩ | ⟨v, rfl, hm, h⟩)
    · exact .decodeLength w len h32 h64
    · exact .searchValue v hm h

theorem raises_notReady_iff :
    Raises s i .notReady ↔
      ((i = .bstep ∨ ∃ k, i = .bview k) ∧ s.bmu.phase = .idle) ∨ (i = .bresult ∧ s.bmu.phase ≠ .complete) := by
  constructor
  · rintro ⟨⟩
    case bstepIdle h => exact .inl ⟨.inl rfl, h⟩
    case bresultEarly h => exact .inr ⟨rfl, h⟩
    case bviewIdle k h => exact .inl ⟨.inr ⟨k, rfl⟩, h⟩
  · rintro (⟨rfl | ⟨k, rfl⟩, h⟩ | ⟨rfl, h⟩)
    · exact .bstepIdle h
    · exact .bviewIdle k h
    · exact .bresultEarly h

theorem raises_illegalCommand_iff :
    Raises s i .illegalCommand ↔ (opcode i).toNat / 16 = 3 ∧ s.params.MEM_ATTACHED = false := by
  refine ⟨fun h => ?_, fun ⟨hunit, h⟩ => .detached i hunit h⟩
  cases h with
  | detached _ hunit h => exact ⟨hunit, h⟩

theorem encoder_of_raises_encodeRange (h : Raises s i .encodeRange) : ∃ v, i = .fencS v ∨ i = .fencD v := by
  cases h with
  | encodeSingle v => exact ⟨v, .inl rfl⟩
  | encodeDouble v => exact ⟨v, .inr rfl⟩

/-- Settles O22: the errors of the operands, of the phase and of the missing memory have the causes listed, and no
other. -/
theorem operandErrorsExactlyWhen : Obligations.OperandErrorsExactlyWhen := fun _ _ _ h =>
  ⟨(statusOf_eq_iff_raises h (by decide)).trans raises_invalidInputError_iff,
    (statusOf_eq_iff_raises h (by decide)).trans raises_formatError_iff,
    (statusOf_eq_iff_raises h (by decide)).trans raises_notReady_iff,
    (statusOf_eq_iff_raises h (by decide)).trans raises_illegalCommand_iff,
    fun hstatus => encoder_of_raises_encodeRange ((statusOf_eq_iff_raises h (by decide)).1 hstatus),
    unitsUnchanged_of_mem h (by decide)⟩

end Sys2Proof.Machine
end
